-- ==== Sys2Proof/Word.lean ====
section
/-! DEFINITION. The bit-vector types of the block: what the spec reads and writes as bits. -/

namespace Sys2Proof

/-- One byte of LMEM (20_memory R47). -/
abbrev Byte := BitVec 8

/-- A control register, a command word or a hash word: 32 bits (10_state R22, 30_encoding R67). -/
abbrev Word := BitVec 32

/-- The contents of a field register, or one coordinate of a point: 256 bits (10_state R17, R18). -/
abbrev Wide := BitVec 256

/-- A register-index field RD, RA or RB of a command word: 4 bits (30_encoding R67). -/
abbrev Field4 := BitVec 4

/-- A byte offset inside the 4096-byte aperture (20_memory R47, R49). -/
abbrev Offset := BitVec 12

end Sys2Proof
end

