-- ==== Sys2Proof/Syntax.lean ====
section
/-! DEFINITION. The commands of the block: one constructor per row of the opcode map (30_encoding R70). -/

namespace Sys2Proof

/-- A command. The operands are the raw 4-bit fields of the command word, in the order RD, RA, RB with unused fields
left out (30_encoding R67, R69, R74). A `W` field names W0 to W15; a `P` field names P0 to P3 and is legal only below 4
(R68), which `Instr.wellFormed` checks. -/
inductive Instr where
  /-- `FADD wd, wa, wb` (40_field R79). -/
  | fadd (d a b : Field4)
  /-- `FSUB wd, wa, wb` (40_field R80). -/
  | fsub (d a b : Field4)
  /-- `FMUL wd, wa, wb` (40_field R81). -/
  | fmul (d a b : Field4)
  /-- `FINV wd, wa` (40_field R82). -/
  | finv (d a : Field4)
  /-- `SVAL wa` (41_point R89). -/
  | sval (a : Field4)
  /-- `PADD pd, pa, pb` (41_point R90). -/
  | padd (d a b : Field4)
  /-- `PDBL pd, pa` (41_point R91). -/
  | pdbl (d a : Field4)
  /-- `SMUL pd, wa` (41_point R93). -/
  | smul (d a : Field4)
  /-- `PCOMP pa` (41_point R95). -/
  | pcomp (a : Field4)
  /-- `PGEN pd` (41_point R96). -/
  | pgen (d : Field4)
  /-- `PINF pd` (41_point R97). -/
  | pinf (d : Field4)
  /-- `PSET pd, wa, wb` (41_point R98). -/
  | pset (d a b : Field4)
  /-- `PGETX wd, pa` (41_point R99). -/
  | pgetx (d a : Field4)
  /-- `PGETY wd, pa` (41_point R100). -/
  | pgety (d a : Field4)
  /-- `SHA256` (42_hash R117). -/
  | sha256
  /-- `RMD160` (42_hash R118). -/
  | rmd160
  /-- `HASH160` (42_hash R119). -/
  | hash160
  /-- `SHA256D` (42_hash R120). -/
  | sha256d
  /-- `CKSUM` (42_hash R121). -/
  | cksum
  /-- `B58ENC` (43_base58 R125). -/
  | b58enc
  /-- `B58CHK` (43_base58 R126). -/
  | b58chk
  /-- `WIF wa` (43_base58 R127). -/
  | wif (a : Field4)
  /-- `ADDR pa` (43_base58 R128). -/
  | addr (a : Field4)
  /-- `LDW wd` (44_transfer R130). -/
  | ldw (d : Field4)
  /-- `STW wa` (44_transfer R131). -/
  | stw (a : Field4)
deriving DecidableEq, Repr

/-- The pseudo-instruction `FSQR wd, wa` = `FMUL wd, wa, wa` (30_encoding R76). -/
def Instr.fsqr (d a : Field4) : Instr := .fmul d a a

/-- The pseudo-instruction `FDBL wd, wa` = `FADD wd, wa, wa` (30_encoding R76). -/
def Instr.fdbl (d a : Field4) : Instr := .fadd d a a

end Sys2Proof
end

