-- ==== Sys2Proof/WellFormed.lean ====
section
/-! DEFINITION. Which command terms the encoding admits (30_encoding R68). -/

namespace Sys2Proof

/-- A P-kind field is legal when it names P0 to P3: bits [3:2] of the field are 0 (30_encoding R68). -/
def pointFieldOk (r : Field4) : Bool := r.toNat < 4

/-- Every P-kind field is below 4; a W-kind field may hold any value (30_encoding R68, R70). -/
def Instr.wellFormed : Instr → Bool
  | .fadd _ _ _ => true
  | .fsub _ _ _ => true
  | .fmul _ _ _ => true
  | .finv _ _ => true
  | .sval _ => true
  | .padd d a b => pointFieldOk d && pointFieldOk a && pointFieldOk b
  | .pdbl d a => pointFieldOk d && pointFieldOk a
  | .smul d _ => pointFieldOk d
  | .pcomp a => pointFieldOk a
  | .pgen d => pointFieldOk d
  | .pinf d => pointFieldOk d
  | .pset d _ _ => pointFieldOk d
  | .pgetx _ a => pointFieldOk a
  | .pgety _ a => pointFieldOk a
  | .sha256 => true
  | .rmd160 => true
  | .hash160 => true
  | .sha256d => true
  | .cksum => true
  | .b58enc => true
  | .b58chk => true
  | .wif _ => true
  | .addr a => pointFieldOk a
  | .ldw _ => true
  | .stw _ => true

end Sys2Proof
end

