-- ==== Sys2Proof/Decode.lean ====
section
/-! DEFINITION. The command word: the opcode map, the decoder, and an encoder written from the same format
(30_encoding R67 to R73, R77). The decoder is total on all 32-bit words and rejects by name. -/

namespace Sys2Proof

/-- Why a command word is illegal (30_encoding R72). Each reason completes the command with E_ILLEGAL. -/
inductive DecodeError where
  /-- OPC is no opcode of the map. -/
  | opcode
  /-- OPC is assigned and the reserved field RSV, bits [31:20], is not 0. -/
  | reserved
  /-- OPC is assigned, RSV is 0, and an unused field is not 0 or a P-kind field is 4 or more. -/
  | operand
deriving DecidableEq, Repr

/-- OPC, bits [7:0] of a command word (30_encoding R67). -/
def opcField (w : Word) : BitVec 8 := w.extractLsb' 0 8

/-- RD, bits [11:8] of a command word (30_encoding R67). -/
def rdField (w : Word) : Field4 := w.extractLsb' 8 4

/-- RA, bits [15:12] of a command word (30_encoding R67). -/
def raField (w : Word) : Field4 := w.extractLsb' 12 4

/-- RB, bits [19:16] of a command word (30_encoding R67). -/
def rbField (w : Word) : Field4 := w.extractLsb' 16 4

/-- RSV, bits [31:20] of a command word, which must be 0 (30_encoding R67). -/
def rsvField (w : Word) : BitVec 12 := w.extractLsb' 20 12

/-- One row of the opcode map: its mnemonic, `match` and `mask` (30_encoding R70), and the command it stands for as a
function of the fields RD, RA and RB. -/
structure Row where
  mnemonic : String
  pat : Word
  mask : Word
  build : Field4 → Field4 → Field4 → Instr

/-- The field family's rows of the opcode map (30_encoding R70; 40_field R79 to R82). -/
def fieldRows : List Row :=
  [ ⟨"FADD", 0x00000001, 0xFFF000FF, fun d a b => .fadd d a b⟩,
    ⟨"FSUB", 0x00000002, 0xFFF000FF, fun d a b => .fsub d a b⟩,
    ⟨"FMUL", 0x00000003, 0xFFF000FF, fun d a b => .fmul d a b⟩,
    ⟨"FINV", 0x00000004, 0xFFFF00FF, fun d a _ => .finv d a⟩ ]

/-- The point family's rows of the opcode map (30_encoding R70; 41_point R89 to R100). -/
def pointRows : List Row :=
  [ ⟨"SVAL", 0x00000010, 0xFFFF0FFF, fun _ a _ => .sval a⟩,
    ⟨"PADD", 0x00000011, 0xFFFCCCFF, fun d a b => .padd d a b⟩,
    ⟨"PDBL", 0x00000012, 0xFFFFCCFF, fun d a _ => .pdbl d a⟩,
    ⟨"SMUL", 0x00000013, 0xFFFF0CFF, fun d a _ => .smul d a⟩,
    ⟨"PCOMP", 0x00000014, 0xFFFFCFFF, fun _ a _ => .pcomp a⟩,
    ⟨"PGEN", 0x00000015, 0xFFFFFCFF, fun d _ _ => .pgen d⟩,
    ⟨"PINF", 0x00000016, 0xFFFFFCFF, fun d _ _ => .pinf d⟩,
    ⟨"PSET", 0x00000017, 0xFFF00CFF, fun d a b => .pset d a b⟩,
    ⟨"PGETX", 0x00000018, 0xFFFFC0FF, fun d a _ => .pgetx d a⟩,
    ⟨"PGETY", 0x00000019, 0xFFFFC0FF, fun d a _ => .pgety d a⟩ ]

/-- The hash family's rows of the opcode map (30_encoding R70; 42_hash R117 to R121). -/
def hashRows : List Row :=
  [ ⟨"SHA256", 0x00000020, 0xFFFFFFFF, fun _ _ _ => .sha256⟩,
    ⟨"RMD160", 0x00000021, 0xFFFFFFFF, fun _ _ _ => .rmd160⟩,
    ⟨"HASH160", 0x00000022, 0xFFFFFFFF, fun _ _ _ => .hash160⟩,
    ⟨"SHA256D", 0x00000023, 0xFFFFFFFF, fun _ _ _ => .sha256d⟩,
    ⟨"CKSUM", 0x00000024, 0xFFFFFFFF, fun _ _ _ => .cksum⟩ ]

/-- The base58 family's rows of the opcode map (30_encoding R70; 43_base58 R125 to R128). -/
def base58Rows : List Row :=
  [ ⟨"B58ENC", 0x00000030, 0xFFFFFFFF, fun _ _ _ => .b58enc⟩,
    ⟨"B58CHK", 0x00000031, 0xFFFFFFFF, fun _ _ _ => .b58chk⟩,
    ⟨"WIF", 0x00000032, 0xFFFF0FFF, fun _ a _ => .wif a⟩,
    ⟨"ADDR", 0x00000033, 0xFFFFCFFF, fun _ a _ => .addr a⟩ ]

/-- The transfer family's rows of the opcode map (30_encoding R70; 44_transfer R130, R131). -/
def transferRows : List Row :=
  [ ⟨"LDW", 0x00000040, 0xFFFFF0FF, fun d _ _ => .ldw d⟩,
    ⟨"STW", 0x00000041, 0xFFFF0FFF, fun _ a _ => .stw a⟩ ]

/-- The complete opcode map (30_encoding R70). -/
def opcodeMap : List Row := fieldRows ++ pointRows ++ hashRows ++ base58Rows ++ transferRows

/-- A row matches a word when `(word & mask) == match` (30_encoding R70). -/
def Row.fits (r : Row) (w : Word) : Bool := w &&& r.mask == r.pat

/-- Which of R72's kinds of illegal word a word that no row fits is. -/
def illegalReason (w : Word) : DecodeError :=
  if opcodeMap.all (fun r => opcField r.pat != opcField w) then .opcode
  else if rsvField w != 0 then .reserved
  else .operand

/-- Decode: the first row that matches, built from the word's fields; no row, no command (30_encoding R69, R71). -/
def decode (w : Word) : Except DecodeError Instr :=
  match opcodeMap.find? (fun r => r.fits w) with
  | some r => .ok (r.build (rdField w) (raField w) (rbField w))
  | none => .error (illegalReason w)

/-- `OPC | RD << 8 | RA << 12 | RB << 16` (30_encoding R77); RSV is 0. -/
def assemble (opc : BitVec 8) (rd ra rb : Field4) : Word :=
  opc.setWidth 32 ||| (rd.setWidth 32 <<< 8) ||| (ra.setWidth 32 <<< 12) ||| (rb.setWidth 32 <<< 16)

/-- The command word of a command, its unused fields 0 (30_encoding R67, R68, R70). -/
def encode : Instr → Word
  | .fadd d a b => assemble 0x01 d a b
  | .fsub d a b => assemble 0x02 d a b
  | .fmul d a b => assemble 0x03 d a b
  | .finv d a => assemble 0x04 d a 0
  | .sval a => assemble 0x10 0 a 0
  | .padd d a b => assemble 0x11 d a b
  | .pdbl d a => assemble 0x12 d a 0
  | .smul d a => assemble 0x13 d a 0
  | .pcomp a => assemble 0x14 0 a 0
  | .pgen d => assemble 0x15 d 0 0
  | .pinf d => assemble 0x16 d 0 0
  | .pset d a b => assemble 0x17 d a b
  | .pgetx d a => assemble 0x18 d a 0
  | .pgety d a => assemble 0x19 d a 0
  | .sha256 => assemble 0x20 0 0 0
  | .rmd160 => assemble 0x21 0 0 0
  | .hash160 => assemble 0x22 0 0 0
  | .sha256d => assemble 0x23 0 0 0
  | .cksum => assemble 0x24 0 0 0
  | .b58enc => assemble 0x30 0 0 0
  | .b58chk => assemble 0x31 0 0 0
  | .wif a => assemble 0x32 0 a 0
  | .addr a => assemble 0x33 0 a 0
  | .ldw d => assemble 0x40 d 0 0
  | .stw a => assemble 0x41 0 a 0

/-- What the decoder reads from the `nbits`-bit number `w` as the opcode table numbers its bits: one 32-bit word, bit 0
the least significant bit of the value written to CMD, bus lane order playing no part (30_encoding R67, R73). The bits
above `nbits` are 0; a number of more than 32 bits is no command word. -/
def decodeTableWord (nbits w : Nat) : Option Instr :=
  if nbits ≤ 32 then (decode (BitVec.ofNat 32 (w % 2 ^ nbits))).toOption else none

end Sys2Proof
end

