-- ==== Sys2Proof/Machine/Bytes.lean ====
section
/-! DEFINITION. Byte sequences and the integers they encode (00_scope R10). -/

namespace Sys2Proof.Machine

/-- `LE_k(v)`: the k-byte little-endian encoding of v, the least significant byte first (00_scope R10). -/
def leBytes : (k v : Nat) → List Byte
  | 0, _ => []
  | k + 1, v => BitVec.ofNat 8 v :: leBytes k (v / 256)

/-- `BE_k(v)`: the k-byte big-endian encoding of v, the most significant byte first (00_scope R10). -/
def beBytes (k v : Nat) : List Byte := (leBytes k v).reverse

/-- `LEint(s)`: the integer whose little-endian encoding is s (00_scope R10). -/
def leInt : List Byte → Nat
  | [] => 0
  | b :: bs => b.toNat + 256 * leInt bs

/-- `BEint(s)`: the integer whose big-endian encoding is s; `BEint([]) = 0` (00_scope R10). -/
def beInt (bs : List Byte) : Nat := leInt bs.reverse

/-- The first `n` consecutive pieces of `k` elements each. -/
def chunks {α : Type} (k : Nat) : (n : Nat) → List α → List (List α)
  | 0, _ => []
  | n + 1, l => l.take k :: chunks k n (l.drop k)

end Sys2Proof.Machine
end

