-- ==== Sys2Proof/Machine/Constants.lean ====
section
/-! DEFINITION. The constant store (10_state R20): read-only values no command and no bus access can write. -/

namespace Sys2Proof.Machine

/-- The field prime p = 2^256 - 2^32 - 977 (41_point R84). -/
def primeP : Nat := 0xFFFFFFFFFFFFFFFFFFFFFFFFFFFFFFFFFFFFFFFFFFFFFFFFFFFFFFFEFFFFFC2F

/-- The group order n, the order of G (41_point R84). -/
def orderN : Nat := 0xFFFFFFFFFFFFFFFFFFFFFFFFFFFFFFFEBAAEDCE6AF48A03BBFD25E8CD0364141

/-- The x coordinate of the generator G (41_point R84). -/
def genX : Wide := 0x79BE667EF9DCBBAC55A06295CE870B07029BFCDB2DCE28D959F2815B16F81798

/-- The y coordinate of the generator G (41_point R84). -/
def genY : Wide := 0x483ADA7726A3C4655DA4FBFC0E1108A8FD17B448A68554199C47D08FFB10D4B8

/-- The curve's coefficient a of y^2 = x^3 + a x + b (41_point R84). -/
def curveA : Nat := 0

/-- The curve's coefficient b (41_point R84). -/
def curveB : Nat := 7

/-- The cofactor h: the curve has h n points (41_point R84, R85). No command reads it. -/
def cofactorH : Nat := 1

/-- The ID register: block identifier 0x5EC1, interface revision 1 (10_state R24). -/
def idValue : Word := 0x5EC10001

/-- The WIF version byte, mainnet (00_scope R4, 43_base58 R127). -/
def wifVersion : Byte := 0x80

/-- The compressed-key flag of a WIF payload (00_scope R4, 43_base58 R127). -/
def compressedFlag : Byte := 0x01

/-- The P2PKH address version byte, mainnet (00_scope R4, 43_base58 R128). -/
def addrVersion : Byte := 0x00

/-- Word i of a row of eight 32-bit words held as one number, the row's first word its most significant. -/
def rowWord (row : Wide) (i : Nat) : Word := row.extractLsb' (32 * (7 - i)) 32

/-- The rows of R105's table of SHA-256 round constants: row r holds K[8r] to K[8r+7] (42_hash R105). -/
def shaKRows : List Wide :=
  [ 0x428a2f98_71374491_b5c0fbcf_e9b5dba5_3956c25b_59f111f1_923f82a4_ab1c5ed5,
    0xd807aa98_12835b01_243185be_550c7dc3_72be5d74_80deb1fe_9bdc06a7_c19bf174,
    0xe49b69c1_efbe4786_0fc19dc6_240ca1cc_2de92c6f_4a7484aa_5cb0a9dc_76f988da,
    0x983e5152_a831c66d_b00327c8_bf597fc7_c6e00bf3_d5a79147_06ca6351_14292967,
    0x27b70a85_2e1b2138_4d2c6dfc_53380d13_650a7354_766a0abb_81c2c92e_92722c85,
    0xa2bfe8a1_a81a664b_c24b8b70_c76c51a3_d192e819_d6990624_f40e3585_106aa070,
    0x19a4c116_1e376c08_2748774c_34b0bcb5_391c0cb3_4ed8aa4a_5b9cca4f_682e6ff3,
    0x748f82ee_78a5636f_84c87814_8cc70208_90befffa_a4506ceb_bef9a3f7_c67178f2 ]

/-- The SHA-256 round constant K[t] of step t, 0 to 63 (42_hash R105). -/
def shaK (t : Nat) : Word := rowWord (shaKRows.getD (t / 8) 0) (t % 8)

/-- The SHA-256 initial hash value, H0 to H7 in one row (42_hash R106). -/
def shaInitRow : Wide := 0x6a09e667_bb67ae85_3c6ef372_a54ff53a_510e527f_9b05688c_1f83d9ab_5be0cd19

/-- The RIPEMD-160 additive constants of the left line, one per round of 16 steps (42_hash R110). -/
def rmdKLeft : List Word := [0x00000000, 0x5a827999, 0x6ed9eba1, 0x8f1bbcdc, 0xa953fd4e]

/-- The RIPEMD-160 additive constants of the right line (42_hash R110). -/
def rmdKRight : List Word := [0x50a28be6, 0x5c4dd124, 0x6d703ef3, 0x7a6d76e9, 0x00000000]

/-- The RIPEMD-160 initial chaining value (42_hash R110). -/
def rmdInit : List Word := [0x67452301, 0xefcdab89, 0x98badcfe, 0x10325476, 0xc3d2e1f0]

/-- The RIPEMD-160 message-word selection r of the left line (42_hash R111). -/
def rmdSelLeft : List Nat :=
  [ 0, 1, 2, 3, 4, 5, 6, 7, 8, 9, 10, 11, 12, 13, 14, 15,
    7, 4, 13, 1, 10, 6, 15, 3, 12, 0, 9, 5, 2, 14, 11, 8,
    3, 10, 14, 4, 9, 15, 8, 1, 2, 7, 0, 6, 13, 11, 5, 12,
    1, 9, 11, 10, 0, 8, 12, 4, 13, 3, 7, 15, 14, 5, 6, 2,
    4, 0, 5, 9, 7, 12, 2, 10, 14, 1, 3, 8, 11, 6, 15, 13 ]

/-- The RIPEMD-160 message-word selection r' of the right line (42_hash R111). -/
def rmdSelRight : List Nat :=
  [ 5, 14, 7, 0, 9, 2, 11, 4, 13, 6, 15, 8, 1, 10, 3, 12,
    6, 11, 3, 7, 0, 13, 5, 10, 14, 15, 8, 12, 4, 9, 1, 2,
    15, 5, 1, 3, 7, 14, 6, 9, 11, 8, 12, 2, 10, 0, 4, 13,
    8, 6, 4, 1, 3, 11, 15, 0, 5, 12, 2, 13, 9, 7, 10, 14,
    12, 15, 10, 4, 1, 5, 8, 7, 6, 2, 13, 14, 0, 3, 9, 11 ]

/-- The RIPEMD-160 rotation amounts sl of the left line (42_hash R112). -/
def rmdRotLeft : List Nat :=
  [ 11, 14, 15, 12, 5, 8, 7, 9, 11, 13, 14, 15, 6, 7, 9, 8,
    7, 6, 8, 13, 11, 9, 7, 15, 7, 12, 15, 9, 11, 7, 13, 12,
    11, 13, 6, 7, 14, 9, 13, 15, 14, 8, 13, 6, 5, 12, 7, 5,
    11, 12, 14, 15, 14, 15, 9, 8, 9, 14, 5, 6, 8, 6, 5, 12,
    9, 15, 5, 11, 6, 8, 13, 12, 5, 12, 13, 14, 11, 8, 5, 6 ]

/-- The RIPEMD-160 rotation amounts sr of the right line (42_hash R112). -/
def rmdRotRight : List Nat :=
  [ 8, 9, 9, 11, 13, 15, 15, 5, 7, 7, 8, 11, 14, 14, 12, 6,
    9, 13, 15, 7, 12, 8, 9, 11, 7, 7, 12, 7, 6, 15, 13, 11,
    9, 7, 15, 11, 8, 6, 6, 14, 12, 13, 5, 14, 13, 13, 7, 5,
    15, 5, 8, 11, 14, 14, 6, 14, 6, 9, 12, 9, 12, 5, 15, 8,
    8, 5, 12, 9, 12, 5, 14, 6, 8, 13, 6, 5, 15, 13, 11, 11 ]

/-- The Base58 alphabet in ascending ASCII order: digit value i is the i-th character (43_base58 R122). -/
def alphabet : List Char :=
  [ '1', '2', '3', '4', '5', '6', '7', '8', '9', 'A', 'B', 'C', 'D', 'E', 'F', 'G', 'H', 'J', 'K', 'L',
    'M', 'N', 'P', 'Q', 'R', 'S', 'T', 'U', 'V', 'W', 'X', 'Y', 'Z', 'a', 'b', 'c', 'd', 'e', 'f', 'g',
    'h', 'i', 'j', 'k', 'm', 'n', 'o', 'p', 'q', 'r', 's', 't', 'u', 'v', 'w', 'x', 'y', 'z' ]

end Sys2Proof.Machine
end

