-- ==== Sys2Proof/Machine/Sha.lean ====
section
/-! DEFINITION. SHA-256 (42_hash R103 to R107). Word arithmetic is modulo 2^32. -/

namespace Sys2Proof.Machine

/-- How many zero bytes pad a message of `len` bytes: `(55 - len) mod 64` (42_hash R103, R108). -/
def padZeros (len : Nat) : Nat := ((55 - (len : Int)) % 64).toNat

/-- A padded message: the message, 0x80, zeros, and the 8 bytes that encode its length in bits
(42_hash R103, R108). -/
def padWith (lenBytes : Nat → List Byte) (m : List Byte) : List Byte :=
  m ++ [0x80] ++ List.replicate (padZeros m.length) 0x00 ++ lenBytes (8 * m.length)

/-- The 64-byte blocks of a padded message, each as 16 words read by `word` (42_hash R103, R108). -/
def blocksOf (word : List Byte → Nat) (padded : List Byte) : List (List Word) :=
  (chunks 64 (padded.length / 64) padded).map fun block => (chunks 4 16 block).map fun q => BitVec.ofNat 32 (word q)

/-- ROTR(x, k) (42_hash R104). -/
def rotr (x : Word) (k : Nat) : Word := (x >>> k) ||| (x <<< (32 - k))

/-- Ch(x, y, z) (42_hash R104). -/
def shaCh (x y z : Word) : Word := (x &&& y) ^^^ (~~~x &&& z)

/-- Maj(x, y, z) (42_hash R104). -/
def shaMaj (x y z : Word) : Word := (x &&& y) ^^^ (x &&& z) ^^^ (y &&& z)

/-- Σ0(x) (42_hash R104). -/
def shaBigSigma0 (x : Word) : Word := rotr x 2 ^^^ rotr x 13 ^^^ rotr x 22

/-- Σ1(x) (42_hash R104). -/
def shaBigSigma1 (x : Word) : Word := rotr x 6 ^^^ rotr x 11 ^^^ rotr x 25

/-- σ0(x) (42_hash R104). -/
def shaSigma0 (x : Word) : Word := rotr x 7 ^^^ rotr x 18 ^^^ (x >>> 3)

/-- σ1(x) (42_hash R104). -/
def shaSigma1 (x : Word) : Word := rotr x 17 ^^^ rotr x 19 ^^^ (x >>> 10)

/-- The working variables a to h of SHA-256, or its hash value H[0] to H[7] (42_hash R107). -/
structure ShaState where
  a : Word
  b : Word
  c : Word
  d : Word
  e : Word
  f : Word
  g : Word
  h : Word
deriving DecidableEq, Repr

/-- One word of the message schedule from the words before it: `Wt[t]` for t = i + 16 (42_hash R107). -/
def shaExtend (ws : List Word) (i : Nat) : List Word :=
  ws ++ [shaSigma1 (ws.getD (i + 14) 0) + ws.getD (i + 9) 0 + shaSigma0 (ws.getD (i + 1) 0) + ws.getD i 0]

/-- The message schedule Wt[0..63] of a block of 16 words (42_hash R107). -/
def shaSchedule (m : List Word) : List Word := (List.range 48).foldl shaExtend m

/-- Step t of the compression: T1, T2 and the rotation of the working variables (42_hash R107). -/
def shaRound (ws : List Word) (v : ShaState) (t : Nat) : ShaState :=
  let t1 := v.h + shaBigSigma1 v.e + shaCh v.e v.f v.g + shaK t + ws.getD t 0
  let t2 := shaBigSigma0 v.a + shaMaj v.a v.b v.c
  { a := t1 + t2, b := v.a, c := v.b, d := v.c, e := v.d + t1, f := v.e, g := v.f, h := v.g }

/-- The hash value after one more block (42_hash R107). -/
def shaBlock (hv : ShaState) (m : List Word) : ShaState :=
  let ws := shaSchedule m
  let v := (List.range 64).foldl (shaRound ws) hv
  { a := hv.a + v.a, b := hv.b + v.b, c := hv.c + v.c, d := hv.d + v.d,
    e := hv.e + v.e, f := hv.f + v.f, g := hv.g + v.g, h := hv.h + v.h }

/-- The initial hash value H(0) (42_hash R106). -/
def shaStart : ShaState :=
  let h := rowWord shaInitRow
  { a := h 0, b := h 1, c := h 2, d := h 3, e := h 4, f := h 5, g := h 6, h := h 7 }

/-- `BE_4(H[0]) ∥ ... ∥ BE_4(H[7])` (42_hash R107). -/
def shaOutput (v : ShaState) : List Byte :=
  beBytes 4 v.a.toNat ++ beBytes 4 v.b.toNat ++ beBytes 4 v.c.toNat ++ beBytes 4 v.d.toNat ++
    beBytes 4 v.e.toNat ++ beBytes 4 v.f.toNat ++ beBytes 4 v.g.toNat ++ beBytes 4 v.h.toNat

/-- `sha256(m)`, 32 bytes (42_hash R107). -/
def sha256 (m : List Byte) : List Byte :=
  shaOutput ((blocksOf beInt (padWith (beBytes 8) m)).foldl shaBlock shaStart)

/-- `sha256d(m) = sha256(sha256(m))`, 32 bytes (42_hash R115). -/
def sha256d (m : List Byte) : List Byte := sha256 (sha256 m)

/-- `checksum(m) = sha256d(m)[0 .. 4)` (42_hash R116). -/
def checksum (m : List Byte) : List Byte := (sha256d m).take 4

end Sys2Proof.Machine
end

