-- ==== Sys2Proof/Machine/Codec.lean ====
section
/-! DEFINITION. The Base58 alphabet codec and Base58Check (43_base58 R122 to R124). -/

namespace Sys2Proof.Machine

/-- `ALPHA[i]` as its ASCII byte (43_base58 R122). -/
def alphaByte (i : Nat) : Byte := BitVec.ofNat 8 (alphabet.getD i '1').toNat

/-- The base-58 digits of `v`, the least significant first, none for 0; at most `fuel` of them (43_base58 R123;
log 11). -/
def digits58 : (fuel v : Nat) → List Nat
  | 0, _ => []
  | fuel + 1, v => if v = 0 then [] else v % 58 :: digits58 fuel (v / 58)

/-- How many 0x00 bytes a byte sequence begins with (43_base58 R123). -/
def leadingZeros (data : List Byte) : Nat := (data.takeWhile (fun b => b == 0)).length

/-- `base58(data)`: a '1' for each leading zero byte, then the base-58 digits of the big-endian integer, the most
significant first (43_base58 R123). Two digits a byte are enough, since 256 < 58^2. -/
def base58 (data : List Byte) : List Byte :=
  List.replicate (leadingZeros data) (alphaByte 0) ++
    ((digits58 (2 * data.length) (beInt data)).map alphaByte).reverse

/-- `base58check(payload) = base58(payload ∥ checksum(payload))` (43_base58 R124). -/
def base58check (payload : List Byte) : List Byte := base58 (payload ++ checksum payload)

end Sys2Proof.Machine
end

