-- ==== Sys2Proof/Machine/Arith.lean ====
section
/-! DEFINITION. The modular field unit: exact integers, narrowed by one `mod p` (40_field R78 to R83). -/

namespace Sys2Proof.Machine

/-- `z mod p`: the mathematical remainder in [0, p), for a negative z too (00_scope R9, 40_field R78). -/
def modP (z : Int) : Nat := (z % (primeP : Int)).toNat

/-- `b^e mod p` by squaring, for an exponent of at most `k` bits. -/
def powModP : (k b e : Nat) → Nat
  | 0, _, _ => 1
  | k + 1, b, e =>
    let h := powModP k (b * b % primeP) (e / 2)
    if e % 2 = 1 then b * h % primeP else h

/-- `FINV(z)` as a function on integers: `(z mod p)^(p-2) mod p`, the inverse of z modulo p where z mod p is not 0
(40_field R82; 00_scope R12). -/
def invModP (z : Int) : Nat := powModP 256 (modP z) (primeP - 2)

/-- `(a + b) mod p` (40_field R79). -/
def fieldAdd (a b : Wide) : Wide := BitVec.ofNat 256 (modP ((a.toNat : Int) + b.toNat))

/-- `(a - b) mod p` (40_field R80). -/
def fieldSub (a b : Wide) : Wide := BitVec.ofNat 256 (modP ((a.toNat : Int) - b.toNat))

/-- `(a * b) mod p`, the product exact (40_field R81). -/
def fieldMul (a b : Wide) : Wide := BitVec.ofNat 256 (modP ((a.toNat : Int) * b.toNat))

/-- The inverse of `a` modulo p, for `a mod p` not 0 (40_field R82). -/
def fieldInv (a : Wide) : Wide := BitVec.ofNat 256 (invModP a.toNat)

end Sys2Proof.Machine
end

