-- ==== Sys2Proof/Config.lean ====
section
/-! DEFINITION. What an implementation or a platform fixes (00_scope R7), and the free values.

The sizes R7 gives are definitions with a body. Everything the spec leaves OPEN, and the one value it leaves
unspecified, is an `opaque` constant with no body: no proof can see what it is. -/

namespace Sys2Proof.Config

/-- NUM_W, the number of field registers (00_scope R7). -/
abbrev numW : Nat := 16

/-- NUM_P, the number of point registers (00_scope R7). -/
abbrev numP : Nat := 4

/-- LMEM_SIZE in bytes; the addresses are 0 to 1023 (00_scope R7, 20_memory R48). -/
abbrev lmemSize : Nat := 1024

/-- The size of the register aperture in bytes (00_scope R7). -/
abbrev apertureSize : Nat := 4096

/-- OPEN parameter `latency`: how many host transactions lie between a command's acceptance and its completion,
a function of the opcode, SRC_LEN and the output length only (10_state R40, 70_reset_and_hazards R170, R171;
log 2 and log 3). -/
opaque latency : (opcode srcLen outLen : Nat) → Nat

/-- FREE VALUE: what the n-th unspecified read returns, cut to the access width: an LMEM window read or a RES_LEN
read while BUSY = 1 (10_state R42; 93_implementation_defined I1; log 4). -/
opaque busyRead : Nat → Word

/-- OPEN parameter `kdb_base` as a page number: the aperture's base is 4096 times this (20_memory R59; log 5). -/
opaque kdbPage : Nat

/-- OPEN parameter `kdb_rst`, polarity: the level of the hardware reset input that asserts it, `true` for high
(70_reset_and_hazards R157; 93_implementation_defined I6; log 7). -/
opaque kdbRstActive : Bool

/-- OPEN parameter `kdb_rst`, synchronisation: how many of the transactions sent after a pulse of the reset input the
block still serves before the pulse takes effect (70_reset_and_hazards R157; 93_implementation_defined I6; log 7). -/
opaque kdbRstSync : Nat

/-- OPEN parameter `kdb_irq`: the host interrupt input the IRQ line drives (60_exceptions R146; log 6). -/
opaque kdbIrq : Nat

end Sys2Proof.Config
end

