-- ==== Sys2Proof/Machine/State.lean ====
section
/-! DEFINITION. The state of the block as plain data, the events it is given and the responses it gives, why a command
can fail, and the state after reset (10_state R16 to R45, 70_reset_and_hazards R157). -/

namespace Sys2Proof.Machine

/-- A point register `{x, y, inf}`: `inf` says that it holds the point at infinity O, else it holds the affine point
(x, y) (10_state R18). -/
structure Point where
  x : Wide
  y : Wide
  inf : Bool
deriving DecidableEq, Repr

/-- LMEM as the list of its non-zero bytes by address; its canonical form is `Memory.wf` (20_memory R48). -/
abbrev Memory := List Host.Cell

/-- The width of a host bus access (20_memory R49). -/
inductive Width where
  | w8
  | w16
  | w32
deriving DecidableEq, Repr

/-- The data of a host bus access, with its width (20_memory R49). -/
inductive BusData where
  | b8 (v : BitVec 8)
  | b16 (v : BitVec 16)
  | b32 (v : BitVec 32)
deriving DecidableEq, Repr

/-- What the world outside does to the block: a host transaction at an offset of the aperture (20_memory R49), or one
pulse of the hardware reset input to a level and back, as the block sees it after synchronisation. A pulse to the
input's active level, `Config.kdbRstActive`, is one assertion and release of it (70_reset_and_hazards R157; log 7). -/
inductive HostEvent where
  | read (off : Offset) (w : Width)
  | write (off : Offset) (d : BusData)
  | hwReset (level : Bool)
deriving DecidableEq, Repr

/-- The block's response to one transaction: `OK` to a write, `OK` with data to a read, or `BUSERR` (20_memory R49). -/
inductive Response where
  | ok
  | data (d : BusData)
  | busErr
deriving DecidableEq, Repr

/-- The command errors (60_exceptions R133). They are outcomes of a command, reported in STATUS, and no stop of the
machine. -/
inductive CmdError where
  /-- E_ILLEGAL: the command word matches no row of the opcode map (60_exceptions R134). -/
  | illegal
  /-- E_SCALAR: the scalar is 0 or at least n (60_exceptions R135). -/
  | scalar
  /-- E_NOINV: inverse of a residue 0 (60_exceptions R136). -/
  | noInv
  /-- E_INFINITY: an affine output was asked of O (60_exceptions R137). -/
  | infinity
  /-- E_RANGE: a byte range leaves LMEM (60_exceptions R138). -/
  | range
  /-- E_LEN: a Base58 command with SRC_LEN = 0 (60_exceptions R139). -/
  | len
deriving DecidableEq, Repr

/-- What a command has staged when it reaches its `commit`: the writes that land together at completion
(00_scope R11, 10_state R40). A field that is `none` is not written. -/
structure Staged where
  /-- A write of a W register. -/
  w : Option (Field4 × Wide) := none
  /-- A write of a P register. -/
  p : Option (Field4 × Point) := none
  /-- A write of consecutive LMEM bytes from an address on. -/
  mem : Option (Nat × List Byte) := none
  /-- A write of RES_LEN. -/
  resLen : Option Word := none
  /-- A write of STATUS.INF. -/
  inf : Option Bool := none
deriving DecidableEq, Repr

/-- How a command's pseudocode ends: `raise E_X`, or `commit` of what it staged (00_scope R11). -/
abbrev Result := Except CmdError Staged

/-- Why the model would stop with a fault. The block itself never stops (10_state R40): a command error and a bus error
are next states. -/
inductive Fault where
  /-- Raised by `State.finish` when a command commits LMEM bytes at an address that does not exist (20_memory R48).
  SAFE: the model stops where it has no byte to write. No command reaches it, since each checks its range first and
  raises E_RANGE (log 18). -/
  | outsideLmem
deriving DecidableEq, Repr

/-- Why the model would refuse a command. -/
inductive Refusal where
  /-- Raised by an arm of `exec` whose command has no meaning yet. SAFE: the model stops. No arm raises it. -/
  | notModelled (mnemonic : String)
deriving DecidableEq, Repr

/-- The state of the block (10_state R45), with the model's own fields `inputs`, `responses` and `draws`.
STATUS.BUSY is the valid bit of `pending` (log 8). -/
structure State where
  /-- Field registers W0 to W15 (10_state R17). -/
  w : Vector Wide 16
  /-- Point registers P0 to P3 (10_state R18). -/
  p : Vector Point 4
  /-- The local byte memory (20_memory R48). -/
  lmem : Memory
  /-- The pending command, valid while BUSY = 1 (10_state R39, R43). -/
  pending : Option Word
  /-- The engine's progress: host transactions still to be served before the pending command completes
  (10_state R40, R43; log 2). -/
  remaining : Nat
  /-- CMD, the last accepted command word (10_state R25). -/
  cmd : Word
  /-- STATUS.DONE (10_state R28). -/
  done : Bool
  /-- STATUS.ERR (10_state R29). -/
  err : Bool
  /-- STATUS.INF (10_state R30). -/
  inf : Bool
  /-- STATUS.OVR (10_state R31). -/
  ovr : Bool
  /-- STATUS.ERRCODE (10_state R29). -/
  errCode : BitVec 8
  /-- IE.DONE_IE (10_state R34). -/
  doneIe : Bool
  /-- SRC_ADDR (10_state R35). -/
  srcAddr : Word
  /-- SRC_LEN (10_state R36). -/
  srcLen : Word
  /-- DST_ADDR (10_state R37). -/
  dstAddr : Word
  /-- RES_LEN (10_state R38). -/
  resLen : Word
  /-- MODEL'S OWN: events the block has not served yet, oldest first (20_memory R61; log 1). -/
  inputs : List HostEvent
  /-- MODEL'S OWN: the responses given, newest first (20_memory R49; log 1). -/
  responses : List Response
  /-- MODEL'S OWN: how many unspecified reads have been drawn; the next one returns `Config.busyRead draws`
  (10_state R42; log 4). -/
  draws : Nat
deriving DecidableEq, Repr

/-- The point at infinity as a register holds it: x = 0, y = 0, inf = 1 (10_state R19, R45). -/
def Point.infinity : Point := { x := 0, y := 0, inf := true }

/-- The state after reset: every value of R45's table, with no event waiting and no response given
(10_state R45, 70_reset_and_hazards R157; log 1, log 2, log 4). -/
def State.reset : State where
  w := Vector.replicate 16 0
  p := Vector.replicate 4 Point.infinity
  lmem := []
  pending := none
  remaining := 0
  cmd := 0
  done := false
  err := false
  inf := false
  ovr := false
  errCode := 0
  doneIe := false
  srcAddr := 0
  srcLen := 0
  dstAddr := 0
  resLen := 0
  inputs := []
  responses := []
  draws := 0

end Sys2Proof.Machine
end

