-- ==== Sys2Proof/Machine/Curve.lean ====
section
/-! DEFINITION. The point unit: affine addition and doubling, multiplication of G by a scalar, compression
(41_point R84 to R94). -/

namespace Sys2Proof.Machine

/-- The generator G as a register holds it (41_point R84, R96). -/
def generator : Point := { x := genX, y := genY, inf := false }

/-- The affine point of coordinates `x mod p`, `y mod p`. -/
def affine (x y : Int) : Point := { x := BitVec.ofNat 256 (modP x), y := BitVec.ofNat 256 (modP y), inf := false }

/-- The third point of the line of slope `lam` through (x1, y1) and a point of abscissa x2, reflected:
`x3 = lam^2 - x1 - x2`, `y3 = lam (x1 - x3) - y1`, both mod p (41_point R86, R87). -/
def thirdPoint (lam x1 y1 x2 : Int) : Point :=
  let x3 : Int := modP (lam * lam - x1 - x2)
  affine x3 (lam * (x1 - x3) - y1)

/-- Point doubling `pdbl(Q)`; O where Q is O or has y = 0 (41_point R87). -/
def pointDouble (q : Point) : Point :=
  if q.inf then Point.infinity
  else if q.y = 0 then Point.infinity
  else
    let x : Int := q.x.toNat
    let y : Int := q.y.toNat
    let lam : Int := modP (3 * x * x * invModP (2 * y))
    thirdPoint lam x y x

/-- Point addition `padd(P1, P2)`: the identity cases, equal abscissas, and the chord (41_point R86). -/
def pointAdd (p1 p2 : Point) : Point :=
  if p1.inf then p2
  else if p2.inf then p1
  else if p1.x = p2.x then
    if p1.y = p2.y ∧ p1.y ≠ 0 then pointDouble p1 else Point.infinity
  else
    let x1 : Int := p1.x.toNat
    let y1 : Int := p1.y.toNat
    let x2 : Int := p2.x.toNat
    let y2 : Int := p2.y.toNat
    let lam : Int := modP ((y2 - y1) * invModP (x2 - x1))
    thirdPoint lam x1 y1 x2

/-- The double-and-add loop over the bits `i-1` down to 0 of `k`, from the running point `q` (41_point R92). -/
def scalarMulFrom : (i k : Nat) → Point → Point
  | 0, _, q => q
  | i + 1, k, q =>
    let d := pointDouble q
    scalarMulFrom i k (if k.testBit i then pointAdd d generator else d)

/-- `smul(k)`: k·G by double-and-add over all 256 bits, the most significant first (41_point R92). -/
def scalarMul (k : Nat) : Point := scalarMulFrom 256 k Point.infinity

/-- `compress(Q)`: the parity prefix 0x02 or 0x03, then `BE_32(x)` (41_point R94). -/
def compress (q : Point) : List Byte := BitVec.ofNat 8 (2 + q.y.toNat % 2) :: beBytes 32 q.x.toNat

end Sys2Proof.Machine
end

