-- ==== Sys2Proof/Machine/Flags.lean ====
section
/-! DEFINITION. STATUS, its fields and the interrupt line (10_state R26 to R32, R44; 60_exceptions R133). -/

namespace Sys2Proof.Machine

/-- The code an error reports in STATUS.ERRCODE (60_exceptions R133). -/
def CmdError.code : CmdError → BitVec 8
  | .illegal => 0x01
  | .scalar => 0x02
  | .noInv => 0x03
  | .infinity => 0x04
  | .range => 0x05
  | .len => 0x06

/-- STATUS.BUSY: a command is accepted and not complete (10_state R26, R27). -/
def State.busy (s : State) : Bool := s.pending.isSome

/-- A flag as a bit of a 32-bit register. -/
def flagBit (b : Bool) (i : Nat) : Word := if b then (1 : Word) <<< i else 0

/-- STATUS as the host reads it: BUSY, DONE, ERR, INF, OVR in bits 0 to 4, ERRCODE in bits [15:8], the reserved bits 0
(10_state R26). -/
def State.statusWord (s : State) : Word :=
  flagBit s.busy 0 ||| flagBit s.done 1 ||| flagBit s.err 2 ||| flagBit s.inf 3 ||| flagBit s.ovr 4 |||
    (s.errCode.setWidth 32 <<< 8)

/-- IE as the host reads it: DONE_IE in bit 0, the reserved bits 0 (10_state R34). -/
def State.ieWord (s : State) : Word := flagBit s.doneIe 0

/-- The level-sensitive interrupt line `IRQ = DONE ∧ DONE_IE` (10_state R44, 60_exceptions R146). -/
def State.irq (s : State) : Bool := s.done && s.doneIe

end Sys2Proof.Machine
end

