-- ==== Sys2Proof/Machine/Ops.lean ====
section
/-! DEFINITION. The named operations over LMEM and the registers, the completion of a command, taking a command error
and acknowledging it, accepting a command, reset (10_state R39 to R41; 20_memory R48; 60_exceptions R132, R144, R145;
70_reset_and_hazards R157 to R159). -/

namespace Sys2Proof.Machine

/-! ### LMEM -/

/-- The byte at address `a`; an address that is not listed reads 0x00, LMEM's value at reset (10_state R45). -/
def Memory.read : Memory → Nat → Byte
  | [], _ => 0
  | (k, v) :: m, a => if k = a then v else Memory.read m a

/-- LMEM with the byte at `a` set to `b` in a list with rising addresses; a byte 0x00 is not listed. -/
def Memory.put : Memory → Nat → Byte → Memory
  | [], a, b => if b = 0 then [] else [(a, b)]
  | (k, v) :: m, a, b =>
    if a < k then (if b = 0 then (k, v) :: m else (a, b) :: (k, v) :: m)
    else if a = k then (if b = 0 then m else (a, b) :: m)
    else (k, v) :: Memory.put m a b

/-- LMEM with the byte at `a` set to `b`. No byte exists outside 0 to 1023, so nothing is stored there
(20_memory R48). -/
def Memory.write (m : Memory) (a : Nat) (b : Byte) : Memory := if a < Config.lmemSize then m.put a b else m

/-- The `n` bytes from address `a` on: `MemRead(a, n)` (00_scope R11). -/
def Memory.readBytes (m : Memory) : (a n : Nat) → List Byte
  | _, 0 => []
  | a, n + 1 => m.read a :: Memory.readBytes m (a + 1) n

/-- LMEM after the bytes `bs` are stored from address `a` on: `MemWrite(a, n, bs)` (00_scope R11). -/
def Memory.writeBytes : Memory → Nat → List Byte → Memory
  | m, _, [] => m
  | m, a, b :: bs => Memory.writeBytes (m.write a b) (a + 1) bs

/-- The canonical form of LMEM: the addresses rise strictly and lie below 1024, and no listed byte is 0x00. -/
def Memory.wf : Memory → Bool
  | [] => true
  | (k, v) :: m => k < Config.lmemSize && v != 0 && m.all (fun c => k < c.1) && Memory.wf m

/-! ### Registers -/

/-- `W[r]` (00_scope R11, 10_state R17). -/
def State.readW (s : State) (r : Field4) : Wide := s.w[r.toNat]'r.isLt

/-- The W file with `W[r]` set to `v` (10_state R17). -/
def setW (w : Vector Wide 16) (r : Field4) (v : Wide) : Vector Wide 16 := w.set r.toNat v r.isLt

/-- `P[r]` for a legal field r, 0 to 3 (00_scope R11, 10_state R18). A field of 4 or more names no register and is
refused as illegal before it is read. -/
def State.readP (s : State) (r : Field4) : Point := (s.p[r.toNat]?).getD Point.infinity

/-- The P file with `P[r]` set to `q`, for a legal field r (10_state R18). -/
def setP (p : Vector Point 4) (r : Field4) (q : Point) : Vector Point 4 := p.setIfInBounds r.toNat q

/-! ### Completion of a command (10_state R40) -/

/-- The staged LMEM bytes lie inside LMEM (20_memory R48). -/
def Staged.inLmem (st : Staged) : Bool :=
  match st.mem with
  | some (a, bs) => a + bs.length ≤ Config.lmemSize
  | none => true

/-- `commit`: every staged write lands in the one completion step, with BUSY <- 0, DONE <- 1, ERR <- 0, ERRCODE <- 0x00
(00_scope R11, 10_state R40). -/
def State.commit (s : State) (st : Staged) : State :=
  { s with
    w := match st.w with
      | some (r, v) => setW s.w r v
      | none => s.w
    p := match st.p with
      | some (r, q) => setP s.p r q
      | none => s.p
    lmem := match st.mem with
      | some (a, bs) => s.lmem.writeBytes a bs
      | none => s.lmem
    resLen := st.resLen.getD s.resLen
    inf := st.inf.getD s.inf
    pending := none
    remaining := 0
    done := true
    err := false
    errCode := 0 }

/-- TAKING A COMMAND ERROR: the command ends with BUSY <- 0, DONE <- 1, ERR <- 1 and the error's code in ERRCODE;
nothing else changes (10_state R40, 60_exceptions R132, R144). -/
def State.raiseError (s : State) (e : CmdError) : State :=
  { s with pending := none, remaining := 0, done := true, err := true, errCode := e.code }

/-- THE RETURN FROM A COMMAND ERROR: the host's acknowledgment, a write of `v` to STATUS. The W1C bits are applied
together: bit 1 clears DONE, bit 2 clears ERR and ERRCODE, bit 4 clears OVR; the other bits are ignored
(10_state R32, 60_exceptions R145). -/
def State.writeStatus (s : State) (v : Word) : State :=
  { s with
    done := s.done && !v.getLsbD 1
    err := s.err && !v.getLsbD 2
    errCode := if v.getLsbD 2 then 0 else s.errCode
    ovr := s.ovr && !v.getLsbD 4 }

/-- The completion of a command whose pseudocode ended with `r`: its error is taken, or its staged writes are committed
(10_state R40). A commit outside LMEM would be a fault; every command checks its range first. -/
def State.finish (s : State) (r : Result) : Host.Outcome State Fault Refusal :=
  match r with
  | .error e => .next (s.raiseError e)
  | .ok st => if st.inLmem then .next (s.commit st) else .fault .outsideLmem

/-! ### Acceptance and reset -/

/-- Acceptance of the command word `v`, with `n` host transactions to be served before its completion: CMD <- v,
BUSY <- 1, DONE <- 0, ERR <- 0, ERRCODE <- 0x00, pending <- v (10_state R39). -/
def State.accept (s : State) (v : Word) (n : Nat) : State :=
  { s with cmd := v, pending := some v, remaining := n, done := false, err := false, errCode := 0 }

/-- A write that is dropped because BUSY = 1: the target keeps its value and OVR <- 1 (10_state R41). -/
def State.dropWrite (s : State) : State := { s with ovr := true }

/-- A reset, by CTRL.SRST or by the reset input: every piece of the block's state takes its reset value, a pending
command is discarded (70_reset_and_hazards R157 to R159). What lies outside the block stays: the events not served
yet, the responses given, the draws of the free value (log 9). -/
def State.resetBlock (s : State) : State :=
  { State.reset with inputs := s.inputs, responses := s.responses, draws := s.draws }

/-- The block's response to the transaction in service, added to those given. -/
def State.respond (s : State) (r : Response) : State := { s with responses := r :: s.responses }

end Sys2Proof.Machine
end

