-- ==== Sys2Proof/Machine/Operands.lean ====
section
/-! DEFINITION. The operand forms of the commands and the checks they carry (30_encoding R68, R69;
60_exceptions R134 to R139). -/

namespace Sys2Proof.Machine

/-- A check of a command's pseudocode: `if not c: raise e`. -/
def require (c : Bool) (e : CmdError) : Except CmdError Unit := if c then .ok () else .error e

/-- A P-kind field must be 0 to 3, else the word is illegal (30_encoding R68, R72). The decoder lets no other through;
the check stands here too, so that a command term of any field value has its meaning (log 10). -/
def checkPointField (r : Field4) : Except CmdError Unit := require (pointFieldOk r) .illegal

/-- The scalar in `W[a]`: E_SCALAR if it is 0 or at least n (60_exceptions R135). -/
def State.scalarOperand (s : State) (a : Field4) : Except CmdError Nat :=
  let k := (s.readW a).toNat
  if k = 0 ∨ orderN ≤ k then .error .scalar else .ok k

/-- The affine point in `P[a]`: E_INFINITY if it is O (60_exceptions R137). -/
def State.affineOperand (s : State) (a : Field4) : Except CmdError Point :=
  if (s.readP a).inf then .error .infinity else .ok (s.readP a)

/-- The source range of `len` bytes at SRC_ADDR: E_RANGE if it is not inside LMEM, the sum unbounded
(60_exceptions R138). -/
def State.sourceOperand (s : State) (len : Nat) : Except CmdError (List Byte) :=
  if s.srcAddr.toNat + len > Config.lmemSize then .error .range else .ok (s.lmem.readBytes s.srcAddr.toNat len)

/-- The output of a command that writes LMEM: E_RANGE if the destination range is not inside LMEM, else the bytes are
staged at DST_ADDR and RES_LEN takes their number (60_exceptions R138, 10_state R38). -/
def State.output (s : State) (out : List Byte) : Result :=
  if s.dstAddr.toNat + out.length > Config.lmemSize then .error .range
  else .ok { mem := some (s.dstAddr.toNat, out), resLen := some (BitVec.ofNat 32 out.length) }

end Sys2Proof.Machine
end

