-- ==== Sys2Proof/Machine/Ripemd.lean ====
section
/-! DEFINITION. RIPEMD-160 and Hash160 (42_hash R108 to R114). Word arithmetic is modulo 2^32. -/

namespace Sys2Proof.Machine

/-- The round function f(s, x, y, z) of step s (42_hash R109). -/
def rmdF (s : Nat) (x y z : Word) : Word :=
  if s ≤ 15 then x ^^^ y ^^^ z
  else if s ≤ 31 then (x &&& y) ||| (~~~x &&& z)
  else if s ≤ 47 then (x ||| ~~~y) ^^^ z
  else if s ≤ 63 then (x &&& z) ||| (y &&& ~~~z)
  else x ^^^ (y ||| ~~~z)

/-- rol(x, k) (42_hash R109). -/
def rol (x : Word) (k : Nat) : Word := (x <<< k) ||| (x >>> (32 - k))

/-- The variables A to E of one line of RIPEMD-160, or its chaining value h0 to h4 (42_hash R113). -/
structure RmdState where
  a : Word
  b : Word
  c : Word
  d : Word
  e : Word
deriving DecidableEq, Repr

/-- One step of a line, given its round function's value `fv`, message word, additive constant and rotation amount
(42_hash R113). -/
def rmdStep (v : RmdState) (fv x k : Word) (rot : Nat) : RmdState :=
  { a := v.e, b := rol (v.a + fv + x + k) rot + v.e, c := v.b, d := rol v.c 10, e := v.d }

/-- Step s of the left line (42_hash R113). -/
def rmdLeft (xs : List Word) (v : RmdState) (s : Nat) : RmdState :=
  rmdStep v (rmdF s v.b v.c v.d) (xs.getD (rmdSelLeft.getD s 0) 0) (rmdKLeft.getD (s / 16) 0) (rmdRotLeft.getD s 0)

/-- Step s of the right line, whose round functions run in reverse order (42_hash R113). -/
def rmdRight (xs : List Word) (v : RmdState) (s : Nat) : RmdState :=
  rmdStep v (rmdF (79 - s) v.b v.c v.d) (xs.getD (rmdSelRight.getD s 0) 0) (rmdKRight.getD (s / 16) 0)
    (rmdRotRight.getD s 0)

/-- The chaining value after one more block (42_hash R113). -/
def rmdBlock (hv : RmdState) (xs : List Word) : RmdState :=
  let l := (List.range 80).foldl (rmdLeft xs) hv
  let r := (List.range 80).foldl (rmdRight xs) hv
  { a := hv.b + l.c + r.d, b := hv.c + l.d + r.e, c := hv.d + l.e + r.a, d := hv.e + l.a + r.b, e := hv.a + l.b + r.c }

/-- The initial chaining value (42_hash R110). -/
def rmdStart : RmdState :=
  { a := rmdInit.getD 0 0, b := rmdInit.getD 1 0, c := rmdInit.getD 2 0, d := rmdInit.getD 3 0, e := rmdInit.getD 4 0 }

/-- `LE_4(h0) ∥ ... ∥ LE_4(h4)` (42_hash R113). -/
def rmdOutput (v : RmdState) : List Byte :=
  leBytes 4 v.a.toNat ++ leBytes 4 v.b.toNat ++ leBytes 4 v.c.toNat ++ leBytes 4 v.d.toNat ++ leBytes 4 v.e.toNat

/-- `ripemd160(m)`, 20 bytes (42_hash R113). -/
def ripemd160 (m : List Byte) : List Byte :=
  rmdOutput ((blocksOf leInt (padWith (leBytes 8) m)).foldl rmdBlock rmdStart)

/-- `hash160(m) = ripemd160(sha256(m))`, 20 bytes (42_hash R114). -/
def hash160 (m : List Byte) : List Byte := ripemd160 (sha256 m)

end Sys2Proof.Machine
end

