-- ==== Sys2Proof/Machine/Base58.lean ====
section
/-! DEFINITION. The Base58 family: B58ENC, B58CHK, WIF, ADDR (43_base58). -/

namespace Sys2Proof.Machine

/-- The output of B58ENC and B58CHK, which there is none of where the source range check fails or the source is empty
(43_base58 R125, R126; 60_exceptions R138, R139). -/
def base58Output (enc : List Byte → List Byte) (s : State) : Except CmdError (List Byte) := do
  let data ← s.sourceOperand s.srcLen.toNat
  require (s.srcLen.toNat != 0) .len
  pure (enc data)

/-- The shape of B58ENC and B58CHK: the source range check, E_LEN on an empty source, then the encoded bytes to
DST_ADDR (43_base58 R125, R126). -/
def base58Command (enc : List Byte → List Byte) (s : State) : Result := do
  let out ← base58Output enc s
  s.output out

/-- `B58ENC` (43_base58 R125). -/
def execB58enc (s : State) : Host.Outcome State Fault Refusal := s.finish (base58Command base58 s)

/-- `B58CHK` (43_base58 R126). -/
def execB58chk (s : State) : Host.Outcome State Fault Refusal := s.finish (base58Command base58check s)

/-- `payload = [0x80] ∥ BE_32(k) ∥ [0x01]`, 34 bytes (43_base58 R127). -/
def wifPayload (k : Nat) : List Byte := wifVersion :: beBytes 32 k ++ [compressedFlag]

/-- WIF's pseudocode: E_SCALAR, then the Base58Check of the payload to DST_ADDR (43_base58 R127). -/
def wifResult (a : Field4) (s : State) : Result := do
  let k ← s.scalarOperand a
  s.output (base58check (wifPayload k))

/-- `WIF wa` (43_base58 R127). -/
def execWif (a : Field4) (s : State) : Host.Outcome State Fault Refusal := s.finish (wifResult a s)

/-- `payload = [0x00] ∥ hash160(compress(Q))`, 21 bytes (43_base58 R128). -/
def addrPayload (q : Point) : List Byte := addrVersion :: hash160 (compress q)

/-- The output of ADDR, which there is none of where the point is O (43_base58 R128; 60_exceptions R137). -/
def addrOutput (a : Field4) (s : State) : Except CmdError (List Byte) := do
  checkPointField a
  let q ← s.affineOperand a
  pure (base58check (addrPayload q))

/-- ADDR's pseudocode: E_INFINITY, then the Base58Check of the payload to DST_ADDR (43_base58 R128). -/
def addrResult (a : Field4) (s : State) : Result := do
  let out ← addrOutput a s
  s.output out

/-- `ADDR pa` (43_base58 R128). -/
def execAddr (a : Field4) (s : State) : Host.Outcome State Fault Refusal := s.finish (addrResult a s)

end Sys2Proof.Machine
end

