-- ==== Sys2Proof/Machine/Field.lean ====
section
/-! DEFINITION. The field family: FADD, FSUB, FMUL, FINV (40_field). -/

namespace Sys2Proof.Machine

/-- `FADD wd, wa, wb`: `W[d] <- (W[a] + W[b]) mod p` (40_field R79). -/
def execFadd (d a b : Field4) (s : State) : Host.Outcome State Fault Refusal :=
  s.finish (.ok { w := some (d, fieldAdd (s.readW a) (s.readW b)) })

/-- `FSUB wd, wa, wb`: `W[d] <- (W[a] - W[b]) mod p` (40_field R80). -/
def execFsub (d a b : Field4) (s : State) : Host.Outcome State Fault Refusal :=
  s.finish (.ok { w := some (d, fieldSub (s.readW a) (s.readW b)) })

/-- `FMUL wd, wa, wb`: `W[d] <- (W[a] * W[b]) mod p` (40_field R81). -/
def execFmul (d a b : Field4) (s : State) : Host.Outcome State Fault Refusal :=
  s.finish (.ok { w := some (d, fieldMul (s.readW a) (s.readW b)) })

/-- FINV's pseudocode: E_NOINV where `W[a] mod p = 0`, else the inverse (40_field R82). -/
def finvResult (d a : Field4) (s : State) : Result := do
  require (modP (s.readW a).toNat != 0) .noInv
  return { w := some (d, fieldInv (s.readW a)) }

/-- `FINV wd, wa` (40_field R82). -/
def execFinv (d a : Field4) (s : State) : Host.Outcome State Fault Refusal := s.finish (finvResult d a s)

end Sys2Proof.Machine
end

