-- ==== Sys2Proof/Machine/Hash.lean ====
section
/-! DEFINITION. The hash family: SHA256, RMD160, HASH160, SHA256D, CKSUM (42_hash). -/

namespace Sys2Proof.Machine

/-- `hashcmd(fn, L)`: the digest of the SRC_LEN bytes at SRC_ADDR to DST_ADDR, L being the digest's length
(42_hash R102). -/
def hashCommand (fn : List Byte → List Byte) (s : State) : Result := do
  let m ← s.sourceOperand s.srcLen.toNat
  s.output (fn m)

/-- `SHA256` (42_hash R117). -/
def execSha256 (s : State) : Host.Outcome State Fault Refusal := s.finish (hashCommand sha256 s)

/-- `RMD160` (42_hash R118). -/
def execRmd160 (s : State) : Host.Outcome State Fault Refusal := s.finish (hashCommand ripemd160 s)

/-- `HASH160` (42_hash R119). -/
def execHash160 (s : State) : Host.Outcome State Fault Refusal := s.finish (hashCommand hash160 s)

/-- `SHA256D` (42_hash R120). -/
def execSha256d (s : State) : Host.Outcome State Fault Refusal := s.finish (hashCommand sha256d s)

/-- `CKSUM` (42_hash R121). -/
def execCksum (s : State) : Host.Outcome State Fault Refusal := s.finish (hashCommand checksum s)

end Sys2Proof.Machine
end

