-- ==== Sys2Proof/Machine/Point.lean ====
section
/-! DEFINITION. The point family: SVAL, PADD, PDBL, SMUL, PCOMP, PGEN, PINF, PSET, PGETX, PGETY (41_point). -/

namespace Sys2Proof.Machine

/-- SVAL's pseudocode: E_SCALAR, or nothing but STATUS changes (41_point R89). -/
def svalResult (a : Field4) (s : State) : Result := do
  let _ ← s.scalarOperand a
  return {}

/-- `SVAL wa` (41_point R89). -/
def execSval (a : Field4) (s : State) : Host.Outcome State Fault Refusal := s.finish (svalResult a s)

/-- The staged writes of a command whose result is the point `q` in `P[d]`: INF takes its `inf` bit (10_state R30). -/
def stagePoint (d : Field4) (q : Point) : Staged := { p := some (d, q), inf := some q.inf }

/-- PADD's pseudocode (41_point R90). -/
def paddResult (d a b : Field4) (s : State) : Result := do
  checkPointField d
  checkPointField a
  checkPointField b
  return stagePoint d (pointAdd (s.readP a) (s.readP b))

/-- `PADD pd, pa, pb` (41_point R90). -/
def execPadd (d a b : Field4) (s : State) : Host.Outcome State Fault Refusal := s.finish (paddResult d a b s)

/-- PDBL's pseudocode (41_point R91). -/
def pdblResult (d a : Field4) (s : State) : Result := do
  checkPointField d
  checkPointField a
  return stagePoint d (pointDouble (s.readP a))

/-- `PDBL pd, pa` (41_point R91). -/
def execPdbl (d a : Field4) (s : State) : Host.Outcome State Fault Refusal := s.finish (pdblResult d a s)

/-- SMUL's pseudocode: E_SCALAR, or k·G with INF <- 0 (41_point R93; log 13). -/
def smulResult (d a : Field4) (s : State) : Result := do
  checkPointField d
  let k ← s.scalarOperand a
  return { p := some (d, scalarMul k), inf := some false }

/-- `SMUL pd, wa` (41_point R93). -/
def execSmul (d a : Field4) (s : State) : Host.Outcome State Fault Refusal := s.finish (smulResult d a s)

/-- PCOMP's pseudocode: E_INFINITY, then the 33 bytes of the compressed point to DST_ADDR (41_point R95). -/
def pcompResult (a : Field4) (s : State) : Result := do
  checkPointField a
  let q ← s.affineOperand a
  s.output (compress q)

/-- `PCOMP pa` (41_point R95). -/
def execPcomp (a : Field4) (s : State) : Host.Outcome State Fault Refusal := s.finish (pcompResult a s)

/-- PGEN's pseudocode: `P[d] <- G`, INF <- 0 (41_point R96). -/
def pgenResult (d : Field4) : Result := do
  checkPointField d
  return stagePoint d generator

/-- `PGEN pd` (41_point R96). -/
def execPgen (d : Field4) (s : State) : Host.Outcome State Fault Refusal := s.finish (pgenResult d)

/-- PINF's pseudocode: `P[d] <- O`, INF <- 1 (41_point R97). -/
def pinfResult (d : Field4) : Result := do
  checkPointField d
  return stagePoint d Point.infinity

/-- `PINF pd` (41_point R97). -/
def execPinf (d : Field4) (s : State) : Host.Outcome State Fault Refusal := s.finish (pinfResult d)

/-- PSET's pseudocode: `P[d] <- (W[a] mod p, W[b] mod p)`, INF <- 0, no curve check (41_point R98). -/
def psetResult (d a b : Field4) (s : State) : Result := do
  checkPointField d
  return stagePoint d (affine (s.readW a).toNat (s.readW b).toNat)

/-- `PSET pd, wa, wb` (41_point R98). -/
def execPset (d a b : Field4) (s : State) : Host.Outcome State Fault Refusal := s.finish (psetResult d a b s)

/-- PGETX's pseudocode: E_INFINITY, or `W[d] <- P[a].x` (41_point R99). -/
def pgetxResult (d a : Field4) (s : State) : Result := do
  checkPointField a
  let q ← s.affineOperand a
  return { w := some (d, q.x) }

/-- `PGETX wd, pa` (41_point R99). -/
def execPgetx (d a : Field4) (s : State) : Host.Outcome State Fault Refusal := s.finish (pgetxResult d a s)

/-- PGETY's pseudocode: E_INFINITY, or `W[d] <- P[a].y` (41_point R100). -/
def pgetyResult (d a : Field4) (s : State) : Result := do
  checkPointField a
  let q ← s.affineOperand a
  return { w := some (d, q.y) }

/-- `PGETY wd, pa` (41_point R100). -/
def execPgety (d a : Field4) (s : State) : Host.Outcome State Fault Refusal := s.finish (pgetyResult d a s)

end Sys2Proof.Machine
end

