-- ==== Sys2Proof/Machine/Transfer.lean ====
section
/-! DEFINITION. The transfer family: LDW, STW (44_transfer). -/

namespace Sys2Proof.Machine

/-- LDW's pseudocode: `W[d] <- BEint(MemRead(SRC_ADDR, 32))`; SRC_LEN is ignored (44_transfer R130). -/
def ldwResult (d : Field4) (s : State) : Result := do
  let m ← s.sourceOperand 32
  return { w := some (d, BitVec.ofNat 256 (beInt m)) }

/-- `LDW wd` (44_transfer R130). -/
def execLdw (d : Field4) (s : State) : Host.Outcome State Fault Refusal := s.finish (ldwResult d s)

/-- `STW wa`: `MemWrite(DST_ADDR, 32, BE_32(W[a]))` (44_transfer R131). -/
def execStw (a : Field4) (s : State) : Host.Outcome State Fault Refusal :=
  s.finish (s.output (beBytes 32 (s.readW a).toNat))

end Sys2Proof.Machine
end

