-- ==== Sys2Proof/Machine/Dispatch.lean ====
section
/-! DEFINITION. The meaning of every command: one arm per constructor (30_encoding R70). -/

namespace Sys2Proof.Machine

def exec (i : Instr) (s : State) : Host.Outcome State Fault Refusal :=
  match i with
  | .fadd d a b => Sys2Proof.Machine.execFadd d a b s
  | .fsub d a b => Sys2Proof.Machine.execFsub d a b s
  | .fmul d a b => Sys2Proof.Machine.execFmul d a b s
  | .finv d a => Sys2Proof.Machine.execFinv d a s
  | .sval a => Sys2Proof.Machine.execSval a s
  | .padd d a b => Sys2Proof.Machine.execPadd d a b s
  | .pdbl d a => Sys2Proof.Machine.execPdbl d a s
  | .smul d a => Sys2Proof.Machine.execSmul d a s
  | .pcomp a => Sys2Proof.Machine.execPcomp a s
  | .pgen d => Sys2Proof.Machine.execPgen d s
  | .pinf d => Sys2Proof.Machine.execPinf d s
  | .pset d a b => Sys2Proof.Machine.execPset d a b s
  | .pgetx d a => Sys2Proof.Machine.execPgetx d a s
  | .pgety d a => Sys2Proof.Machine.execPgety d a s
  | .sha256 => Sys2Proof.Machine.execSha256 s
  | .rmd160 => Sys2Proof.Machine.execRmd160 s
  | .hash160 => Sys2Proof.Machine.execHash160 s
  | .sha256d => Sys2Proof.Machine.execSha256d s
  | .cksum => Sys2Proof.Machine.execCksum s
  | .b58enc => Sys2Proof.Machine.execB58enc s
  | .b58chk => Sys2Proof.Machine.execB58chk s
  | .wif a => Sys2Proof.Machine.execWif a s
  | .addr a => Sys2Proof.Machine.execAddr a s
  | .ldw d => Sys2Proof.Machine.execLdw d s
  | .stw a => Sys2Proof.Machine.execStw a s

end Sys2Proof.Machine
end

