-- ==== Sys2Proof/Machine/Engine.lean ====
section
/-! DEFINITION. The engine: the completion of the pending command, and the arguments of its latency
(10_state R40; 30_encoding R71; 70_reset_and_hazards R170, R171). -/

namespace Sys2Proof.Machine

/-- The completion step of the accepted word `v`: decode before anything else, then the command's meaning; an illegal
word ends with E_ILLEGAL (10_state R40, 30_encoding R71, R72, 60_exceptions R134). -/
def State.complete (s : State) (v : Word) : Host.Outcome State Fault Refusal :=
  match decode v with
  | .ok i => exec i s
  | .error _ => s.finish (.error .illegal)

/-- The length of an output, and 0 where the command ends with an error before there is one: DESIGN CHOICE, the spec
states no length there (log 3). -/
def lengthOrZero (out : Except CmdError (List Byte)) : Nat :=
  match out with
  | .ok bs => bs.length
  | .error _ => 0

/-- The length of what a hash or Base58 command outputs from the operands in `s`; with SRC_LEN it is all that R171 lets
the latency depend on, beside the opcode. DESIGN CHOICE (log 3), where the spec states no output length: it is 0 for
the commands of the other families, and 0 where B58ENC, B58CHK or ADDR ends with an error before there is an output:
E_RANGE on the source, E_LEN for SRC_LEN = 0, E_INFINITY. A hash command and WIF count their fixed length even where
they end with an error. -/
def outputLength (i : Instr) (s : State) : Nat :=
  match i with
  | .fadd _ _ _ | .fsub _ _ _ | .fmul _ _ _ | .finv _ _ => 0
  | .sval _ | .padd _ _ _ | .pdbl _ _ | .smul _ _ | .pcomp _ => 0
  | .pgen _ | .pinf _ | .pset _ _ _ | .pgetx _ _ | .pgety _ _ => 0
  | .sha256 | .sha256d => 32
  | .rmd160 | .hash160 => 20
  | .cksum => 4
  | .b58enc => lengthOrZero (base58Output base58 s)
  | .b58chk => lengthOrZero (base58Output base58check s)
  | .wif _ => 52
  | .addr a => lengthOrZero (addrOutput a s)
  | .ldw _ | .stw _ => 0

/-- SRC_LEN for the hash and Base58 families, and 0 for every other command (70_reset_and_hazards R171). -/
def latencySrcLen (i : Instr) (s : State) : Nat :=
  match i with
  | .fadd _ _ _ | .fsub _ _ _ | .fmul _ _ _ | .finv _ _ => 0
  | .sval _ | .padd _ _ _ | .pdbl _ _ | .smul _ _ | .pcomp _ => 0
  | .pgen _ | .pinf _ | .pset _ _ _ | .pgetx _ _ | .pgety _ _ => 0
  | .sha256 | .rmd160 | .hash160 | .sha256d | .cksum => s.srcLen.toNat
  | .b58enc | .b58chk | .wif _ | .addr _ => s.srcLen.toNat
  | .ldw _ | .stw _ => 0

/-- How many host transactions are served between the acceptance of the word `v` in `s` and its completion
(70_reset_and_hazards R170, R171). -/
def State.latencyOf (s : State) (v : Word) : Nat :=
  match decode v with
  | .ok i => Config.latency (opcField v).toNat (latencySrcLen i s) (outputLength i s)
  | .error _ => Config.latency (opcField v).toNat 0 0

end Sys2Proof.Machine
end

