-- ==== Sys2Proof/Machine/Bus.lean ====
section
/-! DEFINITION. Host bus transactions: the register map, the LMEM window, and what each access does
(10_state R22 to R42; 20_memory R49 to R58; 70_reset_and_hazards R157, R158). -/

namespace Sys2Proof.Machine

/-- What stands at a control-region offset (10_state R22). -/
inductive CtlReg where
  | id
  | cmd
  | status
  | ctrl
  | ie
  | srcAddr
  | srcLen
  | dstAddr
  | resLen
  | reserved
deriving DecidableEq, Repr

/-- The register map; every other control-region offset is reserved (10_state R22). -/
def ctlReg (off : Offset) : CtlReg :=
  if off = 0x000 then .id
  else if off = 0x004 then .cmd
  else if off = 0x008 then .status
  else if off = 0x00C then .ctrl
  else if off = 0x010 then .ie
  else if off = 0x014 then .srcAddr
  else if off = 0x018 then .srcLen
  else if off = 0x01C then .dstAddr
  else if off = 0x020 then .resLen
  else .reserved

/-- The offset lies in the LMEM window 0x400 to 0x7FF (20_memory R51). -/
def inWindow (off : Offset) : Bool := 0x400 ≤ off.toNat && off.toNat < 0x800

/-- The LMEM address of a window offset: byte a sits at offset 0x400 + a (20_memory R51). -/
def windowAddr (off : Offset) : Nat := off.toNat - 0x400

/-- The number of bytes of an access. -/
def Width.bytes : Width → Nat
  | .w8 => 1
  | .w16 => 2
  | .w32 => 4

/-- The width of an access's data. -/
def BusData.width : BusData → Width
  | .b8 _ => .w8
  | .b16 _ => .w16
  | .b32 _ => .w32

/-- The data of an access as an integer. -/
def BusData.toNat : BusData → Nat
  | .b8 v => v.toNat
  | .b16 v => v.toNat
  | .b32 v => v.toNat

/-- Data of the given width from an integer, cut to the width. -/
def BusData.ofNat : Width → Nat → BusData
  | .w8, n => .b8 (BitVec.ofNat 8 n)
  | .w16, n => .b16 (BitVec.ofNat 16 n)
  | .w32, n => .b32 (BitVec.ofNat 32 n)

/-- Which accesses are legal: naturally aligned ones in the LMEM window, aligned 32-bit ones in the control region
(20_memory R50, R51). -/
def legalAccess (off : Offset) (w : Width) : Bool :=
  if inWindow off then off.toNat % w.bytes == 0 else w == .w32 && off.toNat % 4 == 0

/-- A window read: the bytes from address `a` on in little-endian lanes (20_memory R53). -/
def windowRead (m : Memory) (a : Nat) (w : Width) : BusData := BusData.ofNat w (leInt (m.readBytes a w.bytes))

/-- A window write: lane i of the data goes to address a + i (20_memory R53). -/
def windowWrite (m : Memory) (a : Nat) (d : BusData) : Memory := m.writeBytes a (leBytes d.width.bytes d.toNat)

/-- The value of a control register as a 32-bit read returns it: CTRL and the reserved offsets read 0
(10_state R22 to R38). -/
def State.readReg (s : State) : CtlReg → Word
  | .id => idValue
  | .cmd => s.cmd
  | .status => s.statusWord
  | .ctrl => 0
  | .ie => s.ieWord
  | .srcAddr => s.srcAddr
  | .srcLen => s.srcLen
  | .dstAddr => s.dstAddr
  | .resLen => s.resLen
  | .reserved => 0

/-- The reads that return an unspecified value while BUSY = 1: the LMEM window and RES_LEN (10_state R42). -/
def unspecifiedWhenBusy (off : Offset) : Bool := inWindow off || ctlReg off == .resLen

/-- The data a legal read returns when it is specified (10_state R42, 20_memory R50, R51). -/
def State.readValue (s : State) (off : Offset) (w : Width) : BusData :=
  if inWindow off then windowRead s.lmem (windowAddr off) w else .b32 (s.readReg (ctlReg off))

/-- A host read: BUSERR if it is not legal; an unspecified value, drawn afresh, where R42 says so; else the value held.
No read has a side effect on the block (10_state R42, 20_memory R52, R58; log 4). -/
def State.busRead (s : State) (off : Offset) (w : Width) : State :=
  if legalAccess off w then
    if s.busy && unspecifiedWhenBusy off then
      { s with draws := s.draws + 1 }.respond (.data (BusData.ofNat w (Config.busyRead s.draws).toNat))
    else s.respond (.data (s.readValue off w))
  else s.respond .busErr

/-- The effect of a legal write of `v` to a control register (10_state R25, R32 to R38, R41;
70_reset_and_hazards R158). -/
def State.writeReg (s : State) (v : Word) : CtlReg → State
  | .id => s
  | .cmd => if s.busy then s.dropWrite else s.accept v (s.latencyOf v)
  | .status => s.writeStatus v
  | .ctrl => if v.getLsbD 0 then s.resetBlock else s
  | .ie => { s with doneIe := v.getLsbD 0 }
  | .srcAddr => if s.busy then s.dropWrite else { s with srcAddr := v }
  | .srcLen => if s.busy then s.dropWrite else { s with srcLen := v }
  | .dstAddr => if s.busy then s.dropWrite else { s with dstAddr := v }
  | .resLen => s
  | .reserved => s

/-- The effect of a legal write: to the LMEM window, dropped while BUSY = 1, or to a control register
(10_state R41, 20_memory R50, R51). -/
def State.writeEffect (s : State) (off : Offset) (d : BusData) : State :=
  if inWindow off then
    if s.busy then s.dropWrite else { s with lmem := windowWrite s.lmem (windowAddr off) d }
  else s.writeReg (BitVec.ofNat 32 d.toNat) (ctlReg off)

/-- A host write: BUSERR and no change if it is not legal, else its effect and `OK`; a dropped write and a soft reset get
`OK` too (20_memory R52, 70_reset_and_hazards R158). -/
def State.busWrite (s : State) (off : Offset) (d : BusData) : State :=
  if legalAccess off d.width then (s.writeEffect off d).respond .ok else s.respond .busErr

/-- A pulse of the reset input to `level`: to the active level it asserts and releases the input and leaves the reset
state; to the other level it is no assertion (70_reset_and_hazards R157; log 7). -/
def State.resetInput (s : State) (level : Bool) : State := if level = Config.kdbRstActive then s.resetBlock else s

/-- What serving one event does: a transaction takes full effect before the next (20_memory R61); a pulse of the reset
input acts by its level (70_reset_and_hazards R157). -/
def State.serve (s : State) : HostEvent → State
  | .read off w => s.busRead off w
  | .write off d => s.busWrite off d
  | .hwReset level => s.resetInput level

/-- One move of the block (10_state R40, 20_memory R61; log 1, log 2). While a command is pending, its completion when
no more host transaction is due before it or none is waiting, else the next event; while none is pending, the next
event; with nothing to do, the block is idle (60_exceptions R154). -/
def State.move (s : State) : Host.Outcome State Fault Refusal :=
  match s.pending, s.remaining, s.inputs with
  | some v, 0, _ => s.complete v
  | some v, _ + 1, [] => s.complete v
  | some _, n + 1, e :: es => .next ({ s with remaining := n, inputs := es }.serve e)
  | none, _, e :: es => .next ({ s with inputs := es }.serve e)
  | none, _, [] => .next s

end Sys2Proof.Machine
end

