-- ==== Sys2Proof/Machine/Step.lean ====
section
/-! DEFINITION. One step of the block, and how a given command word is placed for the next step (10_state R39, R40). -/

namespace Sys2Proof.Machine

/-- One step: a completion or a served event, `State.move`. -/
def step (s : State) : Host.Outcome State Fault Refusal := s.move

/-- `s` with the `nbits`-bit command word `w` accepted and due: what an accepted CMD write leaves, with no host
transaction to be served before the completion, so that the next step completes this command (10_state R39; log 1). -/
def State.withFetchWord (s : State) (nbits w : Nat) : State := s.accept (BitVec.ofNat 32 (w % 2 ^ nbits)) 0

end Sys2Proof.Machine
end

