-- ==== Sys2Proof/Machine/HostProgram.lean ====
section
/-! DEFINITION. The host's side of the block: where the platform places the aperture and the interrupt line, the host
pseudo-instructions, and the assembler's spelling of a command (20_memory R59; 30_encoding R74, R75;
60_exceptions R146; 70_reset_and_hazards R172). -/

namespace Sys2Proof.Machine

/-- KDB_BASE, a multiple of 4096 chosen by the platform (20_memory R59; log 5). -/
def kdbBase : Nat := Config.apertureSize * Config.kdbPage

/-- The aperture offset of a platform address, if the address lies in the aperture (20_memory R49, R59). -/
def apertureOffset (addr : Nat) : Option Offset :=
  if kdbBase ≤ addr ∧ addr < kdbBase + Config.apertureSize then some (BitVec.ofNat 12 (addr - kdbBase)) else none

/-- The level the block drives on interrupt input `n` of the host (60_exceptions R146; log 6). -/
def State.hostInterrupt (s : State) (n : Nat) : Bool := n == Config.kdbIrq && s.irq

/-- The event is a host transaction, not a pulse of the reset input (20_memory R49). -/
def HostEvent.isTransaction : HostEvent → Bool
  | .read _ _ => true
  | .write _ _ => true
  | .hwReset _ => false

/-- The pulse `e` of the reset input behind `d` of the transactions of a stream, or behind all of them where they are
fewer, and before the next pulse of the input (log 7). -/
def delayReset : (d : Nat) → HostEvent → List HostEvent → List HostEvent
  | 0, e, es => e :: es
  | _ + 1, e, [] => [e]
  | d + 1, e, x :: es => if x.isTransaction then x :: delayReset d e es else e :: x :: es

/-- The platform's stream as it takes effect at the block, where every pulse of the reset input is synchronised by `d`
transactions. The transactions keep their order (70_reset_and_hazards R157, 20_memory R61; log 7). -/
def synchronised (d : Nat) : List HostEvent → List HostEvent
  | [] => []
  | e :: es => if e.isTransaction then e :: synchronised d es else delayReset d e (synchronised d es)

/-- The events are sent to the block after those it has not served yet (20_memory R61; log 7). -/
def State.send (s : State) (es : List HostEvent) : State :=
  { s with inputs := s.inputs ++ synchronised Config.kdbRstSync es }

/-- `WR32 off, v` (30_encoding R75). -/
def wr32 (off : Offset) (v : Word) : HostEvent := .write off (.b32 v)

/-- `WR8 off, v` (30_encoding R75). -/
def wr8 (off : Offset) (v : Byte) : HostEvent := .write off (.b8 v)

/-- `RD32 off` (30_encoding R75); the host variable takes the response's data. -/
def rd32 (off : Offset) : HostEvent := .read off .w32

/-- `CFG s, l, t` (30_encoding R75). -/
def cfg (src len dst : Word) : List HostEvent := [wr32 0x014 src, wr32 0x018 len, wr32 0x01C dst]

/-- `LOADB a, [b0, ..., bk-1]` (30_encoding R75). -/
def loadB : (a : Nat) → List Byte → List HostEvent
  | _, [] => []
  | a, b :: bs => wr8 (BitVec.ofNat 12 (0x400 + a)) b :: loadB (a + 1) bs

/-- `ISSUE <command>` (30_encoding R75). -/
def issue (i : Instr) : HostEvent := wr32 0x004 (encode i)

/-- One round of `WAIT`: the host reads STATUS, and reads it again while the answer's bit 0 is 1 (30_encoding R75). -/
def waitRead : HostEvent := rd32 0x008

/-- `WAIT` goes on after this response: BUSY was 1 (30_encoding R75). -/
def waitAgain : Response → Bool
  | .data d => d.toNat % 2 == 1
  | .ok => false
  | .busErr => false

/-- `CHECK` fails the host program on this answer to a read of STATUS: ERR was 1 (30_encoding R75). -/
def checkFails : Response → Bool
  | .data d => d.toNat.testBit 2
  | .ok => false
  | .busErr => false

/-- A host program has ended: all it sent is served and BUSY reads 0 (70_reset_and_hazards R172). -/
def State.ended (s : State) : Bool := s.inputs.isEmpty && !s.busy

/-- A field register's name `w0` to `w15` (30_encoding R74). -/
def wName (r : Field4) : String := "w" ++ toString r.toNat

/-- A point register's name `p0` to `p3` (30_encoding R74). -/
def pName (r : Field4) : String := "p" ++ toString r.toNat

/-- The assembler's spelling of a command: the mnemonic, then the operands in the order RD, RA, RB, unused fields left
out (30_encoding R74). -/
def spelling : Instr → String
  | .fadd d a b => "FADD " ++ wName d ++ ", " ++ wName a ++ ", " ++ wName b
  | .fsub d a b => "FSUB " ++ wName d ++ ", " ++ wName a ++ ", " ++ wName b
  | .fmul d a b => "FMUL " ++ wName d ++ ", " ++ wName a ++ ", " ++ wName b
  | .finv d a => "FINV " ++ wName d ++ ", " ++ wName a
  | .sval a => "SVAL " ++ wName a
  | .padd d a b => "PADD " ++ pName d ++ ", " ++ pName a ++ ", " ++ pName b
  | .pdbl d a => "PDBL " ++ pName d ++ ", " ++ pName a
  | .smul d a => "SMUL " ++ pName d ++ ", " ++ wName a
  | .pcomp a => "PCOMP " ++ pName a
  | .pgen d => "PGEN " ++ pName d
  | .pinf d => "PINF " ++ pName d
  | .pset d a b => "PSET " ++ pName d ++ ", " ++ wName a ++ ", " ++ wName b
  | .pgetx d a => "PGETX " ++ wName d ++ ", " ++ pName a
  | .pgety d a => "PGETY " ++ wName d ++ ", " ++ pName a
  | .sha256 => "SHA256"
  | .rmd160 => "RMD160"
  | .hash160 => "HASH160"
  | .sha256d => "SHA256D"
  | .cksum => "CKSUM"
  | .b58enc => "B58ENC"
  | .b58chk => "B58CHK"
  | .wif a => "WIF " ++ wName a
  | .addr a => "ADDR " ++ pName a
  | .ldw d => "LDW " ++ wName d
  | .stw a => "STW " ++ wName a

end Sys2Proof.Machine
end

