-- ==== Sys2Proof/Safety.lean ====
section
/-! DEFINITION. What counts as a sound state and a well-behaved host, in the terms the statements use
(10_state R19, R25 to R29, R38, R45; 60_exceptions R133, R156). -/

namespace Sys2Proof.Machine

/-- The point-register invariant: O is held as x = 0, y = 0; an affine point has both coordinates below p
(10_state R19). -/
def Point.canonical (q : Point) : Bool :=
  if q.inf then q.x == 0 && q.y == 0 else q.x.toNat < primeP && q.y.toNat < primeP

/-- The parts of STATUS fit together: while a command is pending, CMD holds its word and DONE, ERR and ERRCODE are
clear (10_state R25, R39); ERRCODE is 0x00 exactly where ERR is 0, and is never a reserved code (10_state R29,
60_exceptions R133); with no command pending, no progress is left over (log 2). -/
def State.statusSound (s : State) : Bool :=
  (match s.pending with
    | some v => s.cmd == v && !s.done && !s.err
    | none => s.remaining == 0) &&
  (if s.err then 0x01 ≤ s.errCode.toNat && s.errCode.toNat ≤ 0x06 else s.errCode == 0)

/-- The invariant every step keeps: LMEM in canonical form, canonical point registers, sound STATUS, and RES_LEN no
longer than LMEM (20_memory R48; 10_state R19, R38). -/
structure State.Sound (s : State) : Prop where
  lmem : s.lmem.wf = true
  points : ∀ (r : Nat) (h : r < 4), (s.p[r]'h).canonical = true
  status : s.statusSound = true
  resLen : s.resLen.toNat ≤ Config.lmemSize

/-- The event is a write of CMD, SRC_ADDR, SRC_LEN, DST_ADDR or LMEM, which BUSY = 1 makes the block drop
(10_state R41). -/
def HostEvent.operandWrite : HostEvent → Bool
  | .read _ _ => false
  | .write off d =>
    legalAccess off d.width &&
      (inWindow off || ctlReg off == .cmd || ctlReg off == .srcAddr || ctlReg off == .srcLen || ctlReg off == .dstAddr)
  | .hwReset _ => false

/-- The event resets the block: a write of CTRL with bit 0 = 1, or a pulse of the reset input to its active
level (70_reset_and_hazards R157, R158). -/
def HostEvent.resets : HostEvent → Bool
  | .read _ _ => false
  | .write off d => legalAccess off d.width && !inWindow off && ctlReg off == .ctrl && d.toNat.testBit 0
  | .hwReset level => level == Config.kdbRstActive

/-- The completion of the pending command is the block's next move (10_state R40; log 2). -/
def State.due (s : State) : Prop := s.remaining = 0 ∨ s.inputs = []

/-! ### What a completed command leaves as it was -/

/-- The registers of the host's side, and what lies outside the block, are as they were: no command writes them
(10_state R31, R35 to R37, R46; 60_exceptions R140). -/
def SameHostSide (s t : State) : Prop :=
  t.cmd = s.cmd ∧ t.ovr = s.ovr ∧ t.doneIe = s.doneIe ∧ t.srcAddr = s.srcAddr ∧ t.srcLen = s.srcLen ∧
    t.dstAddr = s.dstAddr ∧ t.inputs = s.inputs ∧ t.responses = s.responses ∧ t.draws = s.draws

/-- `t` is `s` after a successful completion, as far as STATUS (but INF) and the host's side tell: BUSY = 0, DONE = 1,
ERR = 0, ERRCODE = 0x00 (10_state R40). -/
def Succeeds (s t : State) : Prop :=
  t.pending = none ∧ t.remaining = 0 ∧ t.done = true ∧ t.err = false ∧ t.errCode = 0 ∧ SameHostSide s t

/-- `s` after a command error of this code: exactly the state before it, but BUSY = 0, DONE = 1, ERR = 1 and ERRCODE
(60_exceptions R144). -/
def failed (s : State) (code : BitVec 8) : State :=
  { s with pending := none, remaining := 0, done := true, err := true, errCode := code }

/-- Every W register is as it was but `W[d]`, which holds `v`. -/
def WritesW (s t : State) (d : Field4) (v : Wide) : Prop := ∀ r, t.readW r = if r = d then v else s.readW r

/-- Every W register is as it was. -/
def KeepsW (s t : State) : Prop := ∀ r, t.readW r = s.readW r

/-- Every P register is as it was but `P[d]`, which holds `q`. -/
def WritesP (s t : State) (d : Field4) (q : Point) : Prop :=
  ∀ r : Field4, r.toNat < 4 → t.readP r = if r = d then q else s.readP r

/-- Every P register is as it was. -/
def KeepsP (s t : State) : Prop := ∀ r : Field4, r.toNat < 4 → t.readP r = s.readP r

/-- The bytes `bs` stand at address `a` on, and every byte of LMEM outside them is as it was. -/
def StoresAt (s t : State) (a : Nat) (bs : List Byte) : Prop :=
  (∀ (i : Nat) (h : i < bs.length), t.lmem.read (a + i) = bs[i]) ∧
    ∀ x, (x < a ∨ a + bs.length ≤ x) → t.lmem.read x = s.lmem.read x

/-- Every byte of LMEM is as it was. -/
def KeepsMem (s t : State) : Prop := ∀ x, t.lmem.read x = s.lmem.read x

/-- `t` is `s` after a successful command that writes `W[d] <- v` and nothing else but STATUS. -/
def SucceedsWithW (s t : State) (d : Field4) (v : Wide) : Prop :=
  Succeeds s t ∧ WritesW s t d v ∧ KeepsP s t ∧ KeepsMem s t ∧ t.resLen = s.resLen ∧ t.inf = s.inf

/-- `t` is `s` after a successful command that writes `P[d] <- q` and INF, and nothing else but STATUS. -/
def SucceedsWithP (s t : State) (d : Field4) (q : Point) (inf : Bool) : Prop :=
  Succeeds s t ∧ KeepsW s t ∧ WritesP s t d q ∧ KeepsMem s t ∧ t.resLen = s.resLen ∧ t.inf = inf

/-- `t` is `s` after a successful command that stores `bs` at DST_ADDR and their number in RES_LEN, and writes nothing
else but STATUS. -/
def SucceedsWithOutput (s t : State) (bs : List Byte) : Prop :=
  Succeeds s t ∧ KeepsW s t ∧ KeepsP s t ∧ StoresAt s t s.dstAddr.toNat bs ∧ t.resLen.toNat = bs.length ∧
    t.inf = s.inf

/-! ### The curve (41_point R85) -/

/-- A canonical point record that is O or satisfies y^2 = x^3 + a x + b modulo p, for the curve's a = 0 and b = 7
(41_point R84, R85, R88). -/
def Point.onCurve (q : Point) : Prop :=
  q.canonical = true ∧
    (q.inf = true ∨ (q.y.toNat ^ 2) % primeP = (q.x.toNat ^ 3 + curveA * q.x.toNat + curveB) % primeP)

/-- `-Q`: `(x, (p - y) mod p)` for an affine point, and `-O = O` (00_scope R12). -/
def Point.neg (q : Point) : Point :=
  if q.inf then q else { q with y := BitVec.ofNat 256 ((primeP - q.y.toNat) % primeP) }

/-- `k·G` as the k-fold sum G + ... + G, with 0·G = O (00_scope R12). -/
def kFoldGenerator : Nat → Point
  | 0 => Point.infinity
  | k + 1 => pointAdd (kFoldGenerator k) generator

/-! ### Base58 read back (43_base58 R129) -/

/-- A standard Base58 decode: a 0x00 byte for each leading '1', then the bytes of the integer the digits write, the most
significant first. -/
def base58Decode (cs : List Byte) : List Byte :=
  let ones := (cs.takeWhile (fun c => c == alphaByte 0)).length
  let v := cs.foldl (fun acc c => 58 * acc + ((List.range 58).map alphaByte).idxOf c) 0
  List.replicate ones 0x00 ++ ((Nat.digits 256 v).map (fun d => BitVec.ofNat 8 d)).reverse

/-- A word is a legal command word (30_encoding R70, R71). -/
def legalWord (v : Word) : Bool := (decode v).isOk

end Sys2Proof.Machine
end

