-- ==== Sys2Proof/Certificates/Slice0/Obligations.lean ====
section
/-! DEFINITION. The statements for the provers, from the numbered rules of the spec. -/

open Sys2Proof Sys2Proof.Machine

/-! ### The command word -/

/-- Decoding the word of a well-formed command gives the command back (30_encoding R67, R70, R71, R77). -/
def Obligations.DecodeEncodeRoundTrip : Prop := ∀ i : Instr, i.wellFormed = true → decode (encode i) = .ok i

/-- A legal word is the word of the well-formed command it decodes to: no bit of it is dropped (30_encoding R67, R70). -/
def Obligations.EncodeDecodeRoundTrip : Prop :=
  ∀ (v : Word) (i : Instr), decode v = .ok i → i.wellFormed = true ∧ encode i = v

/-- The illegal words are exactly R72's: an unassigned opcode, RSV not 0, an unused field not 0, or a P-kind field of 4
or more (30_encoding R68, R70, R72). -/
def Obligations.IllegalWordsByField : Prop :=
  ∀ v : Word, (∃ e, decode v = .error e) ↔
    (opcField v ∉ ([0x01, 0x02, 0x03, 0x04, 0x10, 0x11, 0x12, 0x13, 0x14, 0x15, 0x16, 0x17, 0x18, 0x19, 0x20, 0x21, 0x22,
        0x23, 0x24, 0x30, 0x31, 0x32, 0x33, 0x40, 0x41] : List (BitVec 8)) ∨
      rsvField v ≠ 0 ∨
      (opcField v ∈ ([0x10, 0x14, 0x20, 0x21, 0x22, 0x23, 0x24, 0x30, 0x31, 0x32, 0x33, 0x41] : List (BitVec 8)) ∧
        rdField v ≠ 0) ∨
      (opcField v ∈ ([0x15, 0x16, 0x20, 0x21, 0x22, 0x23, 0x24, 0x30, 0x31, 0x40] : List (BitVec 8)) ∧
        raField v ≠ 0) ∨
      (opcField v ∈ ([0x04, 0x10, 0x12, 0x13, 0x14, 0x15, 0x16, 0x18, 0x19, 0x20, 0x21, 0x22, 0x23, 0x24, 0x30, 0x31,
        0x32, 0x33, 0x40, 0x41] : List (BitVec 8)) ∧ rbField v ≠ 0) ∨
      (opcField v ∈ ([0x11, 0x12, 0x13, 0x15, 0x16, 0x17] : List (BitVec 8)) ∧ 4 ≤ (rdField v).toNat) ∨
      (opcField v ∈ ([0x11, 0x12, 0x14, 0x18, 0x19, 0x33] : List (BitVec 8)) ∧ 4 ≤ (raField v).toNat) ∨
      (opcField v = 0x11 ∧ 4 ≤ (rbField v).toNat))

/-- No word fits two rows of the opcode map (30_encoding R71). -/
def Obligations.NoWordFitsTwoRows : Prop :=
  ∀ v : Word, opcodeMap.Pairwise fun r r' => ¬ (r.fits v = true ∧ r'.fits v = true)

/-- R77's examples: these words decode to the commands they stand for, and its illegal words are refused
(30_encoding R77). -/
def Obligations.SampleWordsDecode : Prop :=
  decode 0x00033403 = .ok (.fmul 4 3 3) ∧ decode 0x00015501 = .ok (.fadd 5 5 1) ∧
  decode 0x00054602 = .ok (.fsub 6 4 5) ∧ decode 0x00007204 = .ok (.finv 2 7) ∧
  decode 0x00000010 = .ok (.sval 0) ∧ decode 0x00000013 = .ok (.smul 0 0) ∧ decode 0x00001113 = .ok (.smul 1 1) ∧
  decode 0x00001111 = .ok (.padd 1 1 0) ∧ decode 0x00003212 = .ok (.pdbl 2 3) ∧
  decode 0x00000014 = .ok (.pcomp 0) ∧ decode 0x000A9317 = .ok (.pset 3 9 10) ∧
  decode 0x00001218 = .ok (.pgetx 2 1) ∧ decode 0x00001319 = .ok (.pgety 3 1) ∧
  decode 0x00000032 = .ok (.wif 0) ∧ decode 0x00000033 = .ok (.addr 0) ∧
  decode 0x00000140 = .ok (.ldw 1) ∧ decode 0x00006041 = .ok (.stw 6) ∧
  legalWord 0x00000000 = false ∧ legalWord 0x00000411 = false ∧ legalWord 0x00100020 = false ∧
  legalWord 0x00000120 = false

/-! ### Steps -/

/-- A step runs the decoded command: where the pending word decodes to a well-formed command and its completion is due,
step is that command's exec, and nothing is added around it (10_state R40, 30_encoding R71; the schedule is the model's
own, log 2). -/
def Obligations.StepRunsDecodedCommand : Prop :=
  ∀ (s : State) (v : Word) (i : Instr), s.pending = some v → s.due → decode v = .ok i → i.wellFormed = true →
    step s = exec i s

/-- A pending illegal word completes with E_ILLEGAL and nothing else changes; CMD still holds the word
(30_encoding R72, 60_exceptions R134). -/
def Obligations.IllegalWordCompletes : Prop :=
  ∀ (s : State) (v : Word), s.pending = some v → s.due → legalWord v = false → step s = .next (failed s 0x01)

/-- The block serves the events it is given one a step and in their order, between completions (20_memory R61; where the
completion falls among them is the model's own schedule, log 2). -/
def Obligations.StepServesEventsInOrder : Prop :=
  ∀ (s : State) (e : HostEvent) (es : List HostEvent), s.inputs = e :: es →
    (s.pending = none → step s = .next (({ s with inputs := es } : State).serve e)) ∧
    (∀ (v : Word) (n : Nat), s.pending = some v → s.remaining = n + 1 →
      step s = .next (({ s with inputs := es, remaining := n } : State).serve e))

/-- No state makes the block stop: every step has a next state, never a fault or a refusal (10_state R40;
60_exceptions R132, R144). -/
def Obligations.StepNeverStops : Prop := ∀ s : State, ∃ t, step s = .next t

/-- Every step keeps the invariant: LMEM in canonical form, every P register canonical (R19), STATUS sound, RES_LEN
inside LMEM (10_state R19, R25, R29, R38; 60_exceptions R133). -/
def Obligations.StepKeepsSound : Prop := ∀ s t : State, s.Sound → step s = .next t → t.Sound

/-- The state after reset meets the invariant. -/
def Obligations.ResetIsSound : Prop := State.reset.Sound

/-- Reset leaves the values of R45's table, and a pulse of the reset input to its active level leaves that state from any
state, where a pulse to the other level changes nothing. One assertion and release is one event of the model, which
keeps the model's own fields (10_state R45, 70_reset_and_hazards R157; log 7, log 9). -/
def Obligations.ResetValues : Prop :=
  (∀ r, State.reset.readW r = 0) ∧
  (∀ r : Field4, r.toNat < 4 → State.reset.readP r = { x := 0, y := 0, inf := true }) ∧
  (∀ a, State.reset.lmem.read a = 0) ∧
  State.reset.pending = none ∧ State.reset.readReg .id = 0x5EC10001 ∧ State.reset.cmd = 0 ∧
  State.reset.busy = false ∧ State.reset.done = false ∧ State.reset.err = false ∧ State.reset.inf = false ∧
  State.reset.ovr = false ∧ State.reset.errCode = 0 ∧ State.reset.doneIe = false ∧
  State.reset.srcAddr = 0 ∧ State.reset.srcLen = 0 ∧ State.reset.dstAddr = 0 ∧ State.reset.resLen = 0 ∧
  State.reset.irq = false ∧
  ∀ (s : State) (level : Bool),
    (level = Config.kdbRstActive → s.serve (.hwReset level) =
      { State.reset with inputs := s.inputs, responses := s.responses, draws := s.draws }) ∧
    (level ≠ Config.kdbRstActive → s.serve (.hwReset level) = s)

/-- A pending command is over after at most `remaining + 1` steps: completion happens eventually
(10_state R40, 70_reset_and_hazards R170; the count is the model's own schedule, log 2). -/
def Obligations.PendingCommandCompletes : Prop :=
  ∀ (s : State) (v : Word), s.pending = some v →
    ∃ (k : Nat) (t : State), k ≤ s.remaining + 1 ∧ Host.Core.run Sys2Proof.core k s = .next t ∧ t.pending = none

/-- The inputs of a pending command are frozen: serving any event but a reset changes none of W, P, LMEM, SRC_ADDR,
SRC_LEN, DST_ADDR, RES_LEN, INF, CMD or the pending command (10_state R39, R41). That the step serves the event, takes
it off `inputs` and counts it off `remaining` is the model's own queue and schedule (log 1, log 2). -/
def Obligations.PendingInputsAreFrozen : Prop :=
  ∀ (s t : State) (v : Word) (n : Nat) (e : HostEvent) (es : List HostEvent),
    s.pending = some v → s.remaining = n + 1 → s.inputs = e :: es → e.resets = false → step s = .next t →
    t.w = s.w ∧ t.p = s.p ∧ t.lmem = s.lmem ∧ t.srcAddr = s.srcAddr ∧ t.srcLen = s.srcLen ∧ t.dstAddr = s.dstAddr ∧
      t.resLen = s.resLen ∧ t.inf = s.inf ∧ t.cmd = s.cmd ∧ t.pending = some v ∧ t.remaining = n ∧ t.inputs = es

/-! ### All commands -/

/-- Every command completes, whatever the state: BUSY = 0, DONE = 1, and the host's side is as it was
(10_state R40, R46). -/
def Obligations.EveryCommandCompletes : Prop :=
  ∀ (i : Instr) (s : State), ∃ t, exec i s = .next t ∧ t.pending = none ∧ t.done = true ∧ SameHostSide s t ∧
    (t.err = false → t.errCode = 0)

/-- A command that ends with an error changes nothing but BUSY, DONE, ERR and ERRCODE, and reports a code of 0x01 to 0x06
(60_exceptions R132, R133, R144). -/
def Obligations.FailedCommandChangesOnlyStatus : Prop :=
  ∀ (i : Instr) (s t : State), exec i s = .next t → t.err = true →
    ∃ code : BitVec 8, 0x01 ≤ code.toNat ∧ code.toNat ≤ 0x06 ∧ t = failed s code

/-- The errors each well-formed command can raise (60_exceptions R142; E_ILLEGAL is the decoder's). -/
def Obligations.CommandErrorTable : Prop :=
  ∀ (i : Instr) (s t : State), i.wellFormed = true → exec i s = .next t → t.err = true →
    t.errCode ∈ (match i with
      | .fadd _ _ _ | .fsub _ _ _ | .fmul _ _ _ => []
      | .finv _ _ => [0x03]
      | .sval _ | .smul _ _ => [0x02]
      | .padd _ _ _ | .pdbl _ _ | .pgen _ | .pinf _ | .pset _ _ _ => []
      | .pcomp _ => [0x04, 0x05]
      | .pgetx _ _ | .pgety _ _ => [0x04]
      | .sha256 | .rmd160 | .hash160 | .sha256d | .cksum => [0x05]
      | .b58enc | .b58chk => [0x05, 0x06]
      | .wif _ => [0x02, 0x05]
      | .addr _ => [0x04, 0x05]
      | .ldw _ | .stw _ => [0x05] : List (BitVec 8))

/-- Which commands write what: W only by FADD, FSUB, FMUL, FINV, PGETX, PGETY and LDW (R17); P and INF only by PADD,
PDBL, SMUL, PGEN, PINF and PSET (R18, R30); LMEM and RES_LEN only by PCOMP, the hash and Base58 families and STW
(10_state R38, R46). -/
def Obligations.CommandWriters : Prop :=
  ∀ (i : Instr) (s t : State), exec i s = .next t →
    (match i with
      | .fadd _ _ _ | .fsub _ _ _ | .fmul _ _ _ | .finv _ _ | .pgetx _ _ | .pgety _ _ | .ldw _ =>
        KeepsP s t ∧ KeepsMem s t ∧ t.resLen = s.resLen ∧ t.inf = s.inf
      | .padd _ _ _ | .pdbl _ _ | .smul _ _ | .pgen _ | .pinf _ | .pset _ _ _ =>
        KeepsW s t ∧ KeepsMem s t ∧ t.resLen = s.resLen
      | .sval _ => KeepsW s t ∧ KeepsP s t ∧ KeepsMem s t ∧ t.resLen = s.resLen ∧ t.inf = s.inf
      | .pcomp _ | .sha256 | .rmd160 | .hash160 | .sha256d | .cksum | .b58enc | .b58chk | .wif _ | .addr _ | .stw _ =>
        KeepsW s t ∧ KeepsP s t ∧ t.inf = s.inf)

/-- No command reads a flag: two states that differ in STATUS, IE, CMD and the engine's progress alone complete every
command alike, but for the flags a command leaves (10_state R46; 60_exceptions R132). -/
def Obligations.NoCommandReadsAFlag : Prop :=
  ∀ (i : Instr) (s : State) (pending : Option Word) (remaining : Nat) (cmd : Word) (done err inf ovr doneIe : Bool)
    (errCode : BitVec 8),
    ∃ t u : State, exec i s = .next t ∧
      exec i { s with
        pending := pending, remaining := remaining, cmd := cmd, done := done, err := err, inf := inf, ovr := ovr
        doneIe := doneIe, errCode := errCode } = .next u ∧
      u.w = t.w ∧ u.p = t.p ∧ u.lmem = t.lmem ∧ u.resLen = t.resLen ∧ u.done = t.done ∧ u.err = t.err ∧
      u.errCode = t.errCode ∧ u.busy = t.busy

/-- A command term with a P-kind field of 4 or more completes with E_ILLEGAL and nothing else changes. No word decodes to
one; the model's own choice for such a term follows 30_encoding R72 (log 10). -/
def Obligations.IllFormedCommandIsIllegal : Prop :=
  ∀ (i : Instr) (s : State), i.wellFormed = false → exec i s = .next (failed s 0x01)

/-! ### Field family -/

/-- FADD, FSUB and FMUL complete with the exact sum, difference and product modulo p in W[d], for every 256-bit operand
and every choice of registers, and change nothing else but STATUS (40_field R78 to R81). -/
def Obligations.FieldArithmeticResults : Prop :=
  ∀ (d a b : Field4) (s : State),
    (∃ t v, exec (.fadd d a b) s = .next t ∧ SucceedsWithW s t d v ∧
      v.toNat = ((s.readW a).toNat + (s.readW b).toNat) % primeP) ∧
    (∃ t v, exec (.fsub d a b) s = .next t ∧ SucceedsWithW s t d v ∧
      (v.toNat : Int) = ((s.readW a).toNat - (s.readW b).toNat : Int) % primeP) ∧
    (∃ t v, exec (.fmul d a b) s = .next t ∧ SucceedsWithW s t d v ∧
      v.toNat = (s.readW a).toNat * (s.readW b).toNat % primeP)

/-- FINV of a residue that is not 0 completes with THE inverse in W[d]: the unique v in [1, p) with r·v = 1 modulo p,
and changes nothing else but STATUS; of a residue 0 it completes with E_NOINV and W[d] unchanged (40_field R82,
60_exceptions R136). -/
def Obligations.FinvGivesTheInverse : Prop :=
  ∀ (d a : Field4) (s : State),
    ((s.readW a).toNat % primeP ≠ 0 →
      ∃ t v, exec (.finv d a) s = .next t ∧ SucceedsWithW s t d v ∧ 1 ≤ v.toNat ∧ v.toNat < primeP ∧
        (s.readW a).toNat % primeP * v.toNat % primeP = 1 ∧
        ∀ u : Nat, 1 ≤ u → u < primeP → (s.readW a).toNat % primeP * u % primeP = 1 → u = v.toNat) ∧
    ((s.readW a).toNat % primeP = 0 → exec (.finv d a) s = .next (failed s 0x03))

/-- The field operations obey the integer laws: commutativity, associativity, distributivity, FSUB through FADD, and the
inverse (40_field R83). -/
def Obligations.FieldLaws : Prop :=
  ∀ a b c : Wide,
    fieldAdd a b = fieldAdd b a ∧ fieldMul a b = fieldMul b a ∧
    fieldAdd (fieldAdd a b) c = fieldAdd a (fieldAdd b c) ∧ fieldMul (fieldMul a b) c = fieldMul a (fieldMul b c) ∧
    fieldMul a (fieldAdd b c) = fieldAdd (fieldMul a b) (fieldMul a c) ∧
    fieldSub a b = fieldAdd a (BitVec.ofNat 256 (primeP - b.toNat % primeP)) ∧
    (a.toNat % primeP ≠ 0 → fieldMul a (fieldInv a) = 1)

/-! ### Point family -/

/-- SVAL completes and changes nothing but STATUS where 1 <= k < n, and ends with E_SCALAR where k = 0 or k >= n
(41_point R89, 60_exceptions R135). -/
def Obligations.SvalChecksTheScalar : Prop :=
  ∀ (a : Field4) (s : State),
    (1 ≤ (s.readW a).toNat → (s.readW a).toNat < orderN →
      ∃ t, exec (.sval a) s = .next t ∧ Succeeds s t ∧ KeepsW s t ∧ KeepsP s t ∧ KeepsMem s t ∧ t.resLen = s.resLen ∧
        t.inf = s.inf) ∧
    ((s.readW a).toNat = 0 ∨ orderN ≤ (s.readW a).toNat → exec (.sval a) s = .next (failed s 0x02))

/-- PADD completes in the cases the chord does not cover: an operand O gives the other operand; equal abscissas give
PDBL's result for equal ordinates that are not 0, and O otherwise. INF takes the result's inf bit, and nothing else
changes but STATUS (41_point R86, R90). -/
def Obligations.PaddSpecialCases : Prop :=
  ∀ (d a b : Field4) (s : State), d.toNat < 4 → a.toNat < 4 → b.toNat < 4 →
    ((s.readP a).inf = true →
      ∃ t, exec (.padd d a b) s = .next t ∧ SucceedsWithP s t d (s.readP b) (s.readP b).inf) ∧
    ((s.readP a).inf = false → (s.readP b).inf = true →
      ∃ t, exec (.padd d a b) s = .next t ∧ SucceedsWithP s t d (s.readP a) false) ∧
    ((s.readP a).inf = false → (s.readP b).inf = false → (s.readP a).x = (s.readP b).x →
      ((s.readP a).y = (s.readP b).y → (s.readP a).y ≠ 0 →
        ∃ t u, exec (.padd d a b) s = .next t ∧ exec (.pdbl d a) s = .next u ∧
          SucceedsWithP s t d (u.readP d) (u.readP d).inf) ∧
      ((s.readP a).y ≠ (s.readP b).y ∨ (s.readP a).y = 0 →
        ∃ t, exec (.padd d a b) s = .next t ∧ SucceedsWithP s t d { x := 0, y := 0, inf := true } true))

/-- PADD of two affine points with different abscissas completes with the third point of their chord, reflected: the slope
`lam` is (y2 - y1)/(x2 - x1) in the field, x3 = lam^2 - x1 - x2 and y3 = lam (x1 - x3) - y1 modulo p. INF takes 0, and
nothing else changes but STATUS. The points need not lie on the curve (41_point R86, R90; 00_scope R12). -/
def Obligations.PaddChord : Prop :=
  ∀ (d a b : Field4) (s : State), d.toNat < 4 → a.toNat < 4 → b.toNat < 4 →
    (s.readP a).inf = false → (s.readP b).inf = false →
    (s.readP a).canonical = true → (s.readP b).canonical = true → (s.readP a).x ≠ (s.readP b).x →
    ∃ (t : State) (q : Point) (lam : Nat), exec (.padd d a b) s = .next t ∧ SucceedsWithP s t d q false ∧
      q.inf = false ∧ lam < primeP ∧
      (lam * ((s.readP b).x.toNat - (s.readP a).x.toNat : Int)) % primeP =
        ((s.readP b).y.toNat - (s.readP a).y.toNat : Int) % primeP ∧
      (q.x.toNat : Int) = ((lam : Int) * lam - (s.readP a).x.toNat - (s.readP b).x.toNat) % primeP ∧
      (q.y.toNat : Int) = (lam * ((s.readP a).x.toNat - q.x.toNat : Int) - (s.readP a).y.toNat) % primeP

/-- PDBL completes: O and a point with y = 0 give O; any other canonical point gives the third point of its tangent,
reflected: `lam` is 3 x^2 / (2 y) in the field, x3 = lam^2 - 2 x and y3 = lam (x - x3) - y modulo p. INF takes the
result's inf bit, and nothing else changes but STATUS (41_point R87, R91; 00_scope R12). -/
def Obligations.PdblResult : Prop :=
  ∀ (d a : Field4) (s : State), d.toNat < 4 → a.toNat < 4 →
    ((s.readP a).inf = true ∨ (s.readP a).y = 0 →
      ∃ t, exec (.pdbl d a) s = .next t ∧ SucceedsWithP s t d { x := 0, y := 0, inf := true } true) ∧
    ((s.readP a).inf = false → (s.readP a).y ≠ 0 → (s.readP a).canonical = true →
      ∃ (t : State) (q : Point) (lam : Nat), exec (.pdbl d a) s = .next t ∧ SucceedsWithP s t d q false ∧
        q.inf = false ∧ lam < primeP ∧
        lam * (2 * (s.readP a).y.toNat) % primeP = 3 * (s.readP a).x.toNat * (s.readP a).x.toNat % primeP ∧
        (q.x.toNat : Int) = ((lam : Int) * lam - 2 * (s.readP a).x.toNat) % primeP ∧
        (q.y.toNat : Int) = (lam * ((s.readP a).x.toNat - q.x.toNat : Int) - (s.readP a).y.toNat) % primeP)

/-- On the points of the curve `padd` is the group law: sums and doubles stay on the curve, addition is commutative and
associative, O is neutral, -Q is the inverse of Q, and Q + Q is the double. On any canonical points, on the curve or
not, sums and doubles are canonical (41_point R88; 10_state R19). -/
def Obligations.PointAdditionIsTheGroupLaw : Prop :=
  (∀ q r u : Point, q.onCurve → r.onCurve → u.onCurve →
    (pointAdd q r).onCurve ∧ (pointDouble q).onCurve ∧ q.neg.onCurve ∧
    pointAdd q r = pointAdd r q ∧ pointAdd (pointAdd q r) u = pointAdd q (pointAdd r u) ∧
    pointAdd q Point.infinity = q ∧ pointAdd q q.neg = Point.infinity ∧ pointAdd q q = pointDouble q) ∧
  (∀ q r : Point, q.canonical = true → r.canonical = true →
    (pointAdd q r).canonical = true ∧ (pointDouble q).canonical = true)

/-- SMUL completes with the double-and-add result in P[d] and INF = 0 where 1 <= k < n, and changes nothing else but
STATUS; it ends with E_SCALAR where k = 0 or k >= n (41_point R92, R93; 60_exceptions R135). -/
def Obligations.SmulResult : Prop :=
  ∀ (d a : Field4) (s : State), d.toNat < 4 →
    (1 ≤ (s.readW a).toNat → (s.readW a).toNat < orderN →
      ∃ t, exec (.smul d a) s = .next t ∧ SucceedsWithP s t d (scalarMul (s.readW a).toNat) false) ∧
    ((s.readW a).toNat = 0 ∨ orderN ≤ (s.readW a).toNat → exec (.smul d a) s = .next (failed s 0x02))

/-- Double-and-add gives k·G, the k-fold sum of the generator (00_scope R12, 41_point R92). -/
def Obligations.DoubleAndAddIsRepeatedAddition : Prop :=
  ∀ k : Nat, k < 2 ^ 256 → scalarMul k = kFoldGenerator k

/-- For every valid scalar SMUL's result is an affine point of the curve, never O (41_point R92, R93, R101). -/
def Obligations.SmulGivesAffineCurvePoint : Prop :=
  ∀ k : Nat, 1 ≤ k → k < orderN → (scalarMul k).inf = false ∧ (scalarMul k).onCurve

/-- PCOMP ends with E_INFINITY for O, else with E_RANGE where DST_ADDR + 33 > 1024, else it completes: it stores the
33 bytes 0x02 + y mod 2 and the 32 big-endian bytes of x at DST_ADDR, sets RES_LEN = 33, and changes nothing else but
STATUS (41_point R94, R95; 60_exceptions R137, R141). -/
def Obligations.PcompResult : Prop :=
  ∀ (a : Field4) (s : State), a.toNat < 4 → s.lmem.wf = true →
    ((s.readP a).inf = true → exec (.pcomp a) s = .next (failed s 0x04)) ∧
    ((s.readP a).inf = false → 1024 < s.dstAddr.toNat + 33 → exec (.pcomp a) s = .next (failed s 0x05)) ∧
    ((s.readP a).inf = false → s.dstAddr.toNat + 33 ≤ 1024 →
      ∃ (t : State) (sign : Byte) (xs : List Byte), exec (.pcomp a) s = .next t ∧
        SucceedsWithOutput s t (sign :: xs) ∧ sign.toNat = 2 + (s.readP a).y.toNat % 2 ∧ xs.length = 32 ∧
        beInt xs = (s.readP a).x.toNat)

/-- Compression is injective on the affine points of the curve (41_point R94, R101). -/
def Obligations.CompressIsInjective : Prop :=
  ∀ q r : Point, q.onCurve → r.onCurve → q.inf = false → r.inf = false → compress q = compress r → q = r

/-- PGEN loads G with INF = 0, PINF loads O with INF = 1, PSET loads the residues of two W registers as an affine point
with INF = 0; each completes and changes nothing else but STATUS (41_point R84, R96, R97, R98). -/
def Obligations.PointLoads : Prop :=
  ∀ (d a b : Field4) (s : State), d.toNat < 4 →
    (∃ t, exec (.pgen d) s = .next t ∧ SucceedsWithP s t d
      { x := 0x79BE667EF9DCBBAC55A06295CE870B07029BFCDB2DCE28D959F2815B16F81798,
        y := 0x483ADA7726A3C4655DA4FBFC0E1108A8FD17B448A68554199C47D08FFB10D4B8, inf := false } false) ∧
    (∃ t, exec (.pinf d) s = .next t ∧ SucceedsWithP s t d { x := 0, y := 0, inf := true } true) ∧
    (∃ t q, exec (.pset d a b) s = .next t ∧ SucceedsWithP s t d q false ∧ q.inf = false ∧
      q.x.toNat = (s.readW a).toNat % primeP ∧ q.y.toNat = (s.readW b).toNat % primeP)

/-- PGETX and PGETY complete with the coordinate of an affine point in W[d] and change nothing else but STATUS; for O they
end with E_INFINITY (41_point R99, R100; 60_exceptions R137). -/
def Obligations.CoordinateReads : Prop :=
  ∀ (d a : Field4) (s : State), a.toNat < 4 →
    ((s.readP a).inf = false →
      (∃ t, exec (.pgetx d a) s = .next t ∧ SucceedsWithW s t d (s.readP a).x) ∧
      (∃ t, exec (.pgety d a) s = .next t ∧ SucceedsWithW s t d (s.readP a).y)) ∧
    ((s.readP a).inf = true →
      exec (.pgetx d a) s = .next (failed s 0x04) ∧ exec (.pgety d a) s = .next (failed s 0x04))

/-! ### Hash family -/

/-- The five hash commands: E_RANGE where the source or the destination leaves LMEM, in unbounded arithmetic; else each
completes, stores its digest of the SRC_LEN bytes at SRC_ADDR (as they were before the command) at DST_ADDR, sets
RES_LEN to its length, and changes nothing else but STATUS (42_hash R102, R114 to R121). -/
def Obligations.HashCommandResults : Prop :=
  ∀ (i : Instr) (fn : List Byte → List Byte) (len : Nat),
    ((i = .sha256 ∧ fn = sha256 ∧ len = 32) ∨ (i = .rmd160 ∧ fn = ripemd160 ∧ len = 20) ∨
      (i = .hash160 ∧ fn = (fun m => ripemd160 (sha256 m)) ∧ len = 20) ∨
      (i = .sha256d ∧ fn = (fun m => sha256 (sha256 m)) ∧ len = 32) ∨
      (i = .cksum ∧ fn = (fun m => (sha256 (sha256 m)).take 4) ∧ len = 4)) →
    ∀ s : State, s.lmem.wf = true →
      (1024 < s.srcAddr.toNat + s.srcLen.toNat → exec i s = .next (failed s 0x05)) ∧
      (1024 < s.dstAddr.toNat + len → exec i s = .next (failed s 0x05)) ∧
      (s.srcAddr.toNat + s.srcLen.toNat ≤ 1024 → s.dstAddr.toNat + len ≤ 1024 →
        ∃ t out, exec i s = .next t ∧ SucceedsWithOutput s t out ∧ out.length = len ∧
          out = fn (s.lmem.readBytes s.srcAddr.toNat s.srcLen.toNat))

/-- Padding: the message, 0x80, z = (55 - len) mod 64 zero bytes, and the bit length in 8 bytes, big-endian for SHA-256
and little-endian for RIPEMD-160; the whole is the least multiple of 64 bytes that holds them (42_hash R103, R108). -/
def Obligations.PaddingShape : Prop :=
  ∀ m : List Byte, ∃ z : Nat, (z : Int) = (55 - (m.length : Int)) % 64 ∧
    padWith (beBytes 8) m = m ++ [0x80] ++ List.replicate z 0x00 ++ beBytes 8 (8 * m.length) ∧
    padWith (leBytes 8) m = m ++ [0x80] ++ List.replicate z 0x00 ++ leBytes 8 (8 * m.length) ∧
    (padWith (beBytes 8) m).length = 64 * ((m.length + 8) / 64 + 1) ∧
    (padWith (leBytes 8) m).length = 64 * ((m.length + 8) / 64 + 1)

/-! ### Base58 family -/

/-- B58ENC and B58CHK: E_RANGE on the source first, then E_LEN for an empty source, then E_RANGE on the destination for
the actual output length; else each completes, stores its output at DST_ADDR, sets RES_LEN to its length, and changes
nothing else but STATUS (43_base58 R124, R125, R126; 60_exceptions R138, R139, R141). -/
def Obligations.Base58CommandResults : Prop :=
  ∀ (i : Instr) (enc : List Byte → List Byte),
    ((i = .b58enc ∧ enc = base58) ∨ (i = .b58chk ∧ enc = fun m => base58 (m ++ checksum m))) →
    ∀ (s : State) (m out : List Byte), s.lmem.wf = true →
      m = s.lmem.readBytes s.srcAddr.toNat s.srcLen.toNat → out = enc m →
      (1024 < s.srcAddr.toNat + s.srcLen.toNat → exec i s = .next (failed s 0x05)) ∧
      (s.srcAddr.toNat ≤ 1024 → s.srcLen = 0 → exec i s = .next (failed s 0x06)) ∧
      (s.srcLen ≠ 0 → 1024 < s.dstAddr.toNat + out.length → exec i s = .next (failed s 0x05)) ∧
      (s.srcAddr.toNat + s.srcLen.toNat ≤ 1024 → s.srcLen ≠ 0 → s.dstAddr.toNat + out.length ≤ 1024 →
        ∃ t, exec i s = .next t ∧ SucceedsWithOutput s t out)

/-- A standard Base58 decode of what the codec writes gives the data back: of `base58(data)` the data, and of
`base58check(payload)` the payload and its checksum (43_base58 R123, R124, R129). -/
def Obligations.Base58DecodesBack : Prop :=
  ∀ data : List Byte, data ≠ [] →
    base58Decode (base58 data) = data ∧ base58Decode (base58check data) = data ++ checksum data

/-- WIF: E_SCALAR where k = 0 or k >= n, else E_RANGE where DST_ADDR > 972, else it completes: it stores the Base58Check
of 0x80, the 32 big-endian bytes of k and 0x01, always 52 characters beginning with 'K' or 'L', sets RES_LEN = 52, and
changes nothing else but STATUS (43_base58 R127; 60_exceptions R135, R141). -/
def Obligations.WifResult : Prop :=
  ∀ (a : Field4) (s : State), s.lmem.wf = true →
    ((s.readW a).toNat = 0 ∨ orderN ≤ (s.readW a).toNat → exec (.wif a) s = .next (failed s 0x02)) ∧
    (1 ≤ (s.readW a).toNat → (s.readW a).toNat < orderN →
      (972 < s.dstAddr.toNat → exec (.wif a) s = .next (failed s 0x05)) ∧
      (s.dstAddr.toNat ≤ 972 →
        ∃ t out, exec (.wif a) s = .next t ∧ SucceedsWithOutput s t out ∧ out.length = 52 ∧
          (out.head? = some 0x4B ∨ out.head? = some 0x4C) ∧
          out = base58check ([0x80] ++ beBytes 32 (s.readW a).toNat ++ [0x01])))

/-- ADDR: E_INFINITY for O, else E_RANGE where the output leaves LMEM, else it completes: it stores the Base58Check of
0x00 and the Hash160 of the compressed point, 26 to 34 characters beginning with '1', sets RES_LEN to their number, and
changes nothing else but STATUS (43_base58 R128; 60_exceptions R137, R141). -/
def Obligations.AddrResult : Prop :=
  ∀ (a : Field4) (s : State) (out : List Byte), a.toNat < 4 → s.lmem.wf = true →
    out = base58check ([0x00] ++ hash160 (compress (s.readP a))) →
    26 ≤ out.length ∧ out.length ≤ 34 ∧ out.head? = some 0x31 ∧
    ((s.readP a).inf = true → exec (.addr a) s = .next (failed s 0x04)) ∧
    ((s.readP a).inf = false → 1024 < s.dstAddr.toNat + out.length → exec (.addr a) s = .next (failed s 0x05)) ∧
    ((s.readP a).inf = false → s.dstAddr.toNat + out.length ≤ 1024 →
      ∃ t, exec (.addr a) s = .next t ∧ SucceedsWithOutput s t out)

/-! ### Transfer family -/

/-- LDW completes with the big-endian integer of the 32 bytes at SRC_ADDR in W[d], whatever SRC_LEN holds, and changes
nothing else but STATUS; it ends with E_RANGE where SRC_ADDR > 992 (44_transfer R130). -/
def Obligations.LdwResult : Prop :=
  ∀ (d : Field4) (s : State),
    (s.srcAddr.toNat ≤ 992 →
      ∃ t v, exec (.ldw d) s = .next t ∧ SucceedsWithW s t d v ∧
        v.toNat = beInt (s.lmem.readBytes s.srcAddr.toNat 32)) ∧
    (992 < s.srcAddr.toNat → exec (.ldw d) s = .next (failed s 0x05))

/-- STW completes with the 32 big-endian bytes of W[a] at DST_ADDR and RES_LEN = 32 and changes nothing else but STATUS;
it ends with E_RANGE where DST_ADDR > 992. LDW at the same address then returns the value (44_transfer R131). -/
def Obligations.StwResult : Prop :=
  ∀ (a : Field4) (s : State), s.lmem.wf = true →
    (s.dstAddr.toNat ≤ 992 →
      ∃ t bs, exec (.stw a) s = .next t ∧ SucceedsWithOutput s t bs ∧ bs.length = 32 ∧ beInt bs = (s.readW a).toNat ∧
        (s.srcAddr = s.dstAddr → ∀ d : Field4, ∃ u, exec (.ldw d) t = .next u ∧ u.readW d = s.readW a)) ∧
    (992 < s.dstAddr.toNat → exec (.stw a) s = .next (failed s 0x05))

/-! ### The host bus -/

/-- A write of CMD while BUSY = 0 accepts the word, whatever it is: CMD and the pending command take it, BUSY <- 1,
DONE <- 0, ERR <- 0, ERRCODE <- 0x00, and nothing else changes (10_state R25, R39; `remaining` is the model's, log 2). -/
def Obligations.CmdWriteAccepts : Prop :=
  ∀ (s : State) (v : Word), s.busy = false →
    ∃ n, s.serve (.write 0x004 (.b32 v)) =
      { s with
        cmd := v, pending := some v, remaining := n, done := false, err := false, errCode := 0
        responses := .ok :: s.responses }

/-- While BUSY = 1 a legal write to CMD, SRC_ADDR, SRC_LEN, DST_ADDR or the LMEM window is dropped and sets OVR; writes
to STATUS, CTRL and IE are not dropped; writes to ID, RES_LEN and the reserved offsets are ignored and do not set OVR
(10_state R41). -/
def Obligations.WritesWhileBusy : Prop :=
  ∀ (s : State) (off : Offset) (d : BusData), s.busy = true → legalAccess off d.width = true →
    (((0x400 ≤ off.toNat ∧ off.toNat < 0x800) ∨ off = 0x004 ∨ off = 0x014 ∨ off = 0x018 ∨ off = 0x01C) →
      s.serve (.write off d) = { s with ovr := true, responses := .ok :: s.responses }) ∧
    (off = 0x008 → s.serve (.write off d) = (s.writeStatus (BitVec.ofNat 32 d.toNat)).respond .ok) ∧
    (off = 0x00C → d.toNat.testBit 0 = true → s.serve (.write off d) = s.resetBlock.respond .ok) ∧
    (off = 0x00C → d.toNat.testBit 0 = false → s.serve (.write off d) = { s with responses := .ok :: s.responses }) ∧
    (off = 0x010 → s.serve (.write off d) = { s with doneIe := d.toNat.testBit 0, responses := .ok :: s.responses }) ∧
    ((off = 0x000 ∨ (0x020 ≤ off.toNat ∧ off.toNat < 0x400) ∨ 0x800 ≤ off.toNat) →
      s.serve (.write off d) = { s with responses := .ok :: s.responses })

/-- A write of STATUS applies the W1C bits together, BUSY and INF and everything else unchanged, whether BUSY is 0 or 1
(10_state R32). -/
def Obligations.StatusWriteOneToClear : Prop :=
  ∀ (s : State) (v : Word), s.serve (.write 0x008 (.b32 v)) =
    { s with
      done := s.done && !v.getLsbD 1
      err := s.err && !v.getLsbD 2
      errCode := if v.getLsbD 2 = true then 0x00 else s.errCode
      ovr := s.ovr && !v.getLsbD 4
      responses := .ok :: s.responses }

/-- STATUS as the host reads it: BUSY, DONE, ERR, INF, OVR in bits 0 to 4, ERRCODE in bits [15:8], every other bit 0
(10_state R26). -/
def Obligations.StatusWordLayout : Prop :=
  ∀ s : State, s.readReg .status = s.statusWord ∧
    s.statusWord.getLsbD 0 = s.busy ∧ s.statusWord.getLsbD 1 = s.done ∧ s.statusWord.getLsbD 2 = s.err ∧
    s.statusWord.getLsbD 3 = s.inf ∧ s.statusWord.getLsbD 4 = s.ovr ∧
    s.statusWord.extractLsb' 5 3 = 0 ∧ s.statusWord.extractLsb' 8 8 = s.errCode ∧ s.statusWord.extractLsb' 16 16 = 0

/-- A soft reset, a write of CTRL with bit 0 = 1, sets every piece of the block's state to its reset value whether BUSY
is 0 or 1, OVR with it, and gets OK: an aborted command leaves no trace. The bits [31:1] are ignored, and a write with
bit 0 = 0 has no effect. That the reset keeps `inputs`, `responses` and `draws` is the model's choice (log 9)
(70_reset_and_hazards R158; 10_state R33). -/
def Obligations.SoftResetFromAnyState : Prop :=
  ∀ (s : State) (v : Word),
    (v.getLsbD 0 = true → s.serve (.write 0x00C (.b32 v)) =
      { State.reset with inputs := s.inputs, responses := .ok :: s.responses, draws := s.draws }) ∧
    (v.getLsbD 0 = false → s.serve (.write 0x00C (.b32 v)) = { s with responses := .ok :: s.responses })

/-- An access of the control region that is not an aligned 32-bit one, and a misaligned access of the LMEM window, gets
BUSERR and no data, and changes no state of the block (20_memory R50, R51, R52). -/
def Obligations.BusErrorChangesNothing : Prop :=
  ∀ (s : State) (off : Offset) (w : Width) (d : BusData), d.width = w →
    (((off.toNat < 0x400 ∨ 0x800 ≤ off.toNat) ∧ (w ≠ .w32 ∨ off.toNat % 4 ≠ 0)) ∨
      (0x400 ≤ off.toNat ∧ off.toNat < 0x800 ∧
        ((w = .w16 ∧ off.toNat % 2 ≠ 0) ∨ (w = .w32 ∧ off.toNat % 4 ≠ 0)))) →
    s.serve (.read off w) = { s with responses := .busErr :: s.responses } ∧
    s.serve (.write off d) = { s with responses := .busErr :: s.responses }

/-- A 32-bit read of the control region answers with the register's value, whether BUSY is 0 or 1 (but RES_LEN only while
BUSY = 0); CTRL and the reserved offsets read 0; nothing changes in the block (10_state R22 to R38, R42;
20_memory R50, R58). -/
def Obligations.ControlReads : Prop :=
  ∀ (s : State) (off : Offset) (v : Word),
    ((off = 0x000 ∧ v = 0x5EC10001) ∨ (off = 0x004 ∧ v = s.cmd) ∨ (off = 0x008 ∧ v = s.statusWord) ∨
      (off = 0x00C ∧ v = 0) ∨ (off = 0x010 ∧ v = if s.doneIe = true then 1 else 0) ∨ (off = 0x014 ∧ v = s.srcAddr) ∨
      (off = 0x018 ∧ v = s.srcLen) ∨ (off = 0x01C ∧ v = s.dstAddr) ∨
      (off = 0x020 ∧ s.busy = false ∧ v = s.resLen) ∨
      (off.toNat % 4 = 0 ∧ 0x024 ≤ off.toNat ∧ off.toNat < 0x400 ∧ v = 0) ∨
      (off.toNat % 4 = 0 ∧ 0x800 ≤ off.toNat ∧ v = 0)) →
    s.serve (.read off .w32) = { s with responses := .data (.b32 v) :: s.responses }

/-- A write of IE stores bit 0; a write of SRC_ADDR, SRC_LEN or DST_ADDR while BUSY = 0 stores all 32 bits
(10_state R23, R34 to R37). -/
def Obligations.ConfigurationWrites : Prop :=
  ∀ (s : State) (v : Word),
    s.serve (.write 0x010 (.b32 v)) = { s with doneIe := v.getLsbD 0, responses := .ok :: s.responses } ∧
    (s.busy = false →
      s.serve (.write 0x014 (.b32 v)) = { s with srcAddr := v, responses := .ok :: s.responses } ∧
      s.serve (.write 0x018 (.b32 v)) = { s with srcLen := v, responses := .ok :: s.responses } ∧
      s.serve (.write 0x01C (.b32 v)) = { s with dstAddr := v, responses := .ok :: s.responses })

/-- Lane order is little-endian: a legal window read while BUSY = 0 answers with the bytes at a, a+1, ... in lanes
0, 1, ..., and changes nothing in the block (20_memory R51, R53). -/
def Obligations.WindowReadLanes : Prop :=
  ∀ (s : State) (off : Offset) (a : Nat), s.busy = false → off.toNat = 0x400 + a → a < 1024 →
    s.serve (.read off .w8) = { s with responses := .data (.b8 (s.lmem.read a)) :: s.responses } ∧
    (a % 2 = 0 → ∃ v : BitVec 16,
      s.serve (.read off .w16) = { s with responses := .data (.b16 v) :: s.responses } ∧
      v.toNat = (s.lmem.read a).toNat + 2 ^ 8 * (s.lmem.read (a + 1)).toNat) ∧
    (a % 4 = 0 → ∃ v : BitVec 32,
      s.serve (.read off .w32) = { s with responses := .data (.b32 v) :: s.responses } ∧
      v.toNat = (s.lmem.read a).toNat + 2 ^ 8 * (s.lmem.read (a + 1)).toNat +
        2 ^ 16 * (s.lmem.read (a + 2)).toNat + 2 ^ 24 * (s.lmem.read (a + 3)).toNat)

/-- A legal window write while BUSY = 0 stores lane i of its data, bits [8i+7:8i], at a + i, leaves every other byte, and
changes nothing else in the block (20_memory R51, R53). -/
def Obligations.WindowWriteLanes : Prop :=
  ∀ (s : State) (off : Offset) (a : Nat) (d : BusData), s.lmem.wf = true → s.busy = false →
    off.toNat = 0x400 + a → a < 1024 → a % d.width.bytes = 0 →
    ∃ m : Memory, s.serve (.write off d) = { s with lmem := m, responses := .ok :: s.responses } ∧
      (∀ i, i < d.width.bytes → (m.read (a + i)).toNat = d.toNat / 2 ^ (8 * i) % 256) ∧
      (∀ x, (x < a ∨ a + d.width.bytes ≤ x) → m.read x = s.lmem.read x)

/-- An LMEM window read or a RES_LEN read while BUSY = 1 answers with data of the access width and changes nothing in the
block. Which data is left free: the model's `Config.busyRead`, of which nothing is known (10_state R42, 20_memory R58;
log 4). -/
def Obligations.UnspecifiedReadsChangeNothing : Prop :=
  ∀ (s : State) (off : Offset) (w : Width), s.busy = true → legalAccess off w = true →
    ((0x400 ≤ off.toNat ∧ off.toNat < 0x800) ∨ off = 0x020) →
    ∃ d : BusData, d.width = w ∧ d.toNat = (Config.busyRead s.draws).toNat % 2 ^ (8 * w.bytes) ∧
      s.serve (.read off w) = { s with draws := s.draws + 1, responses := .data d :: s.responses }

/-- The interrupt line is DONE and DONE_IE: every completion leaves it at DONE_IE, acceptance, a W1C of DONE and a reset
deassert it, and DONE_IE = 0 keeps it deasserted (10_state R44, 60_exceptions R146). -/
def Obligations.InterruptLine : Prop :=
  ∀ (s t : State) (i : Instr) (v : Word),
    s.irq = (s.done && s.doneIe) ∧
    (exec i s = .next t → t.irq = s.doneIe) ∧
    (s.busy = false → (s.serve (.write 0x004 (.b32 v))).irq = false) ∧
    (v.getLsbD 1 = true → (s.serve (.write 0x008 (.b32 v))).irq = false) ∧
    (v.getLsbD 0 = true → (s.serve (.write 0x00C (.b32 v))).irq = false) ∧
    (s.serve (.hwReset Config.kdbRstActive)).irq = false ∧
    (v.getLsbD 0 = false → (s.serve (.write 0x010 (.b32 v))).irq = false)

/-- OVR: a dropped write sets it; a write of STATUS with bit 4 = 1 and a reset clear it; no other event, no acceptance
and no completion changes it (10_state R31). -/
def Obligations.OvrChangesAsR31Says : Prop :=
  (∀ (s : State) (e : HostEvent),
    (s.busy = true → e.operandWrite = true → (s.serve e).ovr = true) ∧
    (e.resets = true → (s.serve e).ovr = false)) ∧
  (∀ (s : State) (v : Word), v.getLsbD 4 = true → (s.serve (.write 0x008 (.b32 v))).ovr = false) ∧
  (∀ s t : State, step s = .next t →
    (s.ovr = false → t.ovr = true → s.busy = true ∧ ∃ e es, s.inputs = e :: es ∧ e.operandWrite = true) ∧
    (s.ovr = true → t.ovr = false → ∃ e es, s.inputs = e :: es ∧
      (e.resets = true ∨ ∃ v : Word, e = .write 0x008 (.b32 v) ∧ v.getLsbD 4 = true)))

/-- INF: the successful completion of PADD, PDBL, SMUL, PGEN, PINF or PSET sets it to the inf bit its destination then
has; every other command and every failed one leaves it; a reset clears it; no other event changes it
(10_state R30). -/
def Obligations.InfChangesAsR30Says : Prop :=
  (∀ (i : Instr) (s t : State), exec i s = .next t →
    if t.err = true then t.inf = s.inf
    else match i with
      | .padd d _ _ | .pdbl d _ | .smul d _ | .pgen d | .pinf d | .pset d _ _ => t.inf = (t.readP d).inf
      | .fadd _ _ _ | .fsub _ _ _ | .fmul _ _ _ | .finv _ _ | .sval _ | .pcomp _ | .pgetx _ _ | .pgety _ _ | .sha256
      | .rmd160 | .hash160 | .sha256d | .cksum | .b58enc | .b58chk | .wif _ | .addr _ | .ldw _ | .stw _ =>
        t.inf = s.inf) ∧
  (∀ (s : State) (e : HostEvent), (s.serve e).inf = if e.resets = true then false else s.inf)

/-- The W and P registers are not on the bus: but for a reset, no event changes one, and two states that differ in them
alone give the same response to every event and differ in them alone after it (but for how long an accepted command
will take, which no bus access shows); a reset clears them (10_state R17, R18, R43). -/
def Obligations.RegistersAreNotOnTheBus : Prop :=
  ∀ (s : State) (w : Vector Wide 16) (p : Vector Point 4) (e : HostEvent),
    (e.resets = true → ({ s with w := w, p := p } : State).serve e = s.serve e) ∧
    (e.resets = false → (s.serve e).w = s.w ∧ (s.serve e).p = s.p ∧
      ∃ n : Nat, ({ s with w := w, p := p } : State).serve e = { s.serve e with w := w, p := p, remaining := n })

/-- The latency of a command never depends on a scalar: it depends on the word and SRC_LEN alone for every command but
B58ENC, B58CHK and ADDR, whose output length varies (70_reset_and_hazards R171; log 3). -/
def Obligations.LatencyIgnoresSecrets : Prop :=
  ∀ (s t : State) (v : Word) (i : Instr), decode v = .ok i → s.srcLen = t.srcLen →
    i ≠ .b58enc → i ≠ .b58chk → (∀ a, i ≠ .addr a) → s.latencyOf v = t.latencyOf v

/-- The aperture is the 4096 bytes from KDB_BASE, a multiple of 4096: a platform address reaches the block exactly where
it is the base plus an offset (20_memory R59). -/
def Obligations.ApertureAtKdbBase : Prop :=
  kdbBase % 4096 = 0 ∧
    ∀ (addr : Nat) (off : Offset), apertureOffset addr = some off ↔ addr = kdbBase + off.toNat
end

