-- ==== Sys2Proof/Laws/Primes.lean ====
section
/-! SUPPORT. The field prime p and the group order n are prime: certificates by Lucas's test (41_point R84, R85). -/

namespace Sys2Proof.Machine

/-- `b^e mod m` by squaring, for an exponent of at most `k` bits. -/
def powMod (m : Nat) : (k b e : Nat) → Nat
  | 0, _, _ => 1 % m
  | k + 1, b, e =>
    let h := powMod m k (b * b % m) (e / 2)
    if e % 2 = 1 then b * h % m else h

theorem powMod_eq (m : Nat) : ∀ k b e : Nat, e < 2 ^ k → powMod m k b e = b ^ e % m
  | 0, b, e, h => by
    have : e = 0 := by simpa using h
    simp [powMod, this]
  | k + 1, b, e, h => by
    have h2 : e / 2 < 2 ^ k := by rw [pow_succ] at h; omega
    have ih := powMod_eq m k (b * b % m) (e / 2) h2
    have sq : (b * b % m) ^ (e / 2) % m = b ^ (2 * (e / 2)) % m := by
      rw [← Nat.pow_mod, ← pow_two, ← pow_mul]
    rw [powMod, ih, sq]
    split
    · next he =>
      have : e = 2 * (e / 2) + 1 := by omega
      conv_rhs => rw [this, pow_succ]
      rw [Nat.mul_mod, Nat.mod_mod, ← Nat.mul_mod, Nat.mul_comm]
    · next he =>
      have : e = 2 * (e / 2) := by omega
      conv_rhs => rw [this]

/-- Lucas's test as a computation: `a` has order `m - 1` modulo `m`, `fs` being the prime factors of `m - 1`. -/
def lucasWitness (m a : Nat) (fs : List Nat) : Bool :=
  fs.prod == m - 1 && powMod m 256 a (m - 1) == 1 && fs.all (fun q => powMod m 256 a ((m - 1) / q) != 1)

theorem prime_of_lucasWitness (m a : Nat) (fs : List Nat) (hm : 1 < m) (hb : m < 2 ^ 256) (hfs : ∀ q ∈ fs, q.Prime)
    (h : lucasWitness m a fs = true) : m.Prime := by
  simp only [lucasWitness, Bool.and_eq_true, beq_iff_eq, List.all_eq_true, bne_iff_ne] at h
  obtain ⟨⟨hprod, hone⟩, hne⟩ := h
  have lift : ∀ e : Nat, e < 2 ^ 256 → ((a : ZMod m) ^ e = 1 ↔ powMod m 256 a e = 1) := by
    intro e he
    rw [powMod_eq m 256 a e he, ← Nat.cast_pow, ← Nat.cast_one, ZMod.natCast_eq_natCast_iff, Nat.ModEq,
      Nat.mod_eq_of_lt hm]
  refine lucas_primality m (a : ZMod m) ((lift _ (by omega)).2 hone) fun q hq hd => ?_
  have hmem : q ∈ fs := by
    rw [← hprod] at hd
    obtain ⟨f, hf, hqf⟩ := (Prime.dvd_prod_iff hq.prime).1 hd
    rwa [(Nat.prime_dvd_prime_iff_eq hq (hfs f hf)).1 hqf]
  exact fun e => hne q hmem ((lift _ (lt_of_le_of_lt (Nat.div_le_self _ _) (by omega))).1 e)

/-- The computations of all certificates below, checked at once: `(m, a, prime factors of m - 1)`. -/
def certificates : List (Nat × Nat × List Nat) :=
  [ (24809, 6,
      [2, 2, 2, 7, 443]),
    (13331831, 13,
      [2, 5, 971, 1373]),
    (173378833005251801, 6,
      [2, 2, 2, 5, 5, 2621, 24809, 13331831]),
    (22149492674086928081353, 5,
      [2, 2, 2, 3, 5323, 173378833005251801]),
    (132896956044521568488119, 6,
      [2, 3, 22149492674086928081353]),
    (41201, 3,
      [2, 2, 2, 2, 5, 5, 103]),
    (96557, 2,
      [2, 2, 101, 239]),
    (20113, 10,
      [2, 2, 2, 2, 3, 419]),
    (1206781, 10,
      [2, 2, 3, 5, 20113]),
    (7240687, 3,
      [2, 3, 1206781]),
    (107590001, 3,
      [2, 2, 2, 2, 5, 5, 5, 5, 7, 29, 53]),
    (255515944373312847190720520512484175977, 3,
      [2, 2, 2, 7, 7, 11, 1627, 2657, 4423, 41201, 96557, 7240687, 107590001]),
    (205115282021455665897114700593932402728804164701536103180137503955397371, 10,
      [2, 3, 5, 29, 29, 31, 7723, 132896956044521568488119, 255515944373312847190720520512484175977]),
    (primeP, 3,
      [2, 3, 7, 13441, 205115282021455665897114700593932402728804164701536103180137503955397371]),
    (85831, 3,
      [2, 3, 5, 2861]),
    (4681609, 23,
      [2, 2, 2, 3, 97, 2011]),
    (107361793816595537, 3,
      [2, 2, 2, 2, 16699, 85831, 4681609]),
    (120233, 3,
      [2, 2, 2, 7, 19, 113]),
    (44706919, 6,
      [2, 3, 797, 9349]),
    (174723607534414371449, 3,
      [2, 2, 2, 17, 59, 4051, 120233, 44706919]),
    (305873, 3,
      [2, 2, 2, 2, 7, 2731]),
    (28181, 2,
      [2, 2, 5, 1409]),
    (545358713, 5,
      [2, 2, 2, 41, 59, 28181]),
    (1627771, 3,
      [2, 3, 5, 29, 1871]),
    (297159362677, 2,
      [2, 2, 3, 3, 11, 461, 1627771]),
    (29047611873442575647497758179, 2,
      [2, 293, 305873, 545358713, 297159362677]),
    (341948486974166000522343609283189, 2,
      [2, 2, 3, 3, 3, 109, 29047611873442575647497758179]),
    (orderN, 7,
      [2, 2, 2, 2, 2, 2, 3, 149, 631, 107361793816595537, 174723607534414371449, 341948486974166000522343609283189]) ]

theorem certificates_hold : certificates.all (fun c => lucasWitness c.1 c.2.1 c.2.2) = true := by decide +kernel

/-- The k-th certificate holds. -/
theorem lucasWitness_certificate (k : Nat) {m a : Nat} {fs : List Nat} (h : certificates[k]? = some (m, a, fs)) :
    lucasWitness m a fs = true :=
  List.all_eq_true.1 certificates_hold (m, a, fs) (List.mem_of_getElem? h)

theorem prime_24809 : Nat.Prime 24809 := by
  refine prime_of_lucasWitness _ 6 [2, 2, 2, 7, 443] (by decide) (by decide) (fun q hq => ?_) (lucasWitness_certificate 0 rfl)
  simp only [List.mem_cons, List.not_mem_nil, or_false] at hq
  rcases hq with rfl | rfl | rfl | rfl | rfl
  · norm_num
  · norm_num
  · norm_num
  · norm_num
  · norm_num

theorem prime_13331831 : Nat.Prime 13331831 := by
  refine prime_of_lucasWitness _ 13 [2, 5, 971, 1373] (by decide) (by decide) (fun q hq => ?_) (lucasWitness_certificate 1 rfl)
  simp only [List.mem_cons, List.not_mem_nil, or_false] at hq
  rcases hq with rfl | rfl | rfl | rfl
  · norm_num
  · norm_num
  · norm_num
  · norm_num

theorem prime_173378833005251801 : Nat.Prime 173378833005251801 := by
  refine prime_of_lucasWitness _ 6 [2, 2, 2, 5, 5, 2621, 24809, 13331831] (by decide) (by decide) (fun q hq => ?_) (lucasWitness_certificate 2 rfl)
  simp only [List.mem_cons, List.not_mem_nil, or_false] at hq
  rcases hq with rfl | rfl | rfl | rfl | rfl | rfl | rfl | rfl
  · norm_num
  · norm_num
  · norm_num
  · norm_num
  · norm_num
  · norm_num
  · exact prime_24809
  · exact prime_13331831

theorem prime_22149492674086928081353 : Nat.Prime 22149492674086928081353 := by
  refine prime_of_lucasWitness _ 5 [2, 2, 2, 3, 5323, 173378833005251801] (by decide) (by decide) (fun q hq => ?_) (lucasWitness_certificate 3 rfl)
  simp only [List.mem_cons, List.not_mem_nil, or_false] at hq
  rcases hq with rfl | rfl | rfl | rfl | rfl | rfl
  · norm_num
  · norm_num
  · norm_num
  · norm_num
  · norm_num
  · exact prime_173378833005251801

theorem prime_132896956044521568488119 : Nat.Prime 132896956044521568488119 := by
  refine prime_of_lucasWitness _ 6 [2, 3, 22149492674086928081353] (by decide) (by decide) (fun q hq => ?_) (lucasWitness_certificate 4 rfl)
  simp only [List.mem_cons, List.not_mem_nil, or_false] at hq
  rcases hq with rfl | rfl | rfl
  · norm_num
  · norm_num
  · exact prime_22149492674086928081353

theorem prime_41201 : Nat.Prime 41201 := by
  refine prime_of_lucasWitness _ 3 [2, 2, 2, 2, 5, 5, 103] (by decide) (by decide) (fun q hq => ?_) (lucasWitness_certificate 5 rfl)
  simp only [List.mem_cons, List.not_mem_nil, or_false] at hq
  rcases hq with rfl | rfl | rfl | rfl | rfl | rfl | rfl
  · norm_num
  · norm_num
  · norm_num
  · norm_num
  · norm_num
  · norm_num
  · norm_num

theorem prime_96557 : Nat.Prime 96557 := by
  refine prime_of_lucasWitness _ 2 [2, 2, 101, 239] (by decide) (by decide) (fun q hq => ?_) (lucasWitness_certificate 6 rfl)
  simp only [List.mem_cons, List.not_mem_nil, or_false] at hq
  rcases hq with rfl | rfl | rfl | rfl
  · norm_num
  · norm_num
  · norm_num
  · norm_num

theorem prime_20113 : Nat.Prime 20113 := by
  refine prime_of_lucasWitness _ 10 [2, 2, 2, 2, 3, 419] (by decide) (by decide) (fun q hq => ?_) (lucasWitness_certificate 7 rfl)
  simp only [List.mem_cons, List.not_mem_nil, or_false] at hq
  rcases hq with rfl | rfl | rfl | rfl | rfl | rfl
  · norm_num
  · norm_num
  · norm_num
  · norm_num
  · norm_num
  · norm_num

theorem prime_1206781 : Nat.Prime 1206781 := by
  refine prime_of_lucasWitness _ 10 [2, 2, 3, 5, 20113] (by decide) (by decide) (fun q hq => ?_) (lucasWitness_certificate 8 rfl)
  simp only [List.mem_cons, List.not_mem_nil, or_false] at hq
  rcases hq with rfl | rfl | rfl | rfl | rfl
  · norm_num
  · norm_num
  · norm_num
  · norm_num
  · exact prime_20113

theorem prime_7240687 : Nat.Prime 7240687 := by
  refine prime_of_lucasWitness _ 3 [2, 3, 1206781] (by decide) (by decide) (fun q hq => ?_) (lucasWitness_certificate 9 rfl)
  simp only [List.mem_cons, List.not_mem_nil, or_false] at hq
  rcases hq with rfl | rfl | rfl
  · norm_num
  · norm_num
  · exact prime_1206781

theorem prime_107590001 : Nat.Prime 107590001 := by
  refine prime_of_lucasWitness _ 3 [2, 2, 2, 2, 5, 5, 5, 5, 7, 29, 53] (by decide) (by decide) (fun q hq => ?_) (lucasWitness_certificate 10 rfl)
  simp only [List.mem_cons, List.not_mem_nil, or_false] at hq
  rcases hq with rfl | rfl | rfl | rfl | rfl | rfl | rfl | rfl | rfl | rfl | rfl
  · norm_num
  · norm_num
  · norm_num
  · norm_num
  · norm_num
  · norm_num
  · norm_num
  · norm_num
  · norm_num
  · norm_num
  · norm_num

theorem prime_255515944373312847190720520512484175977 : Nat.Prime 255515944373312847190720520512484175977 := by
  refine prime_of_lucasWitness _ 3 [2, 2, 2, 7, 7, 11, 1627, 2657, 4423, 41201, 96557, 7240687, 107590001] (by decide) (by decide) (fun q hq => ?_) (lucasWitness_certificate 11 rfl)
  simp only [List.mem_cons, List.not_mem_nil, or_false] at hq
  rcases hq with rfl | rfl | rfl | rfl | rfl | rfl | rfl | rfl | rfl | rfl | rfl | rfl | rfl
  · norm_num
  · norm_num
  · norm_num
  · norm_num
  · norm_num
  · norm_num
  · norm_num
  · norm_num
  · norm_num
  · exact prime_41201
  · exact prime_96557
  · exact prime_7240687
  · exact prime_107590001

theorem prime_205115282021455665897114700593932402728804164701536103180137503955397371 : Nat.Prime 205115282021455665897114700593932402728804164701536103180137503955397371 := by
  refine prime_of_lucasWitness _ 10 [2, 3, 5, 29, 29, 31, 7723, 132896956044521568488119, 255515944373312847190720520512484175977] (by decide) (by decide) (fun q hq => ?_) (lucasWitness_certificate 12 rfl)
  simp only [List.mem_cons, List.not_mem_nil, or_false] at hq
  rcases hq with rfl | rfl | rfl | rfl | rfl | rfl | rfl | rfl | rfl
  · norm_num
  · norm_num
  · norm_num
  · norm_num
  · norm_num
  · norm_num
  · norm_num
  · exact prime_132896956044521568488119
  · exact prime_255515944373312847190720520512484175977

theorem primeP_prime : Nat.Prime primeP := by
  refine prime_of_lucasWitness _ 3 [2, 3, 7, 13441, 205115282021455665897114700593932402728804164701536103180137503955397371] (by decide) (by decide) (fun q hq => ?_) (lucasWitness_certificate 13 rfl)
  simp only [List.mem_cons, List.not_mem_nil, or_false] at hq
  rcases hq with rfl | rfl | rfl | rfl | rfl
  · norm_num
  · norm_num
  · norm_num
  · norm_num
  · exact prime_205115282021455665897114700593932402728804164701536103180137503955397371

theorem prime_85831 : Nat.Prime 85831 := by
  refine prime_of_lucasWitness _ 3 [2, 3, 5, 2861] (by decide) (by decide) (fun q hq => ?_) (lucasWitness_certificate 14 rfl)
  simp only [List.mem_cons, List.not_mem_nil, or_false] at hq
  rcases hq with rfl | rfl | rfl | rfl
  · norm_num
  · norm_num
  · norm_num
  · norm_num

theorem prime_4681609 : Nat.Prime 4681609 := by
  refine prime_of_lucasWitness _ 23 [2, 2, 2, 3, 97, 2011] (by decide) (by decide) (fun q hq => ?_) (lucasWitness_certificate 15 rfl)
  simp only [List.mem_cons, List.not_mem_nil, or_false] at hq
  rcases hq with rfl | rfl | rfl | rfl | rfl | rfl
  · norm_num
  · norm_num
  · norm_num
  · norm_num
  · norm_num
  · norm_num

theorem prime_107361793816595537 : Nat.Prime 107361793816595537 := by
  refine prime_of_lucasWitness _ 3 [2, 2, 2, 2, 16699, 85831, 4681609] (by decide) (by decide) (fun q hq => ?_) (lucasWitness_certificate 16 rfl)
  simp only [List.mem_cons, List.not_mem_nil, or_false] at hq
  rcases hq with rfl | rfl | rfl | rfl | rfl | rfl | rfl
  · norm_num
  · norm_num
  · norm_num
  · norm_num
  · norm_num
  · exact prime_85831
  · exact prime_4681609

theorem prime_120233 : Nat.Prime 120233 := by
  refine prime_of_lucasWitness _ 3 [2, 2, 2, 7, 19, 113] (by decide) (by decide) (fun q hq => ?_) (lucasWitness_certificate 17 rfl)
  simp only [List.mem_cons, List.not_mem_nil, or_false] at hq
  rcases hq with rfl | rfl | rfl | rfl | rfl | rfl
  · norm_num
  · norm_num
  · norm_num
  · norm_num
  · norm_num
  · norm_num

theorem prime_44706919 : Nat.Prime 44706919 := by
  refine prime_of_lucasWitness _ 6 [2, 3, 797, 9349] (by decide) (by decide) (fun q hq => ?_) (lucasWitness_certificate 18 rfl)
  simp only [List.mem_cons, List.not_mem_nil, or_false] at hq
  rcases hq with rfl | rfl | rfl | rfl
  · norm_num
  · norm_num
  · norm_num
  · norm_num

theorem prime_174723607534414371449 : Nat.Prime 174723607534414371449 := by
  refine prime_of_lucasWitness _ 3 [2, 2, 2, 17, 59, 4051, 120233, 44706919] (by decide) (by decide) (fun q hq => ?_) (lucasWitness_certificate 19 rfl)
  simp only [List.mem_cons, List.not_mem_nil, or_false] at hq
  rcases hq with rfl | rfl | rfl | rfl | rfl | rfl | rfl | rfl
  · norm_num
  · norm_num
  · norm_num
  · norm_num
  · norm_num
  · norm_num
  · exact prime_120233
  · exact prime_44706919

theorem prime_305873 : Nat.Prime 305873 := by
  refine prime_of_lucasWitness _ 3 [2, 2, 2, 2, 7, 2731] (by decide) (by decide) (fun q hq => ?_) (lucasWitness_certificate 20 rfl)
  simp only [List.mem_cons, List.not_mem_nil, or_false] at hq
  rcases hq with rfl | rfl | rfl | rfl | rfl | rfl
  · norm_num
  · norm_num
  · norm_num
  · norm_num
  · norm_num
  · norm_num

theorem prime_28181 : Nat.Prime 28181 := by
  refine prime_of_lucasWitness _ 2 [2, 2, 5, 1409] (by decide) (by decide) (fun q hq => ?_) (lucasWitness_certificate 21 rfl)
  simp only [List.mem_cons, List.not_mem_nil, or_false] at hq
  rcases hq with rfl | rfl | rfl | rfl
  · norm_num
  · norm_num
  · norm_num
  · norm_num

theorem prime_545358713 : Nat.Prime 545358713 := by
  refine prime_of_lucasWitness _ 5 [2, 2, 2, 41, 59, 28181] (by decide) (by decide) (fun q hq => ?_) (lucasWitness_certificate 22 rfl)
  simp only [List.mem_cons, List.not_mem_nil, or_false] at hq
  rcases hq with rfl | rfl | rfl | rfl | rfl | rfl
  · norm_num
  · norm_num
  · norm_num
  · norm_num
  · norm_num
  · exact prime_28181

theorem prime_1627771 : Nat.Prime 1627771 := by
  refine prime_of_lucasWitness _ 3 [2, 3, 5, 29, 1871] (by decide) (by decide) (fun q hq => ?_) (lucasWitness_certificate 23 rfl)
  simp only [List.mem_cons, List.not_mem_nil, or_false] at hq
  rcases hq with rfl | rfl | rfl | rfl | rfl
  · norm_num
  · norm_num
  · norm_num
  · norm_num
  · norm_num

theorem prime_297159362677 : Nat.Prime 297159362677 := by
  refine prime_of_lucasWitness _ 2 [2, 2, 3, 3, 11, 461, 1627771] (by decide) (by decide) (fun q hq => ?_) (lucasWitness_certificate 24 rfl)
  simp only [List.mem_cons, List.not_mem_nil, or_false] at hq
  rcases hq with rfl | rfl | rfl | rfl | rfl | rfl | rfl
  · norm_num
  · norm_num
  · norm_num
  · norm_num
  · norm_num
  · norm_num
  · exact prime_1627771

theorem prime_29047611873442575647497758179 : Nat.Prime 29047611873442575647497758179 := by
  refine prime_of_lucasWitness _ 2 [2, 293, 305873, 545358713, 297159362677] (by decide) (by decide) (fun q hq => ?_) (lucasWitness_certificate 25 rfl)
  simp only [List.mem_cons, List.not_mem_nil, or_false] at hq
  rcases hq with rfl | rfl | rfl | rfl | rfl
  · norm_num
  · norm_num
  · exact prime_305873
  · exact prime_545358713
  · exact prime_297159362677

theorem prime_341948486974166000522343609283189 : Nat.Prime 341948486974166000522343609283189 := by
  refine prime_of_lucasWitness _ 2 [2, 2, 3, 3, 3, 109, 29047611873442575647497758179] (by decide) (by decide) (fun q hq => ?_) (lucasWitness_certificate 26 rfl)
  simp only [List.mem_cons, List.not_mem_nil, or_false] at hq
  rcases hq with rfl | rfl | rfl | rfl | rfl | rfl | rfl
  · norm_num
  · norm_num
  · norm_num
  · norm_num
  · norm_num
  · norm_num
  · exact prime_29047611873442575647497758179

theorem orderN_prime : Nat.Prime orderN := by
  refine prime_of_lucasWitness _ 7 [2, 2, 2, 2, 2, 2, 3, 149, 631, 107361793816595537, 174723607534414371449, 341948486974166000522343609283189] (by decide) (by decide) (fun q hq => ?_) (lucasWitness_certificate 27 rfl)
  simp only [List.mem_cons, List.not_mem_nil, or_false] at hq
  rcases hq with rfl | rfl | rfl | rfl | rfl | rfl | rfl | rfl | rfl | rfl | rfl | rfl
  · norm_num
  · norm_num
  · norm_num
  · norm_num
  · norm_num
  · norm_num
  · norm_num
  · norm_num
  · norm_num
  · exact prime_107361793816595537
  · exact prime_174723607534414371449
  · exact prime_341948486974166000522343609283189

end Sys2Proof.Machine
end

