-- ==== Sys2Proof/Laws/Arith.lean ====
section
/-! SUPPORT. The field unit's results: the exact value of each, and that it lies below p (40_field R78 to R82). -/

namespace Sys2Proof.Machine

theorem primeP_lt : primeP < 2 ^ 256 := by decide

theorem orderN_lt : orderN < 2 ^ 256 := by decide

/-- `mod p` lies in [0, p). -/
theorem modP_lt (z : Int) : modP z < primeP := by
  have h1 : (0 : Int) < primeP := by decide
  have h2 := Int.emod_lt_of_pos z h1
  have h3 := Int.emod_nonneg z (ne_of_gt h1)
  unfold modP
  omega

/-- `mod p` as an integer. -/
theorem modP_eq (z : Int) : (modP z : Int) = z % primeP := by
  have h1 : (primeP : Int) ≠ 0 := by decide
  unfold modP
  rw [Int.toNat_of_nonneg (Int.emod_nonneg z h1)]

theorem modP_natCast (n : Nat) : modP (n : Int) = n % primeP := by
  have := modP_eq (n : Int)
  exact_mod_cast this

theorem modP_of_lt (n : Nat) (h : n < primeP) : modP (n : Int) = n := by rw [modP_natCast, Nat.mod_eq_of_lt h]

/-- `mod p` as an element of the prime field. -/
theorem modP_cast (z : Int) : ((modP z : Nat) : ZMod primeP) = (z : ZMod primeP) := by
  have h : ((modP z : Int) : ZMod primeP) = (z : ZMod primeP) := by
    rw [modP_eq, ZMod.intCast_eq_intCast_iff, Int.ModEq, Int.emod_emod_of_dvd _ (dvd_refl _)]
  exact_mod_cast h

/-- A value below p fits a register: narrowing it loses nothing. -/
theorem toNat_ofNat_of_lt {v : Nat} (h : v < primeP) : (BitVec.ofNat 256 v).toNat = v := by
  have := primeP_lt
  rw [BitVec.toNat_ofNat, Nat.mod_eq_of_lt (lt_trans h this)]

theorem toNat_fieldAdd (a b : Wide) : (fieldAdd a b).toNat = (a.toNat + b.toNat) % primeP := by
  rw [fieldAdd, toNat_ofNat_of_lt (modP_lt _)]
  exact_mod_cast modP_natCast (a.toNat + b.toNat)

theorem toNat_fieldSub (a b : Wide) : ((fieldSub a b).toNat : Int) = ((a.toNat : Int) - b.toNat) % primeP := by
  rw [fieldSub, toNat_ofNat_of_lt (modP_lt _), modP_eq]

theorem toNat_fieldMul (a b : Wide) : (fieldMul a b).toNat = a.toNat * b.toNat % primeP := by
  rw [fieldMul, toNat_ofNat_of_lt (modP_lt _)]
  exact_mod_cast modP_natCast (a.toNat * b.toNat)

/-- The squaring loop computes the power. -/
theorem powModP_eq : ∀ k b e : Nat, e < 2 ^ k → powModP k b e = b ^ e % primeP
  | 0, b, e, h => by
    have h0 : e = 0 := by simpa using h
    have h1 : 1 % primeP = 1 := by decide
    rw [h0, powModP, pow_zero, h1]
  | k + 1, b, e, h => by
    have h2 : e / 2 < 2 ^ k := by rw [pow_succ] at h; omega
    have ih := powModP_eq k (b * b % primeP) (e / 2) h2
    have sq : (b * b % primeP) ^ (e / 2) % primeP = b ^ (2 * (e / 2)) % primeP := by
      rw [← Nat.pow_mod, ← pow_two, ← pow_mul]
    rw [powModP, ih, sq]
    split
    · next he =>
      have h3 : e = 2 * (e / 2) + 1 := by omega
      conv_rhs => rw [h3, pow_succ]
      rw [Nat.mul_mod, Nat.mod_mod, ← Nat.mul_mod, Nat.mul_comm]
    · next he =>
      have h3 : e = 2 * (e / 2) := by omega
      conv_rhs => rw [h3]

/-- `FINV` is the power p - 2 (40_field R82). -/
theorem invModP_eq (z : Int) : invModP z = modP z ^ (primeP - 2) % primeP :=
  powModP_eq 256 _ _ (by decide)

theorem invModP_lt (z : Int) : invModP z < primeP := by
  rw [invModP_eq]
  exact Nat.mod_lt _ (by decide)

theorem toNat_fieldInv (a : Wide) : (fieldInv a).toNat = (a.toNat % primeP) ^ (primeP - 2) % primeP := by
  rw [fieldInv, toNat_ofNat_of_lt (invModP_lt _), invModP_eq, modP_natCast]

end Sys2Proof.Machine
end

