-- ==== Sys2Proof/Laws/Bytes.lean ====
section
/-! SUPPORT. Byte encodings of integers: lengths, bounds, and that decoding an encoding gives the integer back
(00_scope R10). -/

namespace Sys2Proof.Machine

@[simp] theorem length_leBytes : ∀ k v : Nat, (leBytes k v).length = k
  | 0, _ => rfl
  | k + 1, v => by simp [leBytes, length_leBytes k]

@[simp] theorem length_beBytes (k v : Nat) : (beBytes k v).length = k := by simp [beBytes]

/-- An encoding of k bytes decodes to the integer modulo 256^k. -/
theorem leInt_leBytes : ∀ k v : Nat, leInt (leBytes k v) = v % 256 ^ k
  | 0, v => by simp [leBytes, leInt, Nat.mod_one]
  | k + 1, v => by
    have h : 256 ^ (k + 1) = 256 * 256 ^ k := by rw [pow_succ, Nat.mul_comm]
    rw [leBytes, leInt, leInt_leBytes k, BitVec.toNat_ofNat, h, Nat.mod_mul]

theorem beInt_beBytes (k v : Nat) : beInt (beBytes k v) = v % 256 ^ k := by
  simp [beInt, beBytes, leInt_leBytes]

theorem leInt_lt : ∀ bs : List Byte, leInt bs < 256 ^ bs.length
  | [] => by simp [leInt]
  | b :: bs => by
    have h := leInt_lt bs
    have hb : b.toNat < 256 := b.isLt
    rw [leInt, List.length_cons, pow_succ]
    omega

theorem beInt_lt (bs : List Byte) : beInt bs < 256 ^ bs.length := by
  have := leInt_lt bs.reverse
  simpa [beInt] using this

/-- Encoding what was decoded gives the bytes back. -/
theorem leBytes_leInt : ∀ bs : List Byte, leBytes bs.length (leInt bs) = bs
  | [] => rfl
  | b :: bs => by
    have hb : b.toNat < 256 := b.isLt
    have h1 : (b.toNat + 256 * leInt bs) / 256 = leInt bs := by omega
    rw [List.length_cons, leInt, leBytes, h1, leBytes_leInt bs]
    congr 1
    apply BitVec.eq_of_toNat_eq
    rw [BitVec.toNat_ofNat]
    omega

theorem beBytes_beInt (bs : List Byte) : beBytes bs.length (beInt bs) = bs := by
  have h := leBytes_leInt bs.reverse
  rw [List.length_reverse] at h
  rw [beBytes, beInt, h, List.reverse_reverse]

/-- The big-endian reading of a sequence and one more byte. -/
theorem leInt_append : ∀ (xs ys : List Byte), leInt (xs ++ ys) = leInt xs + 256 ^ xs.length * leInt ys
  | [], ys => by simp [leInt]
  | x :: xs, ys => by
    rw [List.cons_append, leInt, leInt_append xs ys, leInt, List.length_cons, pow_succ]
    ring

theorem beInt_append (xs ys : List Byte) : beInt (xs ++ ys) = beInt xs * 256 ^ ys.length + beInt ys := by
  rw [beInt, List.reverse_append, leInt_append, List.length_reverse]
  simp [beInt]
  ring

@[simp] theorem length_chunks {α : Type} (k : Nat) : ∀ (n : Nat) (l : List α), (chunks k n l).length = n
  | 0, _ => rfl
  | n + 1, l => by simp [chunks, length_chunks k n]

end Sys2Proof.Machine
end

