-- ==== Sys2Proof/Laws/Hash.lean ====
section
/-! SUPPORT. Lengths of the digests and of the payloads (42_hash R102, R107, R113 to R116; 43_base58 R127, R128). -/

namespace Sys2Proof.Machine

@[simp] theorem length_sha256 (m : List Byte) : (sha256 m).length = 32 := by simp [sha256, shaOutput]

@[simp] theorem length_sha256d (m : List Byte) : (sha256d m).length = 32 := length_sha256 _

@[simp] theorem length_checksum (m : List Byte) : (checksum m).length = 4 := by simp [checksum]

@[simp] theorem length_ripemd160 (m : List Byte) : (ripemd160 m).length = 20 := by simp [ripemd160, rmdOutput]

@[simp] theorem length_hash160 (m : List Byte) : (hash160 m).length = 20 := length_ripemd160 _

@[simp] theorem length_wifPayload (k : Nat) : (wifPayload k).length = 34 := by simp [wifPayload]

@[simp] theorem length_addrPayload (q : Point) : (addrPayload q).length = 21 := by simp [addrPayload]

end Sys2Proof.Machine
end

