-- ==== Sys2Proof/Laws/Base58.lean ====
section
/-! SUPPORT. The Base58 codec: its digits are those of the integer, and how long its output is (43_base58 R123). -/

namespace Sys2Proof.Machine

/-- With enough fuel the digits are the base-58 digits of the integer. -/
theorem digits58_eq : ∀ fuel v : Nat, v < 58 ^ fuel → digits58 fuel v = Nat.digits 58 v
  | 0, v, h => by
    have h0 : v = 0 := by simpa using h
    simp [digits58, h0]
  | fuel + 1, v, h => by
    rw [digits58]
    split
    · next h0 => simp [h0]
    · next h0 =>
      have h1 : v / 58 < 58 ^ fuel := by rw [pow_succ] at h; omega
      rw [digits58_eq fuel _ h1, Nat.digits_def' (by decide) (Nat.pos_of_ne_zero h0)]

/-- The codec without its fuel: two base-58 digits a byte are always enough. -/
theorem base58_eq (data : List Byte) : base58 data =
    List.replicate (leadingZeros data) (alphaByte 0) ++ ((Nat.digits 58 (beInt data)).map alphaByte).reverse := by
  have h1 := beInt_lt data
  have h2 : 256 ^ data.length ≤ 58 ^ (2 * data.length) := by
    rw [pow_mul]
    exact Nat.pow_le_pow_left (by decide) _
  rw [base58, digits58_eq _ _ (Nat.lt_of_lt_of_le h1 h2)]

theorem length_base58 (data : List Byte) :
    (base58 data).length = leadingZeros data + (Nat.digits 58 (beInt data)).length := by
  simp [base58_eq]

@[simp] theorem leadingZeros_nil : leadingZeros [] = 0 := rfl

@[simp] theorem leadingZeros_zero (bs : List Byte) : leadingZeros (0#8 :: bs) = leadingZeros bs + 1 := by
  simp [leadingZeros]

theorem leadingZeros_of_ne {b : Byte} (bs : List Byte) (h : b ≠ 0) : leadingZeros (b :: bs) = 0 := by
  have h' : (b == 0) = false := by simpa using h
  simp only [leadingZeros, List.takeWhile_cons, h', Bool.false_eq_true, if_false, List.length_nil]

theorem beInt_cons (b : Byte) (bs : List Byte) : beInt (b :: bs) = b.toNat * 256 ^ bs.length + beInt bs := by
  have := beInt_append [b] bs
  simpa [beInt, leInt] using this

theorem leadingZeros_le : ∀ bs : List Byte, leadingZeros bs ≤ bs.length
  | [] => by simp
  | b :: bs => by
    by_cases h : b = 0#8
    · subst h
      have := leadingZeros_le bs
      simpa using this
    · rw [leadingZeros_of_ne bs h]
      omega

/-- The integer is below 256 to the number of bytes after the leading zeros. -/
theorem beInt_lt_leadingZeros : ∀ bs : List Byte, beInt bs < 256 ^ (bs.length - leadingZeros bs)
  | [] => by simp [beInt, leInt]
  | b :: bs => by
    by_cases h : b = 0#8
    · subst h
      have := beInt_lt_leadingZeros bs
      rw [leadingZeros_zero, List.length_cons, beInt_cons]
      simpa using this
    · rw [leadingZeros_of_ne bs h]
      exact beInt_lt (b :: bs)

/-- Where some byte is not 0, the integer is at least 256 to one less. -/
theorem le_beInt_leadingZeros : ∀ bs : List Byte, leadingZeros bs < bs.length →
    256 ^ (bs.length - leadingZeros bs - 1) ≤ beInt bs
  | [], h => by simp at h
  | b :: bs, h => by
    by_cases hb : b = 0#8
    · subst hb
      rw [leadingZeros_zero, List.length_cons] at h ⊢
      have := le_beInt_leadingZeros bs (by omega)
      rw [beInt_cons]
      simpa using this
    · rw [leadingZeros_of_ne bs hb, beInt_cons, List.length_cons]
      have h1 : 1 ≤ b.toNat := by
        rcases Nat.eq_zero_or_pos b.toNat with h0 | h0
        · exact absurd (BitVec.eq_of_toNat_eq h0) hb
        · exact h0
      have h2 := Nat.mul_le_mul_right (256 ^ bs.length) h1
      simp only [Nat.add_sub_cancel, Nat.sub_zero]
      omega

/-- How many base-58 digits an integer has. -/
theorem length_digits58_of_bounds {v k : Nat} (h1 : 58 ^ k ≤ v) (h2 : v < 58 ^ (k + 1)) :
    (Nat.digits 58 v).length = k + 1 := by
  have hv : v ≠ 0 := by
    have := Nat.pos_of_ne_zero (pow_ne_zero k (by decide : (58 : Nat) ≠ 0))
    omega
  rw [Nat.length_digits 58 v (by decide) hv, Nat.log_eq_of_pow_le_of_lt_pow h1 h2]

end Sys2Proof.Machine
end

