-- ==== Sys2Proof/Laws/State.lean ====
section
/-! SUPPORT. What each named update of the state does to each field: one lemma a field an update, true by `rfl`. -/

namespace Sys2Proof.Machine

variable (s : State)

/-! ### `State.raiseError` -/

@[simp] theorem State.raiseError_w (e : CmdError) : (s.raiseError e).w = s.w := rfl
@[simp] theorem State.raiseError_p (e : CmdError) : (s.raiseError e).p = s.p := rfl
@[simp] theorem State.raiseError_lmem (e : CmdError) : (s.raiseError e).lmem = s.lmem := rfl
@[simp] theorem State.raiseError_pending (e : CmdError) : (s.raiseError e).pending = none := rfl
@[simp] theorem State.raiseError_remaining (e : CmdError) : (s.raiseError e).remaining = 0 := rfl
@[simp] theorem State.raiseError_cmd (e : CmdError) : (s.raiseError e).cmd = s.cmd := rfl
@[simp] theorem State.raiseError_done (e : CmdError) : (s.raiseError e).done = true := rfl
@[simp] theorem State.raiseError_err (e : CmdError) : (s.raiseError e).err = true := rfl
@[simp] theorem State.raiseError_inf (e : CmdError) : (s.raiseError e).inf = s.inf := rfl
@[simp] theorem State.raiseError_ovr (e : CmdError) : (s.raiseError e).ovr = s.ovr := rfl
@[simp] theorem State.raiseError_errCode (e : CmdError) : (s.raiseError e).errCode = e.code := rfl
@[simp] theorem State.raiseError_doneIe (e : CmdError) : (s.raiseError e).doneIe = s.doneIe := rfl
@[simp] theorem State.raiseError_srcAddr (e : CmdError) : (s.raiseError e).srcAddr = s.srcAddr := rfl
@[simp] theorem State.raiseError_srcLen (e : CmdError) : (s.raiseError e).srcLen = s.srcLen := rfl
@[simp] theorem State.raiseError_dstAddr (e : CmdError) : (s.raiseError e).dstAddr = s.dstAddr := rfl
@[simp] theorem State.raiseError_resLen (e : CmdError) : (s.raiseError e).resLen = s.resLen := rfl
@[simp] theorem State.raiseError_inputs (e : CmdError) : (s.raiseError e).inputs = s.inputs := rfl
@[simp] theorem State.raiseError_responses (e : CmdError) : (s.raiseError e).responses = s.responses := rfl
@[simp] theorem State.raiseError_draws (e : CmdError) : (s.raiseError e).draws = s.draws := rfl

/-! ### `State.writeStatus` -/

@[simp] theorem State.writeStatus_w (v : Word) : (s.writeStatus v).w = s.w := rfl
@[simp] theorem State.writeStatus_p (v : Word) : (s.writeStatus v).p = s.p := rfl
@[simp] theorem State.writeStatus_lmem (v : Word) : (s.writeStatus v).lmem = s.lmem := rfl
@[simp] theorem State.writeStatus_pending (v : Word) : (s.writeStatus v).pending = s.pending := rfl
@[simp] theorem State.writeStatus_remaining (v : Word) : (s.writeStatus v).remaining = s.remaining := rfl
@[simp] theorem State.writeStatus_cmd (v : Word) : (s.writeStatus v).cmd = s.cmd := rfl
@[simp] theorem State.writeStatus_done (v : Word) : (s.writeStatus v).done = (s.done && !v.getLsbD 1) := rfl
@[simp] theorem State.writeStatus_err (v : Word) : (s.writeStatus v).err = (s.err && !v.getLsbD 2) := rfl
@[simp] theorem State.writeStatus_inf (v : Word) : (s.writeStatus v).inf = s.inf := rfl
@[simp] theorem State.writeStatus_ovr (v : Word) : (s.writeStatus v).ovr = (s.ovr && !v.getLsbD 4) := rfl
@[simp] theorem State.writeStatus_errCode (v : Word) : (s.writeStatus v).errCode = (if v.getLsbD 2 then 0 else s.errCode) := rfl
@[simp] theorem State.writeStatus_doneIe (v : Word) : (s.writeStatus v).doneIe = s.doneIe := rfl
@[simp] theorem State.writeStatus_srcAddr (v : Word) : (s.writeStatus v).srcAddr = s.srcAddr := rfl
@[simp] theorem State.writeStatus_srcLen (v : Word) : (s.writeStatus v).srcLen = s.srcLen := rfl
@[simp] theorem State.writeStatus_dstAddr (v : Word) : (s.writeStatus v).dstAddr = s.dstAddr := rfl
@[simp] theorem State.writeStatus_resLen (v : Word) : (s.writeStatus v).resLen = s.resLen := rfl
@[simp] theorem State.writeStatus_inputs (v : Word) : (s.writeStatus v).inputs = s.inputs := rfl
@[simp] theorem State.writeStatus_responses (v : Word) : (s.writeStatus v).responses = s.responses := rfl
@[simp] theorem State.writeStatus_draws (v : Word) : (s.writeStatus v).draws = s.draws := rfl

/-! ### `State.accept` -/

@[simp] theorem State.accept_w (v : Word) (n : Nat) : (s.accept v n).w = s.w := rfl
@[simp] theorem State.accept_p (v : Word) (n : Nat) : (s.accept v n).p = s.p := rfl
@[simp] theorem State.accept_lmem (v : Word) (n : Nat) : (s.accept v n).lmem = s.lmem := rfl
@[simp] theorem State.accept_pending (v : Word) (n : Nat) : (s.accept v n).pending = some v := rfl
@[simp] theorem State.accept_remaining (v : Word) (n : Nat) : (s.accept v n).remaining = n := rfl
@[simp] theorem State.accept_cmd (v : Word) (n : Nat) : (s.accept v n).cmd = v := rfl
@[simp] theorem State.accept_done (v : Word) (n : Nat) : (s.accept v n).done = false := rfl
@[simp] theorem State.accept_err (v : Word) (n : Nat) : (s.accept v n).err = false := rfl
@[simp] theorem State.accept_inf (v : Word) (n : Nat) : (s.accept v n).inf = s.inf := rfl
@[simp] theorem State.accept_ovr (v : Word) (n : Nat) : (s.accept v n).ovr = s.ovr := rfl
@[simp] theorem State.accept_errCode (v : Word) (n : Nat) : (s.accept v n).errCode = 0 := rfl
@[simp] theorem State.accept_doneIe (v : Word) (n : Nat) : (s.accept v n).doneIe = s.doneIe := rfl
@[simp] theorem State.accept_srcAddr (v : Word) (n : Nat) : (s.accept v n).srcAddr = s.srcAddr := rfl
@[simp] theorem State.accept_srcLen (v : Word) (n : Nat) : (s.accept v n).srcLen = s.srcLen := rfl
@[simp] theorem State.accept_dstAddr (v : Word) (n : Nat) : (s.accept v n).dstAddr = s.dstAddr := rfl
@[simp] theorem State.accept_resLen (v : Word) (n : Nat) : (s.accept v n).resLen = s.resLen := rfl
@[simp] theorem State.accept_inputs (v : Word) (n : Nat) : (s.accept v n).inputs = s.inputs := rfl
@[simp] theorem State.accept_responses (v : Word) (n : Nat) : (s.accept v n).responses = s.responses := rfl
@[simp] theorem State.accept_draws (v : Word) (n : Nat) : (s.accept v n).draws = s.draws := rfl

/-! ### `State.dropWrite` -/

@[simp] theorem State.dropWrite_w : (s.dropWrite).w = s.w := rfl
@[simp] theorem State.dropWrite_p : (s.dropWrite).p = s.p := rfl
@[simp] theorem State.dropWrite_lmem : (s.dropWrite).lmem = s.lmem := rfl
@[simp] theorem State.dropWrite_pending : (s.dropWrite).pending = s.pending := rfl
@[simp] theorem State.dropWrite_remaining : (s.dropWrite).remaining = s.remaining := rfl
@[simp] theorem State.dropWrite_cmd : (s.dropWrite).cmd = s.cmd := rfl
@[simp] theorem State.dropWrite_done : (s.dropWrite).done = s.done := rfl
@[simp] theorem State.dropWrite_err : (s.dropWrite).err = s.err := rfl
@[simp] theorem State.dropWrite_inf : (s.dropWrite).inf = s.inf := rfl
@[simp] theorem State.dropWrite_ovr : (s.dropWrite).ovr = true := rfl
@[simp] theorem State.dropWrite_errCode : (s.dropWrite).errCode = s.errCode := rfl
@[simp] theorem State.dropWrite_doneIe : (s.dropWrite).doneIe = s.doneIe := rfl
@[simp] theorem State.dropWrite_srcAddr : (s.dropWrite).srcAddr = s.srcAddr := rfl
@[simp] theorem State.dropWrite_srcLen : (s.dropWrite).srcLen = s.srcLen := rfl
@[simp] theorem State.dropWrite_dstAddr : (s.dropWrite).dstAddr = s.dstAddr := rfl
@[simp] theorem State.dropWrite_resLen : (s.dropWrite).resLen = s.resLen := rfl
@[simp] theorem State.dropWrite_inputs : (s.dropWrite).inputs = s.inputs := rfl
@[simp] theorem State.dropWrite_responses : (s.dropWrite).responses = s.responses := rfl
@[simp] theorem State.dropWrite_draws : (s.dropWrite).draws = s.draws := rfl

/-! ### `State.respond` -/

@[simp] theorem State.respond_w (r : Response) : (s.respond r).w = s.w := rfl
@[simp] theorem State.respond_p (r : Response) : (s.respond r).p = s.p := rfl
@[simp] theorem State.respond_lmem (r : Response) : (s.respond r).lmem = s.lmem := rfl
@[simp] theorem State.respond_pending (r : Response) : (s.respond r).pending = s.pending := rfl
@[simp] theorem State.respond_remaining (r : Response) : (s.respond r).remaining = s.remaining := rfl
@[simp] theorem State.respond_cmd (r : Response) : (s.respond r).cmd = s.cmd := rfl
@[simp] theorem State.respond_done (r : Response) : (s.respond r).done = s.done := rfl
@[simp] theorem State.respond_err (r : Response) : (s.respond r).err = s.err := rfl
@[simp] theorem State.respond_inf (r : Response) : (s.respond r).inf = s.inf := rfl
@[simp] theorem State.respond_ovr (r : Response) : (s.respond r).ovr = s.ovr := rfl
@[simp] theorem State.respond_errCode (r : Response) : (s.respond r).errCode = s.errCode := rfl
@[simp] theorem State.respond_doneIe (r : Response) : (s.respond r).doneIe = s.doneIe := rfl
@[simp] theorem State.respond_srcAddr (r : Response) : (s.respond r).srcAddr = s.srcAddr := rfl
@[simp] theorem State.respond_srcLen (r : Response) : (s.respond r).srcLen = s.srcLen := rfl
@[simp] theorem State.respond_dstAddr (r : Response) : (s.respond r).dstAddr = s.dstAddr := rfl
@[simp] theorem State.respond_resLen (r : Response) : (s.respond r).resLen = s.resLen := rfl
@[simp] theorem State.respond_inputs (r : Response) : (s.respond r).inputs = s.inputs := rfl
@[simp] theorem State.respond_responses (r : Response) : (s.respond r).responses = r :: s.responses := rfl
@[simp] theorem State.respond_draws (r : Response) : (s.respond r).draws = s.draws := rfl

/-! ### `State.resetBlock` -/

@[simp] theorem State.resetBlock_w : (s.resetBlock).w = State.reset.w := rfl
@[simp] theorem State.resetBlock_p : (s.resetBlock).p = State.reset.p := rfl
@[simp] theorem State.resetBlock_lmem : (s.resetBlock).lmem = State.reset.lmem := rfl
@[simp] theorem State.resetBlock_pending : (s.resetBlock).pending = State.reset.pending := rfl
@[simp] theorem State.resetBlock_remaining : (s.resetBlock).remaining = State.reset.remaining := rfl
@[simp] theorem State.resetBlock_cmd : (s.resetBlock).cmd = State.reset.cmd := rfl
@[simp] theorem State.resetBlock_done : (s.resetBlock).done = State.reset.done := rfl
@[simp] theorem State.resetBlock_err : (s.resetBlock).err = State.reset.err := rfl
@[simp] theorem State.resetBlock_inf : (s.resetBlock).inf = State.reset.inf := rfl
@[simp] theorem State.resetBlock_ovr : (s.resetBlock).ovr = State.reset.ovr := rfl
@[simp] theorem State.resetBlock_errCode : (s.resetBlock).errCode = State.reset.errCode := rfl
@[simp] theorem State.resetBlock_doneIe : (s.resetBlock).doneIe = State.reset.doneIe := rfl
@[simp] theorem State.resetBlock_srcAddr : (s.resetBlock).srcAddr = State.reset.srcAddr := rfl
@[simp] theorem State.resetBlock_srcLen : (s.resetBlock).srcLen = State.reset.srcLen := rfl
@[simp] theorem State.resetBlock_dstAddr : (s.resetBlock).dstAddr = State.reset.dstAddr := rfl
@[simp] theorem State.resetBlock_resLen : (s.resetBlock).resLen = State.reset.resLen := rfl
@[simp] theorem State.resetBlock_inputs : (s.resetBlock).inputs = s.inputs := rfl
@[simp] theorem State.resetBlock_responses : (s.resetBlock).responses = s.responses := rfl
@[simp] theorem State.resetBlock_draws : (s.resetBlock).draws = s.draws := rfl

/-! ### `State.commit` -/

@[simp] theorem State.commit_w (st : Staged) : (s.commit st).w = (match st.w with | some (r, v) => setW s.w r v | none => s.w) := rfl
@[simp] theorem State.commit_p (st : Staged) : (s.commit st).p = (match st.p with | some (r, q) => setP s.p r q | none => s.p) := rfl
@[simp] theorem State.commit_lmem (st : Staged) : (s.commit st).lmem = (match st.mem with | some (a, bs) => s.lmem.writeBytes a bs | none => s.lmem) := rfl
@[simp] theorem State.commit_pending (st : Staged) : (s.commit st).pending = none := rfl
@[simp] theorem State.commit_remaining (st : Staged) : (s.commit st).remaining = 0 := rfl
@[simp] theorem State.commit_cmd (st : Staged) : (s.commit st).cmd = s.cmd := rfl
@[simp] theorem State.commit_done (st : Staged) : (s.commit st).done = true := rfl
@[simp] theorem State.commit_err (st : Staged) : (s.commit st).err = false := rfl
@[simp] theorem State.commit_inf (st : Staged) : (s.commit st).inf = st.inf.getD s.inf := rfl
@[simp] theorem State.commit_ovr (st : Staged) : (s.commit st).ovr = s.ovr := rfl
@[simp] theorem State.commit_errCode (st : Staged) : (s.commit st).errCode = 0 := rfl
@[simp] theorem State.commit_doneIe (st : Staged) : (s.commit st).doneIe = s.doneIe := rfl
@[simp] theorem State.commit_srcAddr (st : Staged) : (s.commit st).srcAddr = s.srcAddr := rfl
@[simp] theorem State.commit_srcLen (st : Staged) : (s.commit st).srcLen = s.srcLen := rfl
@[simp] theorem State.commit_dstAddr (st : Staged) : (s.commit st).dstAddr = s.dstAddr := rfl
@[simp] theorem State.commit_resLen (st : Staged) : (s.commit st).resLen = st.resLen.getD s.resLen := rfl
@[simp] theorem State.commit_inputs (st : Staged) : (s.commit st).inputs = s.inputs := rfl
@[simp] theorem State.commit_responses (st : Staged) : (s.commit st).responses = s.responses := rfl
@[simp] theorem State.commit_draws (st : Staged) : (s.commit st).draws = s.draws := rfl

/-! ### `State.send` -/

@[simp] theorem State.send_w (es : List HostEvent) : (s.send es).w = s.w := rfl
@[simp] theorem State.send_p (es : List HostEvent) : (s.send es).p = s.p := rfl
@[simp] theorem State.send_lmem (es : List HostEvent) : (s.send es).lmem = s.lmem := rfl
@[simp] theorem State.send_pending (es : List HostEvent) : (s.send es).pending = s.pending := rfl
@[simp] theorem State.send_remaining (es : List HostEvent) : (s.send es).remaining = s.remaining := rfl
@[simp] theorem State.send_cmd (es : List HostEvent) : (s.send es).cmd = s.cmd := rfl
@[simp] theorem State.send_done (es : List HostEvent) : (s.send es).done = s.done := rfl
@[simp] theorem State.send_err (es : List HostEvent) : (s.send es).err = s.err := rfl
@[simp] theorem State.send_inf (es : List HostEvent) : (s.send es).inf = s.inf := rfl
@[simp] theorem State.send_ovr (es : List HostEvent) : (s.send es).ovr = s.ovr := rfl
@[simp] theorem State.send_errCode (es : List HostEvent) : (s.send es).errCode = s.errCode := rfl
@[simp] theorem State.send_doneIe (es : List HostEvent) : (s.send es).doneIe = s.doneIe := rfl
@[simp] theorem State.send_srcAddr (es : List HostEvent) : (s.send es).srcAddr = s.srcAddr := rfl
@[simp] theorem State.send_srcLen (es : List HostEvent) : (s.send es).srcLen = s.srcLen := rfl
@[simp] theorem State.send_dstAddr (es : List HostEvent) : (s.send es).dstAddr = s.dstAddr := rfl
@[simp] theorem State.send_resLen (es : List HostEvent) : (s.send es).resLen = s.resLen := rfl
@[simp] theorem State.send_inputs (es : List HostEvent) : 
    (s.send es).inputs = s.inputs ++ synchronised Config.kdbRstSync es := rfl
@[simp] theorem State.send_responses (es : List HostEvent) : (s.send es).responses = s.responses := rfl
@[simp] theorem State.send_draws (es : List HostEvent) : (s.send es).draws = s.draws := rfl

/-! ### `State.reset` -/

@[simp] theorem State.reset_w : State.reset.w = Vector.replicate 16 0 := rfl
@[simp] theorem State.reset_p : State.reset.p = Vector.replicate 4 Point.infinity := rfl
@[simp] theorem State.reset_lmem : State.reset.lmem = [] := rfl
@[simp] theorem State.reset_pending : State.reset.pending = none := rfl
@[simp] theorem State.reset_remaining : State.reset.remaining = 0 := rfl
@[simp] theorem State.reset_cmd : State.reset.cmd = 0 := rfl
@[simp] theorem State.reset_done : State.reset.done = false := rfl
@[simp] theorem State.reset_err : State.reset.err = false := rfl
@[simp] theorem State.reset_inf : State.reset.inf = false := rfl
@[simp] theorem State.reset_ovr : State.reset.ovr = false := rfl
@[simp] theorem State.reset_errCode : State.reset.errCode = 0 := rfl
@[simp] theorem State.reset_doneIe : State.reset.doneIe = false := rfl
@[simp] theorem State.reset_srcAddr : State.reset.srcAddr = 0 := rfl
@[simp] theorem State.reset_srcLen : State.reset.srcLen = 0 := rfl
@[simp] theorem State.reset_dstAddr : State.reset.dstAddr = 0 := rfl
@[simp] theorem State.reset_resLen : State.reset.resLen = 0 := rfl
@[simp] theorem State.reset_inputs : State.reset.inputs = [] := rfl
@[simp] theorem State.reset_responses : State.reset.responses = [] := rfl
@[simp] theorem State.reset_draws : State.reset.draws = 0 := rfl

/-! ### The register views -/

@[simp] theorem State.raiseError_readW (e : CmdError) (r : Field4) : (s.raiseError e).readW r = s.readW r := rfl
@[simp] theorem State.raiseError_readP (e : CmdError) (r : Field4) : (s.raiseError e).readP r = s.readP r := rfl
@[simp] theorem State.raiseError_busy (e : CmdError) : (s.raiseError e).busy = false := rfl
@[simp] theorem State.commit_busy (st : Staged) : (s.commit st).busy = false := rfl
@[simp] theorem State.accept_busy (v : Word) (n : Nat) : (s.accept v n).busy = true := rfl
@[simp] theorem State.resetBlock_busy : s.resetBlock.busy = false := rfl
@[simp] theorem State.respond_busy (r : Response) : (s.respond r).busy = s.busy := rfl
@[simp] theorem State.writeStatus_busy (v : Word) : (s.writeStatus v).busy = s.busy := rfl
@[simp] theorem State.dropWrite_busy : s.dropWrite.busy = s.busy := rfl

end Sys2Proof.Machine
end

