-- ==== Sys2Proof/Laws/Bus.lean ====
section
/-! SUPPORT. What a move of the block and the service of an event can do, each said once (10_state R40;
20_memory R49 to R61). -/

namespace Sys2Proof.Machine

/-- Every control-region offset past RES_LEN is reserved (10_state R22). -/
theorem ctlReg_reserved {off : Offset} (h : 0x024 ≤ off.toNat) : ctlReg off = .reserved := by
  unfold ctlReg
  have ne : ∀ k : Offset, k.toNat < 0x024 → off ≠ k := by
    rintro k hk rfl
    omega
  rw [if_neg (ne _ (by decide)), if_neg (ne _ (by decide)), if_neg (ne _ (by decide)), if_neg (ne _ (by decide)),
    if_neg (ne _ (by decide)), if_neg (ne _ (by decide)), if_neg (ne _ (by decide)), if_neg (ne _ (by decide)),
    if_neg (ne _ (by decide))]

/-- A legal access outside the LMEM window has 32-bit data (20_memory R50). -/
theorem legalAccess_control {off : Offset} {d : BusData} (hl : legalAccess off d.width = true)
    (hw : inWindow off = false) : ∃ v : Word, d = .b32 v := by
  cases d with
  | b8 v => simp [legalAccess, hw, BusData.width] at hl
  | b16 v => simp [legalAccess, hw, BusData.width] at hl
  | b32 v => exact ⟨v, rfl⟩

@[simp] theorem ofNat_b32 (v : Word) : BitVec.ofNat 32 (BusData.b32 v).toNat = v := by simp [BusData.toNat]

/-- An illegal access gets BUSERR and nothing else (20_memory R50 to R52). -/
theorem busRead_illegal {s : State} {off : Offset} {w : Width} (h : legalAccess off w = false) :
    s.busRead off w = s.respond .busErr := by
  simp [State.busRead, h]

theorem busWrite_illegal {s : State} {off : Offset} {d : BusData} (h : legalAccess off d.width = false) :
    s.busWrite off d = s.respond .busErr := by
  simp [State.busWrite, h]

theorem busRead_specified {s : State} {off : Offset} {w : Width} (h : legalAccess off w = true)
    (hb : (s.busy && unspecifiedWhenBusy off) = false) : s.busRead off w = s.respond (.data (s.readValue off w)) := by
  simp [State.busRead, h, hb]

theorem busWrite_legal {s : State} {off : Offset} {d : BusData} (h : legalAccess off d.width = true) :
    s.busWrite off d = (s.writeEffect off d).respond .ok := by
  simp [State.busWrite, h]

/-- All that a read can do: one response is given, and at most one free value is drawn. -/
theorem busRead_cases (s : State) (off : Offset) (w : Width) :
    ∃ (r : Response) (n : Nat), s.busRead off w = { s with draws := n, responses := r :: s.responses } := by
  unfold State.busRead
  split
  · split
    · exact ⟨_, _, rfl⟩
    · exact ⟨_, s.draws, rfl⟩
  · exact ⟨_, s.draws, rfl⟩

/-- All that the effect of a legal write can be (10_state R25, R32 to R37, R41; 20_memory R51;
70_reset_and_hazards R158). -/
theorem writeEffect_cases (s : State) (off : Offset) (d : BusData) :
    s.writeEffect off d = s ∨
    (s.busy = true ∧ s.writeEffect off d = s.dropWrite) ∨
    (s.busy = false ∧ inWindow off = true ∧
      s.writeEffect off d = { s with lmem := windowWrite s.lmem (windowAddr off) d }) ∨
    (s.busy = false ∧ ∃ v, s.writeEffect off d = s.accept v (s.latencyOf v)) ∨
    (∃ v, s.writeEffect off d = s.writeStatus v) ∨
    s.writeEffect off d = s.resetBlock ∨
    (∃ b, s.writeEffect off d = { s with doneIe := b }) ∨
    (s.busy = false ∧ ∃ v, s.writeEffect off d = { s with srcAddr := v }) ∨
    (s.busy = false ∧ ∃ v, s.writeEffect off d = { s with srcLen := v }) ∨
    (s.busy = false ∧ ∃ v, s.writeEffect off d = { s with dstAddr := v }) := by
  unfold State.writeEffect
  split
  · next hw =>
    cases hb : s.busy
    · simp [hw]
    · simp
  · cases ctlReg off
    case cmd =>
      cases hb : s.busy
      · simp only [State.writeReg, hb, Bool.false_eq_true, if_false]
        exact .inr (.inr (.inr (.inl ⟨trivial, _, rfl⟩)))
      · simp [State.writeReg, hb]
    case status => exact .inr (.inr (.inr (.inr (.inl ⟨_, rfl⟩))))
    case ctrl =>
      simp only [State.writeReg]
      split
      · simp
      · simp
    case ie => exact .inr (.inr (.inr (.inr (.inr (.inr (.inl ⟨_, rfl⟩))))))
    case srcAddr =>
      cases hb : s.busy
      · simp only [State.writeReg, hb, Bool.false_eq_true, if_false]
        exact .inr (.inr (.inr (.inr (.inr (.inr (.inr (.inl ⟨trivial, _, rfl⟩)))))))
      · simp [State.writeReg, hb]
    case srcLen =>
      cases hb : s.busy
      · simp only [State.writeReg, hb, Bool.false_eq_true, if_false]
        exact .inr (.inr (.inr (.inr (.inr (.inr (.inr (.inr (.inl ⟨trivial, _, rfl⟩))))))))
      · simp [State.writeReg, hb]
    case dstAddr =>
      cases hb : s.busy
      · simp only [State.writeReg, hb, Bool.false_eq_true, if_false]
        exact .inr (.inr (.inr (.inr (.inr (.inr (.inr (.inr (.inr ⟨trivial, _, rfl⟩))))))))
      · simp [State.writeReg, hb]
    all_goals exact .inl rfl

/-- All that a move with a next state can be: a completion, the service of the next event, or idling
(10_state R40, 20_memory R61). -/
theorem move_cases {s t : State} (h : s.move = .next t) :
    (∃ v, s.pending = some v ∧ (s.remaining = 0 ∨ s.inputs = []) ∧ s.complete v = .next t) ∨
    (∃ v n e es, s.pending = some v ∧ s.remaining = n + 1 ∧ s.inputs = e :: es ∧
      t = ({ s with remaining := n, inputs := es } : State).serve e) ∨
    (∃ e es, s.pending = none ∧ s.inputs = e :: es ∧ t = ({ s with inputs := es } : State).serve e) ∨
    (s.pending = none ∧ s.inputs = [] ∧ t = s) := by
  unfold State.move at h
  split at h
  · next v hp hr => exact .inl ⟨v, hp, .inl hr, h⟩
  · next v n hp hr hi => exact .inl ⟨v, hp, .inr hi, h⟩
  · next v n e es hp hr hi =>
    simp only [Host.Outcome.next.injEq] at h
    exact .inr (.inl ⟨v, n, e, es, hp, hr, hi, h.symm⟩)
  · next n e es hp hi =>
    simp only [Host.Outcome.next.injEq] at h
    exact .inr (.inr (.inl ⟨e, es, hp, hi, h.symm⟩))
  · next n hp hi =>
    simp only [Host.Outcome.next.injEq] at h
    exact .inr (.inr (.inr ⟨hp, hi, h.symm⟩))

theorem move_due {s : State} {v : Word} (hp : s.pending = some v) (hd : s.remaining = 0 ∨ s.inputs = []) :
    s.move = s.complete v := by
  unfold State.move
  rcases hd with h | h
  · rw [hp, h]
  · rcases hr : s.remaining with _ | n
    · rw [hp]
    · rw [hp, h]

theorem move_serve_busy {s : State} {v : Word} {n : Nat} {e : HostEvent} {es : List HostEvent} (hp : s.pending = some v)
    (hr : s.remaining = n + 1) (hi : s.inputs = e :: es) :
    s.move = .next (({ s with remaining := n, inputs := es } : State).serve e) := by
  unfold State.move
  rw [hp, hr, hi]

theorem move_serve_idle {s : State} {e : HostEvent} {es : List HostEvent} (hp : s.pending = none)
    (hi : s.inputs = e :: es) : s.move = .next (({ s with inputs := es } : State).serve e) := by
  unfold State.move
  rw [hp, hi]

/-- A run takes the step first. -/
theorem run_of_next {s t : State} (k : Nat) (h : step s = .next t) :
    Host.Core.run Sys2Proof.core (k + 1) s = Host.Core.run Sys2Proof.core k t := by
  have h' : Sys2Proof.core.step s = .next t := h
  simp only [Host.Core.run, h']

theorem move_idle {s : State} (hp : s.pending = none) (hi : s.inputs = []) : s.move = .next s := by
  unfold State.move
  rw [hp, hi]

/-- A pulse of the reset input that resets leaves the reset state (70_reset_and_hazards R157). -/
theorem serve_hwReset {s : State} {level : Bool} (h : (HostEvent.hwReset level).resets = true) :
    s.serve (.hwReset level) = s.resetBlock := by
  rw [State.serve, State.resetInput, if_pos (by simpa [HostEvent.resets] using h)]

/-- A pulse of the reset input to the other level changes nothing (log 7). -/
theorem serve_hwReset_inactive {s : State} {level : Bool} (h : (HostEvent.hwReset level).resets = false) :
    s.serve (.hwReset level) = s := by
  rw [State.serve, State.resetInput, if_neg (by simpa [HostEvent.resets] using h)]

/-- A pulse that waits behind transactions leaves them as they are. -/
theorem filter_delayReset (d : Nat) {e : HostEvent} (he : e.isTransaction = false) (es : List HostEvent) :
    (delayReset d e es).filter HostEvent.isTransaction = es.filter HostEvent.isTransaction := by
  fun_induction delayReset d e es with
  | case1 => simp [he]
  | case2 => simp [he]
  | case3 d e x es hx ih => simp [hx, ih he]
  | case4 d e x es hx => simp [he, hx]

/-- The synchronisation of the reset input keeps the host's transactions, in the host's order (20_memory R61; log 7). -/
theorem filter_synchronised (d : Nat) (es : List HostEvent) :
    (synchronised d es).filter HostEvent.isTransaction = es.filter HostEvent.isTransaction := by
  induction es with
  | nil => rfl
  | cons e es ih =>
    rw [synchronised]
    split
    · next h => simp [h, ih]
    · next h => rw [filter_delayReset d (by simpa using h), ih, List.filter_cons_of_neg (by simpa using h)]

end Sys2Proof.Machine
end

