-- ==== Sys2Proof/Laws/PerInstr.lean ====
section
/-! SUPPORT. The fields of an assembled command word, and per-command laws of the encoding (30_encoding R67, R70). -/

namespace Sys2Proof

/-! ### The fields of an assembled word -/

theorem assemble_getLsbD (opc : BitVec 8) (rd ra rb : Field4) (i : Nat) (h : i < 32) :
    (assemble opc rd ra rb).getLsbD i =
      if i < 8 then opc.getLsbD i
      else if i < 12 then rd.getLsbD (i - 8)
      else if i < 16 then ra.getLsbD (i - 12)
      else rb.getLsbD (i - 16) := by
  have ho : ∀ j, 8 ≤ j → opc.getLsbD j = false := fun j hj => BitVec.getLsbD_of_ge _ _ hj
  have hd : ∀ j, 4 ≤ j → rd.getLsbD j = false := fun j hj => BitVec.getLsbD_of_ge _ _ hj
  have ha : ∀ j, 4 ≤ j → ra.getLsbD j = false := fun j hj => BitVec.getLsbD_of_ge _ _ hj
  simp only [assemble, BitVec.getLsbD_or, BitVec.getLsbD_setWidth, BitVec.getLsbD_shiftLeft, h, decide_true, Bool.true_and]
  by_cases h1 : i < 8
  · have h2 : i < 12 := by omega
    have h3 : i < 16 := by omega
    simp [h1, h2, h3]
  · have hi8 : i - 8 < 32 := by omega
    have ho' := ho i (by omega)
    by_cases h2 : i < 12
    · have h3 : i < 16 := by omega
      simp [h1, h2, h3, ho', hi8]
    · have hd' := hd (i - 8) (by omega)
      have hi12 : i - 12 < 32 := by omega
      by_cases h3 : i < 16
      · simp [h1, h2, h3, ho', hd', hi8, hi12]
      · have ha' := ha (i - 12) (by omega)
        have hi16 : i - 16 < 32 := by omega
        simp [h1, h2, h3, ho', hd', ha', hi8, hi12, hi16]

@[simp] theorem opcField_assemble (opc : BitVec 8) (rd ra rb : Field4) : opcField (assemble opc rd ra rb) = opc := by
  apply BitVec.eq_of_getLsbD_eq
  intro i hi
  have h32 : 0 + i < 32 := by omega
  have h8 : 0 + i < 8 := by omega
  rw [opcField, BitVec.getLsbD_extractLsb', assemble_getLsbD _ _ _ _ _ h32]
  simp [hi]

@[simp] theorem rdField_assemble (opc : BitVec 8) (rd ra rb : Field4) : rdField (assemble opc rd ra rb) = rd := by
  apply BitVec.eq_of_getLsbD_eq
  intro i hi
  have h32 : 8 + i < 32 := by omega
  have h8 : ¬ 8 + i < 8 := by omega
  have h12 : 8 + i < 12 := by omega
  rw [rdField, BitVec.getLsbD_extractLsb', assemble_getLsbD _ _ _ _ _ h32]
  simp [h12, hi]

@[simp] theorem raField_assemble (opc : BitVec 8) (rd ra rb : Field4) : raField (assemble opc rd ra rb) = ra := by
  apply BitVec.eq_of_getLsbD_eq
  intro i hi
  have h32 : 12 + i < 32 := by omega
  have h8 : ¬ 12 + i < 8 := by omega
  have h16 : 12 + i < 16 := by omega
  rw [raField, BitVec.getLsbD_extractLsb', assemble_getLsbD _ _ _ _ _ h32]
  simp [h8, h16, hi]

@[simp] theorem rbField_assemble (opc : BitVec 8) (rd ra rb : Field4) : rbField (assemble opc rd ra rb) = rb := by
  apply BitVec.eq_of_getLsbD_eq
  intro i hi
  have h32 : 16 + i < 32 := by omega
  have h8 : ¬ 16 + i < 8 := by omega
  have h12 : ¬ 16 + i < 12 := by omega
  rw [rbField, BitVec.getLsbD_extractLsb', assemble_getLsbD _ _ _ _ _ h32]
  simp [h8, h12, hi]

@[simp] theorem rsvField_assemble (opc : BitVec 8) (rd ra rb : Field4) : rsvField (assemble opc rd ra rb) = 0 := by
  apply BitVec.eq_of_getLsbD_eq
  intro i hi
  have h32 : 20 + i < 32 := by omega
  have h8 : ¬ 20 + i < 8 := by omega
  have h12 : ¬ 20 + i < 12 := by omega
  have h16 : ¬ 20 + i < 16 := by omega
  have hb : rb.getLsbD (20 + i - 16) = false := BitVec.getLsbD_of_ge _ _ (by omega)
  rw [rsvField, BitVec.getLsbD_extractLsb', assemble_getLsbD _ _ _ _ _ h32]
  simp [h8, h12, h16, hb]

end Sys2Proof

/-! ### The fields of each command's word -/

namespace Sys2Proof.Laws.EncodedFields

/-- The fields of a command's word are the opcode and the operands of `assemble`, and RSV is 0. -/
def Statement (i : Instr) : Prop :=
  rsvField (encode i) = 0 ∧ encode i = assemble (opcField (encode i)) (rdField (encode i)) (raField (encode i)) (rbField (encode i))

theorem fadd (d a b : Field4) : Statement (.fadd d a b) := by simp [Statement, encode]
theorem fsub (d a b : Field4) : Statement (.fsub d a b) := by simp [Statement, encode]
theorem fmul (d a b : Field4) : Statement (.fmul d a b) := by simp [Statement, encode]
theorem finv (d a : Field4) : Statement (.finv d a) := by simp [Statement, encode]
theorem sval (a : Field4) : Statement (.sval a) := by simp [Statement, encode]
theorem padd (d a b : Field4) : Statement (.padd d a b) := by simp [Statement, encode]
theorem pdbl (d a : Field4) : Statement (.pdbl d a) := by simp [Statement, encode]
theorem smul (d a : Field4) : Statement (.smul d a) := by simp [Statement, encode]
theorem pcomp (a : Field4) : Statement (.pcomp a) := by simp [Statement, encode]
theorem pgen (d : Field4) : Statement (.pgen d) := by simp [Statement, encode]
theorem pinf (d : Field4) : Statement (.pinf d) := by simp [Statement, encode]
theorem pset (d a b : Field4) : Statement (.pset d a b) := by simp [Statement, encode]
theorem pgetx (d a : Field4) : Statement (.pgetx d a) := by simp [Statement, encode]
theorem pgety (d a : Field4) : Statement (.pgety d a) := by simp [Statement, encode]
theorem sha256 : Statement (.sha256) := by simp [Statement, encode]
theorem rmd160 : Statement (.rmd160) := by simp [Statement, encode]
theorem hash160 : Statement (.hash160) := by simp [Statement, encode]
theorem sha256d : Statement (.sha256d) := by simp [Statement, encode]
theorem cksum : Statement (.cksum) := by simp [Statement, encode]
theorem b58enc : Statement (.b58enc) := by simp [Statement, encode]
theorem b58chk : Statement (.b58chk) := by simp [Statement, encode]
theorem wif (a : Field4) : Statement (.wif a) := by simp [Statement, encode]
theorem addr (a : Field4) : Statement (.addr a) := by simp [Statement, encode]
theorem ldw (d : Field4) : Statement (.ldw d) := by simp [Statement, encode]
theorem stw (a : Field4) : Statement (.stw a) := by simp [Statement, encode]

end Sys2Proof.Laws.EncodedFields
end

