-- ==== Sys2Proof/Laws/Decode.lean ====
section
/-! SUPPORT. A command word is its five fields, and a row of the opcode map fits a word field by field
(30_encoding R67, R70). -/

namespace Sys2Proof

/-- Two words with the same OPC, RD, RA, RB and RSV are the same word. -/
theorem word_ext {v w : Word} (h0 : opcField v = opcField w) (h1 : rdField v = rdField w) (h2 : raField v = raField w)
    (h3 : rbField v = rbField w) (h4 : rsvField v = rsvField w) : v = w := by
  have get : ∀ (lo n : Nat) (x : Word) (i : Nat), i < n → (x.extractLsb' lo n).getLsbD i = x.getLsbD (lo + i) := by
    intro lo n x i hi
    rw [BitVec.getLsbD_extractLsb']
    simp [hi]
  have part : ∀ (lo n : Nat), v.extractLsb' lo n = w.extractLsb' lo n → ∀ i, lo ≤ i → i < lo + n →
      v.getLsbD i = w.getLsbD i := by
    intro lo n h i h1 h2
    have hv := get lo n v (i - lo) (by omega)
    have hw := get lo n w (i - lo) (by omega)
    have e : lo + (i - lo) = i := by omega
    rw [e] at hv hw
    rw [← hv, ← hw, h]
  apply BitVec.eq_of_getLsbD_eq
  intro i hi
  rcases (by omega : i < 8 ∨ (8 ≤ i ∧ i < 12) ∨ (12 ≤ i ∧ i < 16) ∨ (16 ≤ i ∧ i < 20) ∨ 20 ≤ i) with
    h | h | h | h | h
  · exact part 0 8 h0 i (by omega) (by omega)
  · exact part 8 4 h1 i h.1 h.2
  · exact part 12 4 h2 i h.1 h.2
  · exact part 16 4 h3 i h.1 h.2
  · exact part 20 12 h4 i h (by omega)

@[simp] theorem opcField_and (v w : Word) : opcField (v &&& w) = opcField v &&& opcField w := BitVec.extractLsb'_and
@[simp] theorem rdField_and (v w : Word) : rdField (v &&& w) = rdField v &&& rdField w := BitVec.extractLsb'_and
@[simp] theorem raField_and (v w : Word) : raField (v &&& w) = raField v &&& raField w := BitVec.extractLsb'_and
@[simp] theorem rbField_and (v w : Word) : rbField (v &&& w) = rbField v &&& rbField w := BitVec.extractLsb'_and
@[simp] theorem rsvField_and (v w : Word) : rsvField (v &&& w) = rsvField v &&& rsvField w := BitVec.extractLsb'_and

/-- A row fits a word where each field of the word agrees with the row's `match` under its mask. -/
theorem fits_iff (r : Row) (v : Word) : r.fits v = true ↔
    opcField v &&& opcField r.mask = opcField r.pat ∧ rdField v &&& rdField r.mask = rdField r.pat ∧
    raField v &&& raField r.mask = raField r.pat ∧ rbField v &&& rbField r.mask = rbField r.pat ∧
    rsvField v &&& rsvField r.mask = rsvField r.pat := by
  rw [Row.fits, beq_iff_eq]
  constructor
  · intro h
    rw [← h]
    simp
  · rintro ⟨h0, h1, h2, h3, h4⟩
    apply word_ext <;> simpa

/-- Every row fixes all of OPC and all of RSV, with RSV = 0. -/
theorem row_opc_rsv : ∀ r ∈ opcodeMap, opcField r.mask = 0xFF ∧ rsvField r.mask = 0xFFF ∧ rsvField r.pat = 0 := by
  decide

/-- The rows have different opcodes. -/
theorem row_opc_nodup : opcodeMap.Pairwise fun r r' => opcField r.pat ≠ opcField r'.pat := by decide

/-- A row of the map fits a word with its opcode, RSV = 0, and RD, RA and RB as its mask asks. -/
theorem row_fits_iff {r : Row} (hr : r ∈ opcodeMap) (v : Word) : r.fits v = true ↔
    opcField v = opcField r.pat ∧ rdField v &&& rdField r.mask = rdField r.pat ∧
    raField v &&& raField r.mask = raField r.pat ∧ rbField v &&& rbField r.mask = rbField r.pat ∧ rsvField v = 0 := by
  obtain ⟨h0, h1, h2⟩ := row_opc_rsv r hr
  have e0 : opcField v &&& 0xFF = opcField v := BitVec.and_allOnes
  have e1 : rsvField v &&& 0xFFF = rsvField v := BitVec.and_allOnes
  rw [fits_iff, h0, h1, h2, e0, e1]

theorem find?_of_pairwise {l : List Row} (hp : l.Pairwise fun r r' => opcField r.pat ≠ opcField r'.pat) {r : Row} {v : Word}
    (hr : r ∈ l) (hf : r.fits v = true) (hopc : ∀ x ∈ l, x.fits v = true → opcField v = opcField x.pat) :
    l.find? (fun x => x.fits v) = some r := by
  induction l with
  | nil => cases hr
  | cons x l ih =>
    rw [List.pairwise_cons] at hp
    rcases List.mem_cons.1 hr with rfl | hr
    · simp [hf]
    · have hx : x.fits v = false := by
        cases h : x.fits v
        · rfl
        · have h1 := hopc x (by simp) h
          have h2 := hopc r (by simp [hr]) hf
          exact absurd (h1.symm.trans h2) (hp.1 r hr)
      rw [List.find?_cons_of_neg (by simp [hx])]
      exact ih hp.2 hr fun y hy => hopc y (by simp [hy])

/-- All that decoding can answer with a command: the row that fits, built from the word's fields. -/
theorem decode_eq_ok {v : Word} {i : Instr} : decode v = .ok i ↔
    ∃ r ∈ opcodeMap, r.fits v = true ∧ r.build (rdField v) (raField v) (rbField v) = i := by
  unfold decode
  constructor
  · intro h
    split at h
    · next r hr =>
      exact ⟨r, List.mem_of_find?_eq_some hr, by simpa using List.find?_some hr, by simpa using h⟩
    · cases h
  · rintro ⟨r, hr, hf, hb⟩
    have := find?_of_pairwise row_opc_nodup hr hf fun x hx h => ((row_fits_iff hx v).1 h).1
    simp only [this, hb]

/-- Decoding fails where no row fits. -/
theorem decode_eq_error {v : Word} : (∃ e, decode v = .error e) ↔ ∀ r ∈ opcodeMap, r.fits v = false := by
  unfold decode
  split
  · next r hr =>
    constructor
    · rintro ⟨e, he⟩
      cases he
    · intro h
      have h1 := h r (List.mem_of_find?_eq_some hr)
      have h2 : r.fits v = true := by simpa using List.find?_some hr
      rw [h1] at h2
      cases h2
  · next hn =>
    rw [List.find?_eq_none] at hn
    simp only [Except.error.injEq, exists_eq', true_iff]
    intro r hr
    simpa using hn r hr

end Sys2Proof
end

