-- ==== Sys2Proof/Laws/Exec.lean ====
section
/-! SUPPORT. What the shared operations of the commands can do, each said once; and every meaning as `State.finish` of
its pseudocode's result (10_state R40). -/

namespace Sys2Proof.Machine

/-! ### Sequencing of a command's pseudocode -/

@[simp] theorem except_ok_bind {α β : Type} (a : α) (f : α → Except CmdError β) :
    (Except.ok a >>= f) = f a := rfl

@[simp] theorem except_error_bind {α β : Type} (e : CmdError) (f : α → Except CmdError β) :
    ((Except.error e : Except CmdError α) >>= f) = Except.error e := rfl

@[simp] theorem except_pure {α : Type} (a : α) : (pure a : Except CmdError α) = Except.ok a := rfl

/-! ### The checks and the operands -/

@[simp] theorem require_true (e : CmdError) : require true e = .ok () := rfl

@[simp] theorem require_false (e : CmdError) : require false e = .error e := rfl

@[simp] theorem require_eq_ok (c : Bool) (e : CmdError) : require c e = .ok () ↔ c = true := by
  cases c <;> simp [require]

@[simp] theorem require_eq_error (c : Bool) (e e' : CmdError) : require c e = .error e' ↔ c = false ∧ e = e' := by
  cases c <;> simp [require]

theorem checkPointField_of_lt {r : Field4} (h : r.toNat < 4) : checkPointField r = .ok () := by
  simp [checkPointField, pointFieldOk, h]

theorem checkPointField_of_not_lt {r : Field4} (h : ¬ r.toNat < 4) : checkPointField r = .error .illegal := by
  simp [checkPointField, pointFieldOk, h]

theorem scalarOperand_of_valid {s : State} {a : Field4} (h0 : 1 ≤ (s.readW a).toNat) (h1 : (s.readW a).toNat < orderN) :
    s.scalarOperand a = .ok (s.readW a).toNat := by
  have h : ¬ ((s.readW a).toNat = 0 ∨ orderN ≤ (s.readW a).toNat) := by omega
  simp only [State.scalarOperand, if_neg h]

theorem scalarOperand_of_invalid {s : State} {a : Field4}
    (h : (s.readW a).toNat = 0 ∨ orderN ≤ (s.readW a).toNat) : s.scalarOperand a = .error .scalar := by
  simp only [State.scalarOperand, if_pos h]

theorem affineOperand_of_affine {s : State} {a : Field4} (h : (s.readP a).inf = false) :
    s.affineOperand a = .ok (s.readP a) := by
  simp [State.affineOperand, h]

theorem affineOperand_of_inf {s : State} {a : Field4} (h : (s.readP a).inf = true) :
    s.affineOperand a = .error .infinity := by
  simp [State.affineOperand, h]

theorem sourceOperand_of_inside {s : State} {n : Nat} (h : s.srcAddr.toNat + n ≤ 1024) :
    s.sourceOperand n = .ok (s.lmem.readBytes s.srcAddr.toNat n) := by
  have h' : ¬ s.srcAddr.toNat + n > Config.lmemSize := by simpa using h
  simp only [State.sourceOperand, if_neg h']

theorem sourceOperand_of_outside {s : State} {n : Nat} (h : 1024 < s.srcAddr.toNat + n) :
    s.sourceOperand n = .error .range := by
  have h' : s.srcAddr.toNat + n > Config.lmemSize := h
  simp only [State.sourceOperand, if_pos h']

theorem output_of_inside {s : State} {out : List Byte} (h : s.dstAddr.toNat + out.length ≤ 1024) :
    s.output out = .ok { mem := some (s.dstAddr.toNat, out), resLen := some (BitVec.ofNat 32 out.length) } := by
  have h' : ¬ s.dstAddr.toNat + out.length > Config.lmemSize := by simpa using h
  simp only [State.output, if_neg h']

theorem output_of_outside {s : State} {out : List Byte} (h : 1024 < s.dstAddr.toNat + out.length) :
    s.output out = .error .range := by
  have h' : s.dstAddr.toNat + out.length > Config.lmemSize := h
  simp only [State.output, if_pos h']

/-- All that `State.output` can answer: E_RANGE, or the bytes staged inside LMEM with their number for RES_LEN. -/
theorem output_cases (s : State) (out : List Byte) :
    (1024 < s.dstAddr.toNat + out.length ∧ s.output out = .error .range) ∨
    (s.dstAddr.toNat + out.length ≤ 1024 ∧
      s.output out = .ok { mem := some (s.dstAddr.toNat, out), resLen := some (BitVec.ofNat 32 out.length) }) := by
  by_cases h : s.dstAddr.toNat + out.length ≤ 1024
  · exact .inr ⟨h, output_of_inside h⟩
  · exact .inl ⟨by omega, output_of_outside (by omega)⟩

/-- All that `State.sourceOperand` can answer: E_RANGE, or the bytes of a range inside LMEM. -/
theorem sourceOperand_cases (s : State) (n : Nat) :
    (1024 < s.srcAddr.toNat + n ∧ s.sourceOperand n = .error .range) ∨
    (s.srcAddr.toNat + n ≤ 1024 ∧ s.sourceOperand n = .ok (s.lmem.readBytes s.srcAddr.toNat n)) := by
  by_cases h : s.srcAddr.toNat + n ≤ 1024
  · exact .inr ⟨h, sourceOperand_of_inside h⟩
  · exact .inl ⟨by omega, sourceOperand_of_outside (by omega)⟩

/-- All that `State.scalarOperand` can answer: E_SCALAR, or a scalar in [1, n). -/
theorem scalarOperand_cases (s : State) (a : Field4) :
    (((s.readW a).toNat = 0 ∨ orderN ≤ (s.readW a).toNat) ∧ s.scalarOperand a = .error .scalar) ∨
    (1 ≤ (s.readW a).toNat ∧ (s.readW a).toNat < orderN ∧ s.scalarOperand a = .ok (s.readW a).toNat) := by
  by_cases h : (s.readW a).toNat = 0 ∨ orderN ≤ (s.readW a).toNat
  · exact .inl ⟨h, scalarOperand_of_invalid h⟩
  · exact .inr ⟨by omega, by omega, scalarOperand_of_valid (by omega) (by omega)⟩

/-- All that `State.affineOperand` can answer: E_INFINITY, or the affine point held. -/
theorem affineOperand_cases (s : State) (a : Field4) :
    ((s.readP a).inf = true ∧ s.affineOperand a = .error .infinity) ∨
    ((s.readP a).inf = false ∧ s.affineOperand a = .ok (s.readP a)) := by
  cases h : (s.readP a).inf
  · exact .inr ⟨rfl, affineOperand_of_affine h⟩
  · exact .inl ⟨rfl, affineOperand_of_inf h⟩

/-- All that `base58Output` can answer: E_RANGE on the source, E_LEN for an empty source inside LMEM, or the encoding of
the source bytes. -/
theorem base58Output_cases (enc : List Byte → List Byte) (s : State) :
    (1024 < s.srcAddr.toNat + s.srcLen.toNat ∧ base58Output enc s = .error .range) ∨
    (s.srcAddr.toNat ≤ 1024 ∧ s.srcLen = 0 ∧ base58Output enc s = .error .len) ∨
    (s.srcAddr.toNat + s.srcLen.toNat ≤ 1024 ∧ s.srcLen ≠ 0 ∧
      base58Output enc s = .ok (enc (s.lmem.readBytes s.srcAddr.toNat s.srcLen.toNat))) := by
  unfold base58Output
  rcases sourceOperand_cases s s.srcLen.toNat with ⟨hr, h⟩ | ⟨hr, h⟩
  · exact .inl ⟨hr, by rw [h]; rfl⟩
  · rw [h, except_ok_bind]
    by_cases h0 : s.srcLen = 0
    · exact .inr (.inl ⟨by omega, h0, by simp [h0, require]⟩)
    · have h1 : (s.srcLen.toNat != 0) = true := by
        simpa using fun h => h0 (BitVec.eq_of_toNat_eq h)
      exact .inr (.inr ⟨hr, h0, by rw [h1, require_true]; rfl⟩)

/-- All that `addrOutput` can answer: E_ILLEGAL for a field of 4 or more, E_INFINITY for O, or the address. -/
theorem addrOutput_cases (a : Field4) (s : State) :
    (pointFieldOk a = false ∧ addrOutput a s = .error .illegal) ∨
    (pointFieldOk a = true ∧ (s.readP a).inf = true ∧ addrOutput a s = .error .infinity) ∨
    (pointFieldOk a = true ∧ (s.readP a).inf = false ∧
      addrOutput a s = .ok (base58check (addrPayload (s.readP a)))) := by
  unfold addrOutput checkPointField
  cases hw : pointFieldOk a
  · exact .inl ⟨rfl, rfl⟩
  · rw [require_true, except_ok_bind]
    rcases affineOperand_cases s a with ⟨hi, h⟩ | ⟨hi, h⟩
    · exact .inr (.inl ⟨rfl, hi, by rw [h]; rfl⟩)
    · exact .inr (.inr ⟨rfl, hi, by rw [h]; rfl⟩)

/-! ### Completion -/

@[simp] theorem finish_error (s : State) (e : CmdError) : s.finish (.error e) = .next (s.raiseError e) := rfl

theorem finish_ok {s : State} {st : Staged} (h : st.inLmem = true) : s.finish (.ok st) = .next (s.commit st) := by
  simp [State.finish, h]

/-- All that `State.finish` can answer with a next state: an error taken, or a commit inside LMEM. -/
theorem finish_next {s t : State} {r : Result} (h : s.finish r = .next t) :
    (∃ e, r = .error e ∧ t = s.raiseError e) ∨ (∃ st, r = .ok st ∧ st.inLmem = true ∧ t = s.commit st) := by
  cases r with
  | error e =>
    simp only [finish_error, Host.Outcome.next.injEq] at h
    exact .inl ⟨e, rfl, h.symm⟩
  | ok st =>
    simp only [State.finish] at h
    split at h
    · next hin =>
      simp only [Host.Outcome.next.injEq] at h
      exact .inr ⟨st, rfl, hin, h.symm⟩
    · cases h

theorem inLmem_none {st : Staged} (h : st.mem = none) : st.inLmem = true := by simp [Staged.inLmem, h]

theorem inLmem_some {st : Staged} {a : Nat} {bs : List Byte} (h : st.mem = some (a, bs)) (hr : a + bs.length ≤ 1024) :
    st.inLmem = true := by
  simp [Staged.inLmem, h, hr]

/-- The result of a command's pseudocode in `s`: what `exec` hands to `State.finish`. -/
def resultOf (i : Instr) (s : State) : Result :=
  match i with
  | .fadd d a b => .ok { w := some (d, fieldAdd (s.readW a) (s.readW b)) }
  | .fsub d a b => .ok { w := some (d, fieldSub (s.readW a) (s.readW b)) }
  | .fmul d a b => .ok { w := some (d, fieldMul (s.readW a) (s.readW b)) }
  | .finv d a => finvResult d a s
  | .sval a => svalResult a s
  | .padd d a b => paddResult d a b s
  | .pdbl d a => pdblResult d a s
  | .smul d a => smulResult d a s
  | .pcomp a => pcompResult a s
  | .pgen d => pgenResult d
  | .pinf d => pinfResult d
  | .pset d a b => psetResult d a b s
  | .pgetx d a => pgetxResult d a s
  | .pgety d a => pgetyResult d a s
  | .sha256 => hashCommand sha256 s
  | .rmd160 => hashCommand ripemd160 s
  | .hash160 => hashCommand hash160 s
  | .sha256d => hashCommand sha256d s
  | .cksum => hashCommand checksum s
  | .b58enc => base58Command base58 s
  | .b58chk => base58Command base58check s
  | .wif a => wifResult a s
  | .addr a => addrResult a s
  | .ldw d => ldwResult d s
  | .stw a => s.output (beBytes 32 (s.readW a).toNat)

/-- Every meaning is the completion of its pseudocode's result. -/
theorem exec_eq_finish (i : Instr) (s : State) : exec i s = s.finish (resultOf i s) := by
  cases i <;> rfl

/-! ### Register files -/

theorem readW_setW_same (s : State) (r : Field4) (v : Wide) : ({ s with w := setW s.w r v } : State).readW r = v := by
  simp [State.readW, setW]

theorem getElem_setW (w : Vector Wide 16) (r x : Field4) (v : Wide) :
    (setW w r v)[x.toNat]'x.isLt = if x = r then v else w[x.toNat]'x.isLt := by
  unfold setW
  rw [Vector.getElem_set]
  by_cases h : x = r
  · subst h; simp
  · have : ¬ r.toNat = x.toNat := fun e => h (BitVec.eq_of_toNat_eq e.symm)
    simp [h, this]

/-- Reading the P file after a write of a legal register. -/
theorem getElem?_setP (p : Vector Point 4) (r x : Field4) (q : Point) (h : r.toNat < 4) :
    ((setP p r q)[x.toNat]?).getD Point.infinity = if x = r then q else (p[x.toNat]?).getD Point.infinity := by
  unfold setP
  by_cases hx : x = r
  · subst hx
    simp [h]
  · have : ¬ r.toNat = x.toNat := fun e => hx (BitVec.eq_of_toNat_eq e.symm)
    simp [hx, this]

/-- `W[x]` after a commit. -/
theorem commit_readW (s : State) (st : Staged) (x : Field4) :
    (s.commit st).readW x = match st.w with
      | some (r, v) => if x = r then v else s.readW x
      | none => s.readW x := by
  rcases hw : st.w with _ | ⟨r, v⟩
  · simp [State.readW, hw]
  · have := getElem_setW s.w r x v
    simp only [State.readW, State.commit_w, hw]
    exact this

/-- `P[x]` after a commit that writes no P register, or a legal one. -/
theorem commit_readP (s : State) (st : Staged) (x : Field4) (h : ∀ r q, st.p = some (r, q) → r.toNat < 4) :
    (s.commit st).readP x = match st.p with
      | some (r, q) => if x = r then q else s.readP x
      | none => s.readP x := by
  rcases hp : st.p with _ | ⟨r, q⟩
  · simp [State.readP, hp]
  · simp only [State.readP, State.commit_p, hp]
    exact getElem?_setP s.p r x q (h r q hp)

/-! ### What each command stages -/

/-- A sequence succeeds where its first part does and the rest does on its value. -/
theorem bind_eq_ok {α β : Type} {x : Except CmdError α} {f : α → Except CmdError β} {b : β} :
    (x >>= f) = .ok b ↔ ∃ a, x = .ok a ∧ f a = .ok b := by
  cases x with
  | error e => simp
  | ok a => simp

/-- A sequence fails where its first part does, or the rest does on its value. -/
theorem bind_eq_error {α β : Type} {x : Except CmdError α} {f : α → Except CmdError β} {e : CmdError} :
    (x >>= f) = .error e ↔ x = .error e ∨ ∃ a, x = .ok a ∧ f a = .error e := by
  cases x with
  | error e' => simp
  | ok a => simp

theorem checkPointField_eq_ok {r : Field4} : checkPointField r = .ok () ↔ pointFieldOk r = true := by
  simp [checkPointField]

theorem checkPointField_eq_error {r : Field4} {e : CmdError} :
    checkPointField r = .error e ↔ pointFieldOk r = false ∧ .illegal = e := by
  simp [checkPointField]

/-- What an output stages where it succeeds: bytes inside LMEM and their number for RES_LEN, and nothing else. -/
theorem output_eq_ok {s : State} {out : List Byte} {st : Staged} (h : s.output out = .ok st) :
    s.dstAddr.toNat + out.length ≤ 1024 ∧
      st = { mem := some (s.dstAddr.toNat, out), resLen := some (BitVec.ofNat 32 out.length) } := by
  rcases output_cases s out with ⟨_, h'⟩ | ⟨hr, h'⟩
  · rw [h'] at h; cases h
  · rw [h'] at h; cases h
    exact ⟨hr, rfl⟩

/-- What a command stages where it succeeds: the shape of its writes (10_state R17, R18, R30, R38). -/
theorem resultOf_eq_ok (i : Instr) (s : State) (st : Staged) (h : resultOf i s = .ok st) :
    i.wellFormed = true ∧
    (match i with
      | .fadd d _ _ | .fsub d _ _ | .fmul d _ _ | .finv d _ | .pgetx d _ | .pgety d _ | .ldw d =>
        ∃ v, st = { w := some (d, v) }
      | .padd d a b => st = stagePoint d (pointAdd (s.readP a) (s.readP b))
      | .pdbl d a => st = stagePoint d (pointDouble (s.readP a))
      | .smul d a => st = { p := some (d, scalarMul (s.readW a).toNat), inf := some false }
      | .pgen d => st = stagePoint d generator
      | .pinf d => st = stagePoint d Point.infinity
      | .pset d a b => st = stagePoint d (affine (s.readW a).toNat (s.readW b).toNat)
      | .sval _ => st = {}
      | .pcomp _ | .sha256 | .rmd160 | .hash160 | .sha256d | .cksum | .b58enc | .b58chk | .wif _ | .addr _ | .stw _ =>
        ∃ out, s.output out = .ok st) := by
  cases i <;>
    simp only [resultOf, finvResult, svalResult, paddResult, pdblResult, smulResult, pcompResult, pgenResult, pinfResult,
      psetResult, pgetxResult, pgetyResult, hashCommand, base58Command, wifResult, addrResult, ldwResult, bind_eq_ok,
      except_pure, Except.ok.injEq, Instr.wellFormed] at h ⊢
  case fadd | fsub | fmul => exact ⟨trivial, _, h.symm⟩
  case finv | ldw =>
    obtain ⟨_, _, rfl⟩ := h
    exact ⟨trivial, _, rfl⟩
  case sval =>
    obtain ⟨_, _, rfl⟩ := h
    exact ⟨trivial, rfl⟩
  case padd =>
    obtain ⟨_, h1, _, h2, _, h3, rfl⟩ := h
    simp [checkPointField_eq_ok.1 h1, checkPointField_eq_ok.1 h2, checkPointField_eq_ok.1 h3]
  case pdbl =>
    obtain ⟨_, h1, _, h2, rfl⟩ := h
    simp [checkPointField_eq_ok.1 h1, checkPointField_eq_ok.1 h2]
  case pgen | pinf | pset =>
    obtain ⟨_, h1, rfl⟩ := h
    exact ⟨checkPointField_eq_ok.1 h1, rfl⟩
  case smul a =>
    obtain ⟨_, h1, k, h2, rfl⟩ := h
    rcases scalarOperand_cases s a with ⟨_, hk⟩ | ⟨_, _, hk⟩
    · rw [hk] at h2; cases h2
    · rw [hk] at h2
      cases h2
      exact ⟨checkPointField_eq_ok.1 h1, rfl⟩
  case pgetx | pgety =>
    obtain ⟨_, h1, _, _, rfl⟩ := h
    exact ⟨checkPointField_eq_ok.1 h1, _, rfl⟩
  case pcomp =>
    obtain ⟨_, h1, _, _, h2⟩ := h
    exact ⟨checkPointField_eq_ok.1 h1, _, h2⟩
  case addr a =>
    obtain ⟨_, h1, h2⟩ := h
    rcases addrOutput_cases a s with ⟨_, h'⟩ | ⟨_, _, h'⟩ | ⟨hw, _, _⟩
    · rw [h'] at h1
      cases h1
    · rw [h'] at h1
      cases h1
    · exact ⟨hw, _, h2⟩
  case sha256 | rmd160 | hash160 | sha256d | cksum | b58enc | b58chk | wif =>
    obtain ⟨_, _, h⟩ := h
    exact ⟨trivial, _, h⟩
  case stw => exact ⟨trivial, _, h⟩

/-- No command stages a byte outside LMEM (20_memory R48; log 18). -/
theorem resultOf_inLmem {i : Instr} {s : State} {st : Staged} (h : resultOf i s = .ok st) : st.inLmem = true := by
  have hs := (resultOf_eq_ok i s st h).2
  have out : ∀ o, s.output o = .ok st → st.inLmem = true := by
    intro o ho
    obtain ⟨hr, rfl⟩ := output_eq_ok ho
    exact inLmem_some rfl hr
  cases i
  case pcomp | sha256 | rmd160 | hash160 | sha256d | cksum | b58enc | b58chk | wif | addr | stw =>
    obtain ⟨o, ho⟩ := hs
    exact out o ho
  case fadd | fsub | fmul | finv | pgetx | pgety | ldw =>
    obtain ⟨_, rfl⟩ := hs
    rfl
  case sval | padd | pdbl | smul | pgen | pinf | pset =>
    simp only at hs
    subst hs
    rfl

/-- All that `exec` can answer: the next state after an error, or after the commit of what the command staged. -/
theorem exec_cases (i : Instr) (s : State) :
    (∃ e, resultOf i s = .error e ∧ exec i s = .next (s.raiseError e)) ∨
    (∃ st, resultOf i s = .ok st ∧ exec i s = .next (s.commit st)) := by
  rw [exec_eq_finish]
  cases h : resultOf i s with
  | error e => exact .inl ⟨e, rfl, rfl⟩
  | ok st => exact .inr ⟨st, rfl, finish_ok (resultOf_inLmem h)⟩

end Sys2Proof.Machine
end

