-- ==== Sys2Proof/Laws/Points.lean ====
section
/-! SUPPORT. The point unit's results are canonical point records (10_state R19, 41_point R88). -/

namespace Sys2Proof.Machine

@[simp] theorem Point.infinity_inf : Point.infinity.inf = true := rfl
@[simp] theorem generator_inf : generator.inf = false := rfl
@[simp] theorem affine_inf (x y : Int) : (affine x y).inf = false := rfl

theorem Point.canonical_infinity : Point.infinity.canonical = true := by decide

theorem canonical_generator : generator.canonical = true := by decide

theorem toNat_affine_x (x y : Int) : (affine x y).x.toNat = modP x := toNat_ofNat_of_lt (modP_lt x)

theorem toNat_affine_y (x y : Int) : (affine x y).y.toNat = modP y := toNat_ofNat_of_lt (modP_lt y)

theorem canonical_affine (x y : Int) : (affine x y).canonical = true := by
  have hx := modP_lt x
  have hy := modP_lt y
  simp only [Point.canonical, affine_inf, toNat_affine_x, toNat_affine_y, Bool.false_eq_true, if_false,
    Bool.and_eq_true, decide_eq_true_eq]
  exact ⟨hx, hy⟩

theorem thirdPoint_inf (lam x1 y1 x2 : Int) : (thirdPoint lam x1 y1 x2).inf = false := rfl

theorem canonical_thirdPoint (lam x1 y1 x2 : Int) : (thirdPoint lam x1 y1 x2).canonical = true := canonical_affine _ _

/-- Doubling gives O or a canonical affine point, whatever it is given. -/
theorem canonical_pointDouble (q : Point) : (pointDouble q).canonical = true := by
  unfold pointDouble
  split
  · exact Point.canonical_infinity
  · split
    · exact Point.canonical_infinity
    · exact canonical_thirdPoint _ _ _ _

/-- Addition keeps the point-register invariant. -/
theorem canonical_pointAdd (a b : Point) (ha : a.canonical = true) (hb : b.canonical = true) :
    (pointAdd a b).canonical = true := by
  unfold pointAdd
  split
  · exact hb
  · split
    · exact ha
    · split
      · split
        · exact canonical_pointDouble a
        · exact Point.canonical_infinity
      · exact canonical_thirdPoint _ _ _ _

theorem canonical_scalarMulFrom : ∀ (i k : Nat) (q : Point), q.canonical = true →
    (scalarMulFrom i k q).canonical = true
  | 0, _, _, h => h
  | i + 1, k, q, _ => by
    refine canonical_scalarMulFrom i k _ ?_
    split
    · exact canonical_pointAdd _ _ (canonical_pointDouble q) canonical_generator
    · exact canonical_pointDouble q

theorem canonical_scalarMul (k : Nat) : (scalarMul k).canonical = true :=
  canonical_scalarMulFrom 256 k _ Point.canonical_infinity

@[simp] theorem length_compress (q : Point) : (compress q).length = 33 := by simp [compress, beBytes, leBytes]

end Sys2Proof.Machine
end

