-- ==== Sys2Proof/Laws/Group.lean ====
section
/-! SUPPORT. `padd` and `pdbl` are the addition and the doubling of Mathlib's group of points of y^2 = x^3 + 7 over the
prime field (41_point R85 to R88). -/

namespace Sys2Proof.Machine

/-- The curve y^2 = x^3 + a x + b, a = 0 and b = 7, over the prime field (41_point R84, R85). -/
def secp : WeierstrassCurve.Affine (ZMod primeP) := 
  { a₁ := 0, a₂ := 0, a₃ := 0, a₄ := curveA, a₆ := curveB }

/-- The point record `q` stands for the point `P` of the curve. -/
def Represents (q : Point) (P : secp.Point) : Prop :=
  match P with
  | .zero => q = Point.infinity
  | .some x y _ => q.inf = false ∧ q.canonical = true ∧ (q.x.toNat : ZMod primeP) = x ∧ (q.y.toNat : ZMod primeP) = y

@[simp] theorem secp_a₁ : secp.a₁ = 0 := rfl
@[simp] theorem secp_a₂ : secp.a₂ = 0 := rfl
@[simp] theorem secp_a₃ : secp.a₃ = 0 := rfl
@[simp] theorem secp_a₄ : secp.a₄ = 0 := by simp [secp, curveA]
@[simp] theorem secp_a₆ : secp.a₆ = 7 := by simp [secp, curveB]

theorem secp_equation_iff (x y : ZMod primeP) : secp.Equation x y ↔ y ^ 2 = x ^ 3 + 7 := by
  rw [WeierstrassCurve.Affine.equation_iff]
  simp

theorem secp_discriminant [Fact primeP.Prime] : secp.Δ ≠ 0 := by
  have h : secp.Δ = -((21168 : Nat) : ZMod primeP) := by
    simp only [WeierstrassCurve.Δ, WeierstrassCurve.b₂, WeierstrassCurve.b₄, WeierstrassCurve.b₆, WeierstrassCurve.b₈, secp_a₁,
      secp_a₂, secp_a₃, secp_a₄, secp_a₆]
    push_cast
    ring
  rw [h, neg_ne_zero, Ne, ZMod.natCast_eq_zero_iff]
  decide

theorem secp_nonsingular_iff [Fact primeP.Prime] (x y : ZMod primeP) : secp.Nonsingular x y ↔ y ^ 2 = x ^ 3 + 7 := by
  rw [← WeierstrassCurve.Affine.equation_iff_nonsingular_of_Δ_ne_zero secp_discriminant, secp_equation_iff]

/-- The coordinates of a canonical affine point are below p. -/
theorem canonical_lt {q : Point} (h : q.canonical = true) (hi : q.inf = false) :
    q.x.toNat < primeP ∧ q.y.toNat < primeP := by
  simpa [Point.canonical, hi] using h

theorem canonical_inf {q : Point} (h : q.canonical = true) (hi : q.inf = true) : q = Point.infinity := by
  obtain ⟨x, y, b⟩ := q
  simp only at hi
  subst hi
  simpa [Point.canonical, Point.infinity] using h

/-- Equal residues of values below p are equal values. -/
theorem eq_of_cast_eq {a b : Wide} (ha : a.toNat < primeP) (hb : b.toNat < primeP)
    (h : (a.toNat : ZMod primeP) = b.toNat) : a = b := by
  rw [ZMod.natCast_eq_natCast_iff', Nat.mod_eq_of_lt ha, Nat.mod_eq_of_lt hb] at h
  exact BitVec.eq_of_toNat_eq h

/-- The curve equation of `Point.onCurve` in the prime field. -/
theorem equation_cast (x y : Nat) :
    y ^ 2 % primeP = (x ^ 3 + curveA * x + curveB) % primeP ↔ (y : ZMod primeP) ^ 2 = (x : ZMod primeP) ^ 3 + 7 := by
  rw [← Nat.ModEq, ← ZMod.natCast_eq_natCast_iff]
  simp [curveA, curveB]

/-- A point record on the curve stands for a point of it. -/
theorem exists_represents [Fact primeP.Prime] {q : Point} (h : q.onCurve) : ∃ P, Represents q P := by
  obtain ⟨hc, hq⟩ := h
  cases hi : q.inf
  · have he : q.y.toNat ^ 2 % primeP = (q.x.toNat ^ 3 + curveA * q.x.toNat + curveB) % primeP := by
      rcases hq with hq | hq
      · rw [hi] at hq
        cases hq
      · exact hq
    exact ⟨.some _ _ ((secp_nonsingular_iff _ _).2 ((equation_cast _ _).1 he)), hi, hc, rfl, rfl⟩
  · exact ⟨.zero, canonical_inf hc hi⟩

/-- What stands for a point of the curve is on it. -/
theorem Represents.onCurve [Fact primeP.Prime] {q : Point} {P : secp.Point} (h : Represents q P) : q.onCurve := by
  cases P with
  | zero =>
    rw [show q = Point.infinity from h]
    exact ⟨Point.canonical_infinity, .inl rfl⟩
  | some x y hn =>
    obtain ⟨_, hc, rfl, rfl⟩ := h
    exact ⟨hc, .inr ((equation_cast _ _).2 ((secp_nonsingular_iff _ _).1 hn))⟩

/-- One record stands for one point of the curve. -/
theorem Represents.left_unique {q r : Point} {P : secp.Point} (hq : Represents q P) (hr : Represents r P) : q = r := by
  cases P with
  | zero => exact Eq.trans hq (Eq.symm hr)
  | some x y hn =>
    obtain ⟨h1, h2, h3, h4⟩ := hq
    obtain ⟨g1, g2, g3, g4⟩ := hr
    have hx := eq_of_cast_eq (canonical_lt h2 h1).1 (canonical_lt g2 g1).1 (h3.trans g3.symm)
    have hy := eq_of_cast_eq (canonical_lt h2 h1).2 (canonical_lt g2 g1).2 (h4.trans g4.symm)
    obtain ⟨qx, qy, qi⟩ := q
    obtain ⟨rx, ry, ri⟩ := r
    simp only at h1 g1 hx hy
    rw [h1, g1, hx, hy]

theorem Represents.right_unique {q : Point} {P R : secp.Point} (hp : Represents q P) (hr : Represents q R) : P = R := by
  cases P with
  | zero =>
    cases R with
    | zero => rfl
    | some x y hn =>
      rw [show q = Point.infinity from hp] at hr
      exact absurd hr.1 (by decide)
  | some x y hn =>
    cases R with
    | zero =>
      rw [show q = Point.infinity from hr] at hp
      exact absurd hp.1 (by decide)
    | some x' y' hn' =>
      obtain ⟨_, _, rfl, rfl⟩ := hp
      obtain ⟨_, _, rfl, rfl⟩ := hr
      rfl

/-- `FINV` is the inverse of the prime field (40_field R82). -/
theorem invModP_cast [Fact primeP.Prime] (z : Int) : ((invModP z : Nat) : ZMod primeP) = ((z : Int) : ZMod primeP)⁻¹ := by
  rw [invModP_eq, ZMod.natCast_mod, Nat.cast_pow, modP_cast]
  by_cases h : (z : ZMod primeP) = 0
  · rw [h, inv_zero, zero_pow (by decide)]
  · apply eq_inv_of_mul_eq_one_left
    rw [← pow_succ, show primeP - 2 + 1 = primeP - 1 by decide, ZMod.pow_card_sub_one_eq_one h]

theorem thirdPoint_x_cast (lam x1 y1 x2 : Int) :
    (((thirdPoint lam x1 y1 x2).x.toNat : Nat) : ZMod primeP) = (lam : ZMod primeP) * lam - x1 - x2 := by
  unfold thirdPoint
  rw [toNat_affine_x, modP_cast, Int.cast_natCast, modP_cast]
  push_cast
  rfl

theorem thirdPoint_y_cast (lam x1 y1 x2 : Int) :
    (((thirdPoint lam x1 y1 x2).y.toNat : Nat) : ZMod primeP) =
      (lam : ZMod primeP) * (x1 - ((lam : ZMod primeP) * lam - x1 - x2)) - y1 := by
  unfold thirdPoint
  rw [toNat_affine_y, modP_cast]
  push_cast
  rw [modP_cast]
  push_cast
  rfl

@[simp] theorem secp_negY (x y : ZMod primeP) : secp.negY x y = -y := by
  simp [WeierstrassCurve.Affine.negY]

theorem secp_addX (x1 x2 l : ZMod primeP) : secp.addX x1 x2 l = l * l - x1 - x2 := by
  simp only [WeierstrassCurve.Affine.addX, secp_a₁, secp_a₂]
  ring

theorem secp_addY (x1 x2 y1 l : ZMod primeP) : secp.addY x1 x2 y1 l = l * (x1 - (l * l - x1 - x2)) - y1 := by
  simp only [WeierstrassCurve.Affine.addY, WeierstrassCurve.Affine.negAddY, secp_negY, secp_addX]
  ring

theorem two_ne_zero_modP [Fact primeP.Prime] : (2 : ZMod primeP) ≠ 0 := by
  have h : ((2 : Nat) : ZMod primeP) ≠ 0 := by
    rw [Ne, ZMod.natCast_eq_zero_iff]
    decide
  exact_mod_cast h

/-- The third point of a line of the group's slope stands for the group's sum. -/
theorem represents_thirdPoint [Fact primeP.Prime] {x1 y1 x2 y2 : ZMod primeP} (h : secp.Nonsingular (secp.addX x1 x2 (secp.slope x1 x2 y1 y2)) (secp.addY x1 x2 y1 (secp.slope x1 x2 y1 y2)))
    {lam a b c : Int} (hl : (lam : ZMod primeP) = secp.slope x1 x2 y1 y2) (ha : (a : ZMod primeP) = x1)
    (hb : (b : ZMod primeP) = y1) (hc : (c : ZMod primeP) = x2) :
    Represents (thirdPoint lam a b c) (.some _ _ h) := by
  refine ⟨rfl, canonical_thirdPoint _ _ _ _, ?_, ?_⟩
  · rw [thirdPoint_x_cast, secp_addX, hl, ha, hc]
  · rw [thirdPoint_y_cast, secp_addY, hl, ha, hb, hc]

/-- Doubling is the group's doubling (41_point R87, R88). -/
theorem Represents.double [Fact primeP.Prime] {q : Point} {P : secp.Point} (h : Represents q P) :
    Represents (pointDouble q) (P + P) := by
  cases P with
  | zero =>
    rw [show q = Point.infinity from h, ← WeierstrassCurve.Affine.Point.zero_def, add_zero]
    rfl
  | some x y hn =>
    obtain ⟨hi, hc, rfl, rfl⟩ := h
    unfold pointDouble
    rw [hi, if_neg (by decide)]
    by_cases hy : q.y = 0
    · rw [if_pos hy, WeierstrassCurve.Affine.Point.add_self_of_Y_eq (by rw [secp_negY, hy]; simp)]
      rfl
    · rw [if_neg hy]
      have h0 : (q.y.toNat : ZMod primeP) ≠ 0 := by
        intro e
        exact hy (eq_of_cast_eq (canonical_lt hc hi).2 (by decide) (by simpa using e))
      have h1 : (q.y.toNat : ZMod primeP) ≠ secp.negY q.x.toNat q.y.toNat := by
        rw [secp_negY]
        intro e
        have : 2 * (q.y.toNat : ZMod primeP) = 0 := by linear_combination e
        rcases mul_eq_zero.1 this with h | h
        · exact two_ne_zero_modP h
        · exact h0 h
      rw [WeierstrassCurve.Affine.Point.add_self_of_Y_ne h1]
      refine represents_thirdPoint _ ?_ (by push_cast; rfl) (by push_cast; rfl) (by push_cast; rfl)
      rw [WeierstrassCurve.Affine.slope_of_Y_ne rfl h1, Int.cast_natCast, modP_cast]
      push_cast
      rw [invModP_cast, secp_negY]
      push_cast
      simp only [secp_a₁, secp_a₂, secp_a₄]
      rw [div_eq_mul_inv]
      congr 1
      · ring
      · congr 1
        ring

/-- Addition is the group's addition (41_point R86, R88). -/
theorem Represents.add [Fact primeP.Prime] {q r : Point} {P R : secp.Point} (hq : Represents q P) (hr : Represents r R) :
    Represents (pointAdd q r) (P + R) := by
  cases P with
  | zero =>
    rw [show q = Point.infinity from hq, ← WeierstrassCurve.Affine.Point.zero_def, zero_add]
    exact hr
  | some x y hn =>
    cases R with
    | zero =>
      rw [show r = Point.infinity from hr, ← WeierstrassCurve.Affine.Point.zero_def, add_zero]
      have : pointAdd q Point.infinity = q := by simp [pointAdd, hq.1]
      rw [this]
      exact hq
    | some x' y' hn' =>
      have hq' := hq
      obtain ⟨hi, hc, rfl, rfl⟩ := hq
      obtain ⟨gi, gc, rfl, rfl⟩ := hr
      unfold pointAdd
      rw [hi, gi, if_neg (by decide), if_neg (by decide)]
      by_cases hx : q.x = r.x
      · rw [if_pos hx]
        by_cases hy : q.y = r.y ∧ q.y ≠ 0
        · rw [if_pos hy]
          have := hq'.double
          simp only [← hx, ← hy.1]
          exact this
        · rw [if_neg hy]
          have e : (q.y.toNat : ZMod primeP) = secp.negY r.x.toNat r.y.toNat := by
            rw [secp_negY]
            by_cases hqr : q.y = r.y
            · have h0 : q.y = 0 := by
                by_contra h0
                exact hy ⟨hqr, h0⟩
              rw [← hqr, h0]
              simp
            · have e1 := (secp_nonsingular_iff _ _).1 hn
              have e2 := (secp_nonsingular_iff _ _).1 hn'
              rw [← hx] at e2
              have : ((q.y.toNat : ZMod primeP) - r.y.toNat) * (q.y.toNat + r.y.toNat) = 0 := by
                linear_combination e1 - e2
              rcases mul_eq_zero.1 this with h | h
              · exact absurd (eq_of_cast_eq (canonical_lt hc hi).2 (canonical_lt gc gi).2 (sub_eq_zero.1 h)) hqr
              · linear_combination h
          rw [WeierstrassCurve.Affine.Point.add_of_Y_eq (by rw [hx]) e]
          rfl
      · rw [if_neg hx]
        have hne : (q.x.toNat : ZMod primeP) ≠ r.x.toNat := fun e =>
          hx (eq_of_cast_eq (canonical_lt hc hi).1 (canonical_lt gc gi).1 e)
        rw [WeierstrassCurve.Affine.Point.add_of_X_ne hne]
        refine represents_thirdPoint _ ?_ (by push_cast; rfl) (by push_cast; rfl) (by push_cast; rfl)
        rw [WeierstrassCurve.Affine.slope_of_X_ne hne, Int.cast_natCast, modP_cast]
        push_cast
        rw [invModP_cast]
        push_cast
        rw [div_eq_mul_inv, ← neg_sub, neg_mul, ← neg_sub (q.x.toNat : ZMod primeP), inv_neg]
        ring

end Sys2Proof.Machine
end

