-- ==== Sys2Proof/Laws/Memory.lean ====
section
/-! SUPPORT. LMEM: read after write, and the canonical form is kept by every operation (20_memory R48). -/

namespace Sys2Proof.Machine

@[simp] theorem Memory.read_nil (a : Nat) : Memory.read [] a = 0 := rfl

/-- Reading where a byte was put gives it, if the list is in canonical form (or begins after `a`). -/
theorem Memory.read_put_same : ∀ (m : Memory) (a : Nat) (b : Byte), m.wf = true → (m.put a b).read a = b
  | [], a, b, _ => by
    unfold Memory.put
    split <;> simp_all [Memory.read]
  | (k, v) :: m, a, b, h => by
    have hw : Memory.wf m = true := by simp_all [Memory.wf]
    have hall : ∀ c ∈ m, k < c.1 := by
      intro c hc
      have := h
      simp only [Memory.wf, Bool.and_eq_true, List.all_eq_true, decide_eq_true_eq] at this
      exact this.1.2 c hc
    have miss : ∀ (n : Memory) (x : Nat), (∀ c ∈ n, x < c.1) → Memory.read n x = 0 := by
      intro n
      induction n with
      | nil => intro x _; rfl
      | cons c n ih =>
        intro x hx
        obtain ⟨j, u⟩ := c
        have hj : x < j := hx (j, u) (by simp)
        have : j ≠ x := by omega
        simp only [Memory.read, this, if_false]
        exact ih x fun c hc => hx c (by simp [hc])
    unfold Memory.put
    split
    · next hlt =>
      split
      · next hb =>
        subst hb
        refine miss _ _ ?_
        intro c hc
        rcases List.mem_cons.1 hc with rfl | hc
        · exact hlt
        · exact Nat.lt_trans hlt (hall c hc)
      · simp [Memory.read]
    · split
      · next heq =>
        split
        · next hb =>
          subst hb heq
          exact miss _ _ hall
        · simp [Memory.read]
      · next hne =>
        have : k ≠ a := fun h => hne h.symm
        simp only [Memory.read, this, if_false]
        exact Memory.read_put_same m a b hw

/-- Putting a byte leaves every other address as it was. -/
theorem Memory.read_put_other : ∀ (m : Memory) (a x : Nat) (b : Byte), x ≠ a → (m.put a b).read x = m.read x
  | [], a, x, b, h => by
    have h' : a ≠ x := fun e => h e.symm
    unfold Memory.put
    split <;> simp [Memory.read, h']
  | (k, v) :: m, a, x, b, h => by
    have h' : a ≠ x := fun e => h e.symm
    unfold Memory.put
    split
    · split
      · rfl
      · simp [Memory.read, h']
    · split
      · next heq =>
        subst heq
        split <;> simp [Memory.read, h']
      · by_cases hk : k = x
        · simp [Memory.read, hk]
        · simp only [Memory.read, hk, if_false]
          exact Memory.read_put_other m a x b h

theorem Memory.all_put (P : Nat → Bool) : ∀ (m : Memory) (a : Nat) (b : Byte),
    P a = true → m.all (fun c => P c.1) = true → (m.put a b).all (fun c => P c.1) = true
  | [], a, b, ha, _ => by
    unfold Memory.put
    split <;> simp [ha]
  | (k, v) :: m, a, b, ha, hm => by
    have hk : P k = true := by
      rw [List.all_cons, Bool.and_eq_true] at hm
      exact hm.1
    have hm' : m.all (fun c => P c.1) = true := by
      rw [List.all_cons, Bool.and_eq_true] at hm
      exact hm.2
    unfold Memory.put
    split
    · split
      · exact hm
      · rw [List.all_cons, Bool.and_eq_true]
        exact ⟨ha, hm⟩
    · split
      · split
        · exact hm'
        · rw [List.all_cons, Bool.and_eq_true]
          exact ⟨ha, hm'⟩
      · rw [List.all_cons, Bool.and_eq_true]
        exact ⟨hk, Memory.all_put P m a b ha hm'⟩

/-- Putting a byte at an address below 1024 keeps the canonical form. -/
theorem Memory.wf_put : ∀ (m : Memory) (a : Nat) (b : Byte), a < Config.lmemSize → m.wf = true → (m.put a b).wf = true
  | [], a, b, ha, _ => by
    unfold Memory.put
    split
    · rfl
    · simp_all [Memory.wf]
  | (k, v) :: m, a, b, ha, h => by
    have h0 := h
    simp only [Memory.wf, Bool.and_eq_true, decide_eq_true_eq, List.all_eq_true] at h0
    obtain ⟨⟨⟨hk, hv⟩, hall⟩, hw⟩ := h0
    unfold Memory.put
    split
    · next hlt =>
      split
      · exact h
      · next hb =>
        simp only [Memory.wf, Bool.and_eq_true, decide_eq_true_eq, List.all_eq_true, List.mem_cons, forall_eq_or_imp]
        exact ⟨⟨⟨ha, by simpa using hb⟩, hlt, fun c hc => Nat.lt_trans hlt (hall c hc)⟩, ⟨⟨hk, hv⟩, hall⟩, hw⟩
    · split
      · next heq =>
        split
        · exact hw
        · next hb =>
          subst heq
          simp only [Memory.wf, Bool.and_eq_true, decide_eq_true_eq, List.all_eq_true]
          exact ⟨⟨⟨hk, by simpa using hb⟩, hall⟩, hw⟩
      · next hlt hne =>
        have hka : k < a := by omega
        have := Memory.all_put (fun x => decide (k < x)) m a b (by simpa using hka) (by simpa using hall)
        simp only [Memory.wf, Bool.and_eq_true, decide_eq_true_eq]
        exact ⟨⟨⟨hk, hv⟩, this⟩, Memory.wf_put m a b ha hw⟩

/-- EVERY MEMORY OPERATION KEEPS THE CANONICAL FORM: a one-byte write. -/
theorem Memory.wf_write (m : Memory) (a : Nat) (b : Byte) (h : m.wf = true) : (m.write a b).wf = true := by
  unfold Memory.write
  split
  · next ha => exact Memory.wf_put m a b ha h
  · exact h

/-- EVERY MEMORY OPERATION KEEPS THE CANONICAL FORM: a write of consecutive bytes. -/
theorem Memory.wf_writeBytes : ∀ (bs : List Byte) (m : Memory) (a : Nat), m.wf = true → (m.writeBytes a bs).wf = true
  | [], _, _, h => h
  | b :: bs, m, a, h => Memory.wf_writeBytes bs (m.write a b) (a + 1) (Memory.wf_write m a b h)

theorem Memory.read_write_same (m : Memory) (a : Nat) (b : Byte) (ha : a < Config.lmemSize) (h : m.wf = true) :
    (m.write a b).read a = b := by
  rw [Memory.write, if_pos ha]
  exact Memory.read_put_same m a b h

theorem Memory.read_write_other (m : Memory) (a x : Nat) (b : Byte) (h : x ≠ a) : (m.write a b).read x = m.read x := by
  unfold Memory.write
  split
  · exact Memory.read_put_other m a x b h
  · rfl

/-- Writing bytes leaves every address outside them as it was. -/
theorem Memory.read_writeBytes_outside : ∀ (bs : List Byte) (m : Memory) (a x : Nat),
    (x < a ∨ a + bs.length ≤ x) → (m.writeBytes a bs).read x = m.read x
  | [], _, _, _, _ => rfl
  | b :: bs, m, a, x, h => by
    have h1 : x < a + 1 ∨ a + 1 + bs.length ≤ x := by
      rcases h with h | h
      · exact .inl (by omega)
      · exact .inr (by simp only [List.length_cons] at h; omega)
    have h2 : x ≠ a := by
      rcases h with h | h
      · omega
      · simp only [List.length_cons] at h; omega
    rw [Memory.writeBytes, Memory.read_writeBytes_outside bs _ (a + 1) x h1, Memory.read_write_other m a x b h2]

/-- Reading a written byte gives it, in a canonical LMEM and inside it. -/
theorem Memory.read_writeBytes_inside : ∀ (bs : List Byte) (m : Memory) (a i : Nat) (hi : i < bs.length),
    m.wf = true → a + bs.length ≤ Config.lmemSize → (m.writeBytes a bs).read (a + i) = bs[i]
  | b :: bs, m, a, 0, _, h, hr => by
    have ha : a < Config.lmemSize := by simp only [List.length_cons] at hr; omega
    rw [Memory.writeBytes, Memory.read_writeBytes_outside bs _ (a + 1) (a + 0) (.inl (by omega))]
    exact Memory.read_write_same m a b ha h
  | b :: bs, m, a, i + 1, hi, h, hr => by
    have hi' : i < bs.length := by simpa using hi
    have hr' : a + 1 + bs.length ≤ Config.lmemSize := by simp only [List.length_cons] at hr; omega
    have e : a + (i + 1) = a + 1 + i := by omega
    rw [Memory.writeBytes, e, Memory.read_writeBytes_inside bs _ (a + 1) i hi' (Memory.wf_write m a b h) hr']
    simp

@[simp] theorem Memory.length_readBytes (m : Memory) : ∀ (n a : Nat), (m.readBytes a n).length = n
  | 0, _ => rfl
  | n + 1, a => by simp [Memory.readBytes, Memory.length_readBytes m n]

theorem Memory.getElem_readBytes (m : Memory) : ∀ (n a i : Nat) (h : i < (m.readBytes a n).length),
    (m.readBytes a n)[i] = m.read (a + i)
  | 0, _, _, h => by simp [Memory.readBytes] at h
  | n + 1, a, 0, _ => rfl
  | n + 1, a, i + 1, h => by
    have h' : i < (m.readBytes (a + 1) n).length := by simpa using h
    have e : a + (i + 1) = a + 1 + i := by omega
    simp only [Memory.readBytes, List.getElem_cons_succ, e]
    exact Memory.getElem_readBytes m n (a + 1) i h'

/-- Reading back what was written gives it. -/
theorem Memory.readBytes_writeBytes (m : Memory) (a : Nat) (bs : List Byte) (h : m.wf = true)
    (hr : a + bs.length ≤ Config.lmemSize) : (m.writeBytes a bs).readBytes a bs.length = bs := by
  refine List.ext_getElem (by simp) fun i h1 h2 => ?_
  rw [Memory.getElem_readBytes, Memory.read_writeBytes_inside bs m a i h2 h hr]

/-- Reading a range that a write does not touch gives what it gave. -/
theorem Memory.readBytes_writeBytes_disjoint (m : Memory) (a : Nat) (bs : List Byte) (x n : Nat)
    (h : x + n ≤ a ∨ a + bs.length ≤ x) : (m.writeBytes a bs).readBytes x n = m.readBytes x n := by
  refine List.ext_getElem (by simp) fun i h1 h2 => ?_
  have hi : i < n := by simpa using h1
  rw [Memory.getElem_readBytes, Memory.getElem_readBytes, Memory.read_writeBytes_outside]
  rcases h with h | h
  · exact .inl (by omega)
  · exact .inr (by omega)

end Sys2Proof.Machine
end

