-- ==== Sys2Proof/Laws/Results.lean ====
section
/-! SUPPORT. What the commit of each shape of staged writes leaves, in the terms of `Safety`: one W register, one P
register with INF, an output, or nothing (10_state R40, R46). -/

namespace Sys2Proof.Machine

/-- A command error leaves the state of `failed`. -/
theorem raiseError_eq_failed (s : State) (e : CmdError) : s.raiseError e = failed s e.code := rfl

/-- A commit leaves the host's side and STATUS as a successful completion does. -/
theorem succeeds_commit (s : State) (st : Staged) : Succeeds s (s.commit st) :=
  ⟨rfl, rfl, rfl, rfl, rfl, rfl, rfl, rfl, rfl, rfl, rfl, rfl, rfl, rfl⟩

theorem succeedsWithW_commit (s : State) (d : Field4) (v : Wide) :
    SucceedsWithW s (s.commit { w := some (d, v) }) d v :=
  ⟨succeeds_commit s _, fun r => commit_readW s _ r, fun _ _ => rfl, fun _ => rfl, rfl, rfl⟩

theorem succeedsWithP_commit (s : State) (d : Field4) (q : Point) (b : Bool) (hd : d.toNat < 4) :
    SucceedsWithP s (s.commit { p := some (d, q), inf := some b }) d q b := by
  refine ⟨succeeds_commit s _, fun _ => rfl, fun r _ => ?_, fun _ => rfl, rfl, rfl⟩
  refine commit_readP s _ r ?_
  rintro r' q' h
  cases h
  exact hd

theorem succeedsWithOutput_commit (s : State) (out : List Byte) (hwf : s.lmem.wf = true)
    (hr : s.dstAddr.toNat + out.length ≤ 1024) :
    SucceedsWithOutput s
      (s.commit { mem := some (s.dstAddr.toNat, out), resLen := some (BitVec.ofNat 32 out.length) }) out := by
  refine ⟨succeeds_commit s _, fun _ => rfl, fun _ _ => rfl, ⟨fun i hi => ?_, fun x hx => ?_⟩, ?_, rfl⟩
  · exact Memory.read_writeBytes_inside out s.lmem _ i hi hwf hr
  · exact Memory.read_writeBytes_outside out s.lmem _ x hx
  · simp only [State.commit_resLen, Option.getD_some, BitVec.toNat_ofNat]
    omega

/-- A command whose pseudocode ends with an output completes with it, or ends with E_RANGE. -/
theorem exec_of_output {i : Instr} {s : State} {out : List Byte} (h : resultOf i s = s.output out)
    (hwf : s.lmem.wf = true) :
    (1024 < s.dstAddr.toNat + out.length → exec i s = .next (failed s 0x05)) ∧
    (s.dstAddr.toNat + out.length ≤ 1024 → ∃ t, exec i s = .next t ∧ SucceedsWithOutput s t out) := by
  rw [exec_eq_finish, h]
  refine ⟨fun hr => ?_, fun hr => ?_⟩
  · rw [output_of_outside hr]
    rfl
  · rw [output_of_inside hr]
    exact ⟨_, finish_ok (inLmem_some rfl hr), succeedsWithOutput_commit s out hwf hr⟩

/-- A command that stages a W register completes with it. -/
theorem exec_of_w {i : Instr} {s : State} {d : Field4} {v : Wide} (h : resultOf i s = .ok { w := some (d, v) }) :
    ∃ t, exec i s = .next t ∧ SucceedsWithW s t d v := by
  rw [exec_eq_finish, h]
  exact ⟨_, finish_ok rfl, succeedsWithW_commit s d v⟩

/-- A command that stages a P register and INF completes with them. -/
theorem exec_of_p {i : Instr} {s : State} {d : Field4} {q : Point} {b : Bool} (hd : d.toNat < 4)
    (h : resultOf i s = .ok { p := some (d, q), inf := some b }) :
    ∃ t, exec i s = .next t ∧ SucceedsWithP s t d q b := by
  rw [exec_eq_finish, h]
  exact ⟨_, finish_ok rfl, succeedsWithP_commit s d q b hd⟩

/-- A command that raises an error ends in the state of `failed`. -/
theorem exec_of_error {i : Instr} {s : State} {e : CmdError} (h : resultOf i s = .error e) :
    exec i s = .next (failed s e.code) := by
  rw [exec_eq_finish, h]
  rfl

/-! ### The output of each command that writes LMEM, once its checks have passed -/

theorem resultOf_pcomp {s : State} {a : Field4} (ha : a.toNat < 4) (hi : (s.readP a).inf = false) :
    resultOf (.pcomp a) s = s.output (compress (s.readP a)) := by
  show pcompResult a s = _
  rw [pcompResult, checkPointField_of_lt ha, except_ok_bind, affineOperand_of_affine hi, except_ok_bind]

theorem resultOf_hashCommand {s : State} (fn : List Byte → List Byte) (h : s.srcAddr.toNat + s.srcLen.toNat ≤ 1024) :
    hashCommand fn s = s.output (fn (s.lmem.readBytes s.srcAddr.toNat s.srcLen.toNat)) := by
  rw [hashCommand, sourceOperand_of_inside h, except_ok_bind]

theorem resultOf_base58Command {s : State} (enc : List Byte → List Byte)
    (h : s.srcAddr.toNat + s.srcLen.toNat ≤ 1024) (h0 : s.srcLen ≠ 0) :
    base58Command enc s = s.output (enc (s.lmem.readBytes s.srcAddr.toNat s.srcLen.toNat)) := by
  rcases base58Output_cases enc s with ⟨hr, _⟩ | ⟨_, hz, _⟩ | ⟨_, _, h'⟩
  · omega
  · exact absurd hz h0
  · rw [base58Command, h', except_ok_bind]

theorem resultOf_wif {s : State} {a : Field4} (h0 : 1 ≤ (s.readW a).toNat) (h1 : (s.readW a).toNat < orderN) :
    resultOf (.wif a) s = s.output (base58check (wifPayload (s.readW a).toNat)) := by
  show wifResult a s = _
  rw [wifResult, scalarOperand_of_valid h0 h1, except_ok_bind]

theorem resultOf_addr {s : State} {a : Field4} (ha : a.toNat < 4) (hi : (s.readP a).inf = false) :
    resultOf (.addr a) s = s.output (base58check (addrPayload (s.readP a))) := by
  show addrResult a s = _
  rcases addrOutput_cases a s with ⟨hw, _⟩ | ⟨_, hi', _⟩ | ⟨_, _, h'⟩
  · simp [pointFieldOk, ha] at hw
  · rw [hi] at hi'
    cases hi'
  · rw [addrResult, h', except_ok_bind]

end Sys2Proof.Machine
end

