-- ==== Sys2Proof/Tests/Slice0.lean ====
section
/-! SUPPORT. Tests: the well-formedness smoke tests, the decoding of a word written out for every command, one or two
vectors of the spec for every command and for the bus, and a witness for the hypotheses of every statement that has
some. The expected values are the spec's (95_test_vectors, 30_encoding R70, R77). -/

open Sys2Proof Sys2Proof.Machine

namespace Sys2Proof.Tests

/-! ### Helpers -/

/-- The reset state with the given SRC_ADDR, SRC_LEN and DST_ADDR. -/
def cfgState (src len dst : Word) : State := { State.reset with srcAddr := src, srcLen := len, dstAddr := dst }

/-- `s` with `W[r] = v`. -/
def withW (s : State) (r : Field4) (v : Wide) : State := { s with w := setW s.w r v }

/-- `s` with `P[r] = q`. -/
def withP (s : State) (r : Field4) (q : Point) : State := { s with p := setP s.p r q }

/-- `s` with the bytes `bs` in LMEM from address `a` on. -/
def withMem (s : State) (a : Nat) (bs : List Byte) : State := { s with lmem := s.lmem.writeBytes a bs }

/-- A look at the next state, and `none` for a fault or a refusal. -/
def look {α : Type} (o : Host.Outcome State Fault Refusal) (f : State → α) : Option α :=
  match o with
  | .next t => some (f t)
  | .fault _ => none
  | .refused _ => none

/-- ERRCODE and one W register after the command. -/
def seeW (i : Instr) (s : State) (r : Field4) : Option (BitVec 8 × Wide) :=
  look (exec i s) fun t => (t.errCode, t.readW r)

/-- ERRCODE, INF and one P register after the command. -/
def seeP (i : Instr) (s : State) (r : Field4) : Option (BitVec 8 × Bool × Point) :=
  look (exec i s) fun t => (t.errCode, t.inf, t.readP r)

/-- ERRCODE, RES_LEN and the bytes from DST_ADDR on after the command. -/
def seeOut (i : Instr) (s : State) : Option (BitVec 8 × Word × List Byte) :=
  look (exec i s) fun t => (t.errCode, t.resLen, t.lmem.readBytes s.dstAddr.toNat t.resLen.toNat)

/-- The newest response after the service of one event. -/
def answer (s : State) (e : HostEvent) : Option Response := (s.serve e).responses.head?

/-- The point 2G (95_test_vectors Q2). -/
def twoG : Point :=
  { x := 0xC6047F9441ED7D6D3045406E95C07CD85C778E4B8CEF3CA7ABAC09B95C709EE5,
    y := 0x1AE168FEA63DC339A3C58419466CEAEEF7F632653266D0E1236431A950CFE52A, inf := false }

/-- The point 3G (95_test_vectors Q3). -/
def threeG : Point :=
  { x := 0xF9308A019258C31049344F85F89D5229B531C845836F99B08601F113BCE036F9,
    y := 0x388F7B0F632DE8140FE337E62A37F3566500A99934C2231B6CB9FD7584B8E672, inf := false }

/-- The reset state with `pending` the word `v`, and `n` host transactions to be served before it completes. -/
def busyState (v : Word) (n : Nat) (es : List HostEvent) : State := { State.reset.accept v n with inputs := es }

/-! ### WellFormed refuses an ill-formed term at each check (30_encoding R68) -/

theorem test_wf_padd_d : (.padd 4 0 0 : Instr).wellFormed = false := by decide
theorem test_wf_padd_a : (.padd 0 4 0 : Instr).wellFormed = false := by decide
theorem test_wf_padd_b : (.padd 0 0 4 : Instr).wellFormed = false := by decide
theorem test_wf_pdbl_d : (.pdbl 4 0 : Instr).wellFormed = false := by decide
theorem test_wf_pdbl_a : (.pdbl 0 15 : Instr).wellFormed = false := by decide
theorem test_wf_smul_d : (.smul 4 0 : Instr).wellFormed = false := by decide
theorem test_wf_pcomp_a : (.pcomp 4 : Instr).wellFormed = false := by decide
theorem test_wf_pgen_d : (.pgen 4 : Instr).wellFormed = false := by decide
theorem test_wf_pinf_d : (.pinf 4 : Instr).wellFormed = false := by decide
theorem test_wf_pset_d : (.pset 4 0 0 : Instr).wellFormed = false := by decide
theorem test_wf_pgetx_a : (.pgetx 0 4 : Instr).wellFormed = false := by decide
theorem test_wf_pgety_a : (.pgety 0 4 : Instr).wellFormed = false := by decide
theorem test_wf_addr_a : (.addr 4 : Instr).wellFormed = false := by decide
theorem test_wf_boundary : (.padd 3 3 3 : Instr).wellFormed = true ∧ (.pset 3 15 15 : Instr).wellFormed = true ∧
    (.fadd 15 15 15 : Instr).wellFormed = true := by decide

/-! ### A word written out from R70's pattern decodes to its command; the comment gives RB RA RD OPC -/

/-- 0001 0101 0101 00000001 -/
theorem test_decode_fadd : decode 0x00015501 = .ok (.fadd 5 5 1) := by decide
/-- 0101 0100 0110 00000010 -/
theorem test_decode_fsub : decode 0x00054602 = .ok (.fsub 6 4 5) := by decide
/-- 0011 0010 0100 00000011 -/
theorem test_decode_fmul : decode 0x00032403 = .ok (.fmul 4 2 3) := by decide
/-- 0000 0111 0010 00000100 -/
theorem test_decode_finv : decode 0x00007204 = .ok (.finv 2 7) := by decide
/-- 0000 1100 0000 00010000 -/
theorem test_decode_sval : decode 0x0000C010 = .ok (.sval 12) := by decide
/-- 0011 0010 0001 00010001 -/
theorem test_decode_padd : decode 0x00032111 = .ok (.padd 1 2 3) := by decide
/-- 0000 0011 0010 00010010 -/
theorem test_decode_pdbl : decode 0x00003212 = .ok (.pdbl 2 3) := by decide
/-- 0000 1001 0001 00010011 -/
theorem test_decode_smul : decode 0x00009113 = .ok (.smul 1 9) := by decide
/-- 0000 0011 0000 00010100 -/
theorem test_decode_pcomp : decode 0x00003014 = .ok (.pcomp 3) := by decide
/-- 0000 0000 0011 00010101 -/
theorem test_decode_pgen : decode 0x00000315 = .ok (.pgen 3) := by decide
/-- 0000 0000 0010 00010110 -/
theorem test_decode_pinf : decode 0x00000216 = .ok (.pinf 2) := by decide
/-- 1010 1001 0011 00010111 -/
theorem test_decode_pset : decode 0x000A9317 = .ok (.pset 3 9 10) := by decide
/-- 0000 0001 1010 00011000 -/
theorem test_decode_pgetx : decode 0x00001A18 = .ok (.pgetx 10 1) := by decide
/-- 0000 0010 1011 00011001 -/
theorem test_decode_pgety : decode 0x00002B19 = .ok (.pgety 11 2) := by decide
/-- 0000 0000 0000 00100000 -/
theorem test_decode_sha256 : decode 0x00000020 = .ok (.sha256) := by decide
/-- 0000 0000 0000 00100001 -/
theorem test_decode_rmd160 : decode 0x00000021 = .ok (.rmd160) := by decide
/-- 0000 0000 0000 00100010 -/
theorem test_decode_hash160 : decode 0x00000022 = .ok (.hash160) := by decide
/-- 0000 0000 0000 00100011 -/
theorem test_decode_sha256d : decode 0x00000023 = .ok (.sha256d) := by decide
/-- 0000 0000 0000 00100100 -/
theorem test_decode_cksum : decode 0x00000024 = .ok (.cksum) := by decide
/-- 0000 0000 0000 00110000 -/
theorem test_decode_b58enc : decode 0x00000030 = .ok (.b58enc) := by decide
/-- 0000 0000 0000 00110001 -/
theorem test_decode_b58chk : decode 0x00000031 = .ok (.b58chk) := by decide
/-- 0000 1101 0000 00110010 -/
theorem test_decode_wif : decode 0x0000D032 = .ok (.wif 13) := by decide
/-- 0000 0010 0000 00110011 -/
theorem test_decode_addr : decode 0x00002033 = .ok (.addr 2) := by decide
/-- 0000 0000 1110 01000000 -/
theorem test_decode_ldw : decode 0x00000E40 = .ok (.ldw 14) := by decide
/-- 0000 0110 0000 01000001 -/
theorem test_decode_stw : decode 0x00006041 = .ok (.stw 6) := by decide

/-- 95_test_vectors X1 to X9: illegal words, each by its reason. -/
theorem test_decode_illegal :
    decode 0x00000000 = .error .opcode ∧ decode 0x00000005 = .error .opcode ∧ decode 0x0000001A = .error .opcode ∧
    decode 0x000000FF = .error .opcode ∧ decode 0x00000411 = .error .operand ∧ decode 0x00004011 = .error .operand ∧
    decode 0x00040011 = .error .operand ∧ decode 0x00000414 = .error .operand ∧ decode 0x00010010 = .error .operand ∧
    decode 0x00100020 = .error .reserved ∧ decode 0x80000001 = .error .reserved ∧
    decode 0x00010004 = .error .operand ∧ decode 0x0000F140 = .error .operand := by decide

/-- The opcode table's numbering: a 32-bit row, and no instruction from more bits. -/
theorem test_decodeTableWord :
    decodeTableWord 32 0x00033403 = some (.fmul 4 3 3) ∧ decodeTableWord 32 0x00000411 = none ∧
    decodeTableWord 40 0x00000020 = none := by decide

/-! ### Commands: the spec's vectors (95_test_vectors, L1 and L2) -/

/-- FADD: F2. FSUB: F7. FMUL: F13. fmul_aliased: F22: the destination is both sources. FINV: F19. finv_of_p: F21,
with a W3 that is not 0. -/
theorem test_field :
    seeW (.fadd 3 1 2) (withW (withW State.reset 1 (2 ^ 256 - 1)) 2 (2 ^ 256 - 1)) 3 = some (0, 0x2000007A0) ∧
    seeW (.fsub 3 1 2) (withW State.reset 2 (2 ^ 256 - 1)) 3 =
      some (0, 0xFFFFFFFFFFFFFFFFFFFFFFFFFFFFFFFFFFFFFFFFFFFFFFFFFFFFFFFDFFFFF85F) ∧
    seeW (.fmul 3 1 2) (withW (withW State.reset 1 (2 ^ 256 - 1)) 2 (2 ^ 256 - 1)) 3 = some (0, 0x1000007A0000E8900) ∧
    seeW (.fmul 1 1 1) (withW State.reset 1 7) 1 = some (0, 49) ∧
    seeW (.finv 3 1) (withW State.reset 1 3) 3 =
      some (0, 0xAAAAAAAAAAAAAAAAAAAAAAAAAAAAAAAAAAAAAAAAAAAAAAAAAAAAAAA9FFFFFD75) ∧
    seeW (.finv 3 1) (withW (withW State.reset 1 0xFFFFFFFFFFFFFFFFFFFFFFFFFFFFFFFFFFFFFFFFFFFFFFFFFFFFFFFEFFFFFC2F) 3 9) 3 = some (3, 9) := by
  decide +kernel

/-- SVAL: V2: n - 1 passes, n fails. -/
theorem test_sval :
    look (exec (.sval 0) (withW State.reset 0 (BitVec.ofNat 256 (orderN - 1)))) (·.errCode) = some 0 ∧
      look (exec (.sval 0) (withW State.reset 0 (BitVec.ofNat 256 orderN))) (·.errCode) = some 2 := by
  decide +kernel

/-- PADD: Q16: G + 2G. padd_off_curve: Q17: off the curve. PDBL: Q23: the destination is the source. pdbl_zero_y:
Q22. -/
theorem test_point_arithmetic :
    seeP (.padd 2 0 1) (withP (withP State.reset 0 generator) 1 twoG) 2 = some (0, false, threeG) ∧
    seeP (.padd 2 0 1) (withP (withP State.reset 0 ⟨1, 2, false⟩) 1 ⟨3, 4, false⟩) 2 =
      some (0, false, ⟨0xFFFFFFFFFFFFFFFFFFFFFFFFFFFFFFFFFFFFFFFFFFFFFFFFFFFFFFFEFFFFFC2C, 2, false⟩) ∧
    seeP (.pdbl 0 0) (withP State.reset 0 generator) 0 = some (0, false, twoG) ∧
    seeP (.pdbl 1 0) (withP State.reset 0 ⟨5, 0, false⟩) 1 = some (0, true, ⟨0, 0, true⟩) := by
  decide +kernel

/-- SMUL: Q6: 255 G. smul_zero: Q10: INF stays 1, and P1 stays O. -/
theorem test_smul :
    seeP (.smul 0 0) (withW State.reset 0 255) 0 =
      some (0, false, ⟨0x1B38903A43F7F114ED4500B4EAC7083FDEFECE1CF29C63528D563446F972C180,
        0x4036EDC931A60AE889353F77FD53DE4A2708B26B6F5DA72AD3394119DAF408F9, false⟩) ∧
    seeP (.smul 1 0) { State.reset with inf := true } 1 = some (2, true, ⟨0, 0, true⟩) := by
  decide +kernel

/-- PCOMP: Q34 and C1: the prefix of G is 0x02. pcomp_range: Q39, Q40 and Q41. -/
theorem test_pcomp :
    seeOut (.pcomp 0) (withP (cfgState 0 0 0x40) 0 generator) =
      some (0, 33, beBytes 33 0x0279BE667EF9DCBBAC55A06295CE870B07029BFCDB2DCE28D959F2815B16F81798) ∧
    look (exec (.pcomp 0) (withP (cfgState 0 0 991) 0 generator)) (·.errCode) = some 0 ∧
      look (exec (.pcomp 0) (withP (cfgState 0 0 992) 0 generator)) (·.errCode) = some 5 ∧
      look (exec (.pcomp 0) (cfgState 0 0 992)) (·.errCode) = some 4 := by
  decide +kernel

/-- PGEN: Q24. PINF: Q25. PSET: Q28. PGETX: Q29. pgetx_of_o: Q31. PGETY: Q30. -/
theorem test_point_moves :
    seeP (.pgen 3) State.reset 3 =
      some (0, false, ⟨0x79BE667EF9DCBBAC55A06295CE870B07029BFCDB2DCE28D959F2815B16F81798,
        0x483ADA7726A3C4655DA4FBFC0E1108A8FD17B448A68554199C47D08FFB10D4B8, false⟩) ∧
    seeP (.pinf 2) (withP State.reset 2 generator) 2 = some (0, true, ⟨0, 0, true⟩) ∧
    seeP (.pset 0 1 2) (withW (withW State.reset 1 (BitVec.ofNat 256 (primeP + 5))) 2 (2 ^ 256 - 1)) 0 =
      some (0, false, ⟨5, 0x1000003D0, false⟩) ∧
    seeW (.pgetx 2 1) (withP State.reset 1 twoG) 2 =
      some (0, 0xC6047F9441ED7D6D3045406E95C07CD85C778E4B8CEF3CA7ABAC09B95C709EE5) ∧
    seeW (.pgetx 2 1) (withW State.reset 2 9) 2 = some (4, 9) ∧
    seeW (.pgety 3 1) (withP State.reset 1 twoG) 3 =
      some (0, 0x1AE168FEA63DC339A3C58419466CEAEEF7F632653266D0E1236431A950CFE52A) := by
  decide +kernel

/-- SHA256: H2. sha256_two_blocks: H3: 56 bytes pad to two blocks. -/
theorem test_sha256 :
    seeOut .sha256 (withMem (cfgState 0 3 0x100) 0 [0x61, 0x62, 0x63]) =
      some (0, 32, beBytes 32 0xBA7816BF8F01CFEA414140DE5DAE2223B00361A396177A9CB410FF61F20015AD) ∧
    sha256 (beBytes 56 0x6162636462636465636465666465666765666768666768696768696A68696A6B696A6B6C6A6B6C6D6B6C6D6E6C6D6E6F6D6E6F706E6F7071) =
      beBytes 32 0x248D6A61D20638B8E5C026930C3E6039A33CE45964FF2167F6ECEDD419DB06C1 := by
  decide +kernel

/-- RMD160: H2. rmd160_two_blocks: H3. -/
theorem test_rmd160 :
    seeOut .rmd160 (withMem (cfgState 0 3 0x100) 0 [0x61, 0x62, 0x63]) =
      some (0, 20, beBytes 20 0x8EB208F7E05D987A9B044A8E98C6B087F15A0BFC) ∧
    ripemd160 (beBytes 56 0x6162636462636465636465666465666765666768666768696768696A68696A6B696A6B6C6A6B6C6D6B6C6D6E6C6D6E6F6D6E6F706E6F7071) =
      beBytes 20 0x12A053384A9C0C88E405A06C27DCF49ADA62EB2B := by
  decide +kernel

/-- HASH160: H9. SHA256D: H8. CKSUM: H19. cksum_no_wrap: H15: the sum does not wrap. -/
theorem test_hash_compositions :
    seeOut .hash160 (withMem (cfgState 0 3 0x100) 0 [0x61, 0x62, 0x63]) =
      some (0, 20, beBytes 20 0xBB1BE98C142444D7A56AA3981C3942A978E4DC33) ∧
    seeOut .sha256d (cfgState 0 0 0x100) =
      some (0, 32, beBytes 32 0x5DF6E0E2761359D30A8275058E299FCC0381534545F55CF43E41983F5D4C9456) ∧
    seeOut .cksum (withMem (cfgState 0 3 1020) 0 [0x61, 0x62, 0x63]) = some (0, 4, beBytes 4 0x4F8B42C2) ∧
    look (exec .cksum (cfgState 0xFFFFFFFF 1 0)) (·.errCode) = some 5 := by
  decide +kernel

/-- B58ENC: B7. b58enc_leading_zeros: B2. B58CHK: B14. b58chk_order: B18 and B19. -/
theorem test_base58 :
    seeOut .b58enc (withMem (cfgState 0 11 0x200) 0 (beBytes 11 0x68656C6C6F20776F726C64)) =
      some (0, 15, beBytes 15 0x53745631444C3643775472794B7956) ∧
    seeOut .b58enc (withMem (cfgState 0 3 0x200) 2 [0x01]) = some (0, 3, beBytes 3 0x313132) ∧
    seeOut .b58chk (withMem (cfgState 0 11 0x200) 0 (beBytes 11 0x68656C6C6F20776F726C64)) =
      some (0, 21, beBytes 21 0x337651423742364D7247515A617843754667346F68) ∧
    look (exec .b58chk (cfgState 0 0 0)) (·.errCode) = some 6 ∧
      look (exec .b58chk (cfgState 2000 0 0)) (·.errCode) = some 5 := by
  decide +kernel

/-- WIF: A1. wif_errors: A6 and A8. -/
theorem test_wif :
    seeOut (.wif 0) (withW (cfgState 0 0 0x200) 0 1) =
      some (0, 52, beBytes 52 0x4B77446942663839516747626A45684B6E68584A7548374C72636956725A693371596A6764394D3772465537337356486E6F576E) ∧
    look (exec (.wif 0) (withW (cfgState 0 0 973) 0 1)) (·.errCode) = some 5 ∧
      look (exec (.wif 0) (cfgState 0 0 973)) (·.errCode) = some 2 := by
  decide +kernel

/-- ADDR: A9. addr_short: A10: 33 characters. -/
theorem test_addr :
    seeOut (.addr 0) (withP (cfgState 0 0 990) 0 generator) =
      some (0, 34, beBytes 34 0x314267475A3974634E34726D394B427A446E374B7072517A3837535A323653414D48) ∧
    seeOut (.addr 0) (withP (cfgState 0 0 0x200) 0 twoG) =
      some (0, 33, beBytes 33 0x31634D68323238485443697753385A7361616B48384138777A65314A52355A7350) := by
  decide +kernel

/-- LDW: T1. ldw_range: T3. STW: T5. -/
theorem test_transfer :
    seeW (.ldw 1) (withMem State.reset 0 (beBytes 32 0x000102030405060708090A0B0C0D0E0F101112131415161718191A1B1C1D1E1F)) 1 =
      some (0, 0x000102030405060708090A0B0C0D0E0F101112131415161718191A1B1C1D1E1F) ∧
    seeW (.ldw 1) (withW (cfgState 993 0 0) 1 7) 1 = some (5, 7) ∧
    look (exec (.stw 6) (withW (cfgState 0 0 0x20) 6 1)) (fun t => (t.lmem, t.resLen)) = some ([(0x3F, 0x01)], 32) := by
  decide +kernel

/-! ### Bus and status (95_test_vectors S1 to S4, P6) -/

/-- bus_reads: S1 to S4. window_write: 20_memory R53's example: the scalar 1 at LMEM[0..32), big-endian.
dropped_write: P6, outcome B: the write is dropped and OVR is set. illegal_word: 60_exceptions R134: an illegal
word completes with E_ILLEGAL, STATUS = DONE, ERR and the code. sval_after_reset: 70_reset_and_hazards R162: SVAL
straight after reset reports E_SCALAR. -/
theorem test_bus :
    answer State.reset (.read 0x000 .w32) = some (.data (.b32 0x5EC10001)) ∧
      answer State.reset (.read 0x000 .w8) = some .busErr ∧ answer State.reset (.read 0x002 .w32) = some .busErr ∧
      answer State.reset (.read 0x401 .w16) = some .busErr ∧ answer State.reset (.read 0x402 .w16) = some (.data (.b16 0)) ∧
    (State.reset.serve (wr32 0x41C 0x01000000)).lmem = [(31, 0x01)] ∧
      answer (State.reset.serve (wr32 0x41C 0x01000000)) (.read 0x41F .w8) = some (.data (.b8 0x01)) ∧
    ((busyState 0x20 1 []).serve (wr32 0x01C 0x080)).dstAddr = 0 ∧
      ((busyState 0x20 1 []).serve (wr32 0x01C 0x080)).statusWord = 0x00000011 ∧
    look (step (State.reset.withFetchWord 32 0)) (fun t => (t.statusWord, t.cmd)) = some (0x00000106, 0) ∧
    look (step (State.reset.withFetchWord 32 0x10)) (fun t => (t.statusWord, t.cmd)) = some (0x00000206, 0x10) := by
  decide +kernel

/-- A pulse of the reset input, synchronised by one transaction, takes effect behind the next transaction and before a
later pulse (log 7). -/
theorem test_reset_synchronised :
    synchronised 1 [.hwReset true, rd32 0x000, rd32 0x004, .hwReset false] =
      [rd32 0x000, .hwReset true, rd32 0x004, .hwReset false] := by decide

/-- Where a Base58 command or ADDR will end with an error before there is an output, the latency is given length 0
(log 3); B58CHK of one byte outputs six characters (B15). -/
theorem test_outputLength :
    outputLength .b58chk State.reset = 0 ∧ outputLength .b58enc (cfgState 1025 0 0) = 0 ∧
      outputLength (.addr 0) State.reset = 0 ∧ outputLength .b58chk (cfgState 0 1 0) = 6 := by decide +kernel

/-! ### Witnesses: for each statement with hypotheses, a state and operands that meet them -/

theorem witness_decodeEncodeRoundTrip :
    (.padd 3 3 3 : Instr).wellFormed = true := by decide

theorem witness_encodeDecodeRoundTrip :
    decode 0x000FFF01 = .ok (.fadd 15 15 15) := by decide

/-- Each clause at its boundary. -/
theorem witness_illegalWordsByField :
    decode 0x0000001A = .error .opcode ∧ opcField 0x0000001A = 0x1A ∧ rsvField 0x80000001 = 0x800 ∧
      rdField 0x00000120 = 1 ∧ raField 0x00001020 = 1 ∧ rbField 0x00010010 = 1 ∧ (rdField 0x00000411).toNat = 4 ∧
      (raField 0x00004011).toNat = 4 ∧ (rbField 0x00040011).toNat = 4 ∧ (decode 0x00033311).isOk = true := by decide

theorem witness_stepRunsDecodedCommand :
    (busyState 0x00033311 0 []).pending = some 0x00033311 ∧ (busyState 0x00033311 0 []).due ∧
      (busyState 0x00033311 5 []).due ∧ decode 0x00033311 = .ok (.padd 3 3 3) ∧
      (.padd 3 3 3 : Instr).wellFormed = true :=
  ⟨rfl, .inl rfl, .inr rfl, by decide, by decide⟩

theorem witness_illegalWordCompletes :
    (busyState 0x411 0 []).pending = some 0x411 ∧ (busyState 0x411 0 []).due ∧ legalWord 0x411 = false :=
  ⟨rfl, .inl rfl, by decide⟩

theorem witness_stepServesEventsInOrder :
    ({ State.reset with inputs := [rd32 0x008] } : State).pending = none ∧
      (busyState 0x20 1 [rd32 0x008]).pending = some 0x20 ∧ (busyState 0x20 1 [rd32 0x008]).remaining = 0 + 1 ∧
      (busyState 0x20 1 [rd32 0x008]).inputs = [rd32 0x008] := by decide

/-- A sound state whose step serves a write, and one whose step completes a command. -/
theorem witness_stepKeepsSound :
    State.reset.Sound ∧ (∃ t, step State.reset = .next t) ∧
      look (step (State.reset.send [wr8 0x400 1])) (·.lmem) = some [(0, 1)] :=
  ⟨⟨by decide, by decide, by decide, by decide⟩, ⟨State.reset, rfl⟩, by decide⟩

theorem witness_pendingCommandCompletes : (busyState 0x20 3 [rd32 0x008]).pending = some 0x20 := by decide

/-- One event of each kind but a reset: a dropped write, an honoured one, and a read. -/
theorem witness_pendingInputsAreFrozen :
    (busyState 0x20 1 [wr32 0x014 7]).pending = some 0x20 ∧ (busyState 0x20 1 [wr32 0x014 7]).remaining = 0 + 1 ∧
      (busyState 0x20 1 [wr32 0x014 7]).inputs = [wr32 0x014 7] ∧ (wr32 0x014 7).resets = false ∧
      (wr32 0x008 2).resets = false ∧ (rd32 0x020).resets = false ∧
      look (step (busyState 0x20 1 [wr32 0x014 7])) (fun t => (t.srcAddr, t.ovr)) = some (0, true) := by decide

theorem witness_failedCommandChangesOnlyStatus :
    look (exec (.sval 0) State.reset) (fun t => (t.err, t.errCode)) = some (true, 0x02) := by decide

/-- Every code but E_ILLEGAL, by a well-formed command. -/
theorem witness_commandErrorTable :
    look (exec (.smul 0 0) State.reset) (·.errCode) = some 0x02 ∧
      look (exec (.finv 0 0) State.reset) (·.errCode) = some 0x03 ∧
      look (exec (.pcomp 0) State.reset) (·.errCode) = some 0x04 ∧
      look (exec .sha256 (cfgState 1025 0 0)) (·.errCode) = some 0x05 ∧
      look (exec .b58enc State.reset) (·.errCode) = some 0x06 ∧ (.smul 0 0 : Instr).wellFormed = true := by
  decide

theorem witness_commandWriters : (∃ t, exec (.fadd 0 0 0) State.reset = .next t) ∧
    (∃ t, exec (.pgen 0) State.reset = .next t) ∧ (∃ t, exec (.stw 0) State.reset = .next t) :=
  ⟨⟨_, rfl⟩, ⟨_, rfl⟩, ⟨_, rfl⟩⟩

theorem witness_illFormedCommandIsIllegal : (.addr 4 : Instr).wellFormed = false := by decide

/-- A residue that is not 0 (of p + 1), its inverse 1, and the residue 0 (of p). -/
theorem witness_finvGivesTheInverse :
    ((withW State.reset 1 (BitVec.ofNat 256 (primeP + 1))).readW 1).toNat % primeP = 1 ∧
      1 % primeP * 1 % primeP = 1 ∧
      ((withW State.reset 1 (BitVec.ofNat 256 primeP)).readW 1).toNat % primeP = 0 := by decide

theorem witness_fieldLaws : (BitVec.ofNat 256 (primeP - 1)).toNat % primeP ≠ 0 := by decide

/-- The least and the greatest valid scalar, 0, n and 2^256 - 1. -/
theorem witness_svalChecksTheScalar :
    1 ≤ ((withW State.reset 0 1).readW 0).toNat ∧
      ((withW State.reset 0 (BitVec.ofNat 256 (orderN - 1))).readW 0).toNat < orderN ∧
      (State.reset.readW 0).toNat = 0 ∧ orderN ≤ ((withW State.reset 0 (BitVec.ofNat 256 orderN)).readW 0).toNat ∧
      orderN ≤ ((withW State.reset 0 (2 ^ 256 - 1)).readW 0).toNat := by decide +kernel

/-- O on the left; O on the right; a double; equal abscissas with other ordinates, and with ordinate 0. -/
theorem witness_paddSpecialCases :
    (3 : Field4).toNat < 4 ∧ (State.reset.readP 3).inf = true ∧
      ((withP State.reset 3 generator).readP 3).inf = false ∧
      ((withP State.reset 3 generator).readP 3).y ≠ 0 ∧
      ((withP (withP State.reset 0 ⟨1, 2, false⟩) 1 ⟨1, 5, false⟩).readP 0).x =
        ((withP (withP State.reset 0 ⟨1, 2, false⟩) 1 ⟨1, 5, false⟩).readP 1).x ∧
      ((withP (withP State.reset 0 ⟨1, 2, false⟩) 1 ⟨1, 5, false⟩).readP 0).y ≠
        ((withP (withP State.reset 0 ⟨1, 2, false⟩) 1 ⟨1, 5, false⟩).readP 1).y ∧
      ((withP State.reset 0 ⟨1, 0, false⟩).readP 0).y = 0 := by decide

/-- G and 2G: canonical affine points with different abscissas. -/
theorem witness_paddChord :
    ((withP (withP State.reset 0 generator) 3 twoG).readP 0).inf = false ∧
      ((withP (withP State.reset 0 generator) 3 twoG).readP 3).inf = false ∧
      ((withP (withP State.reset 0 generator) 3 twoG).readP 0).canonical = true ∧
      ((withP (withP State.reset 0 generator) 3 twoG).readP 3).canonical = true ∧
      ((withP (withP State.reset 0 generator) 3 twoG).readP 0).x ≠
        ((withP (withP State.reset 0 generator) 3 twoG).readP 3).x := by decide

/-- O, a point with y = 0, and a canonical point with y not 0. -/
theorem witness_pdblResult :
    (State.reset.readP 3).inf = true ∧ ((withP State.reset 0 ⟨5, 0, false⟩).readP 0).y = 0 ∧
      ((withP State.reset 3 generator).readP 3).inf = false ∧ ((withP State.reset 3 generator).readP 3).y ≠ 0 ∧
      ((withP State.reset 3 generator).readP 3).canonical = true := by decide

/-- Three points of the curve, O among them. -/
theorem witness_pointAdditionIsTheGroupLaw :
    generator.onCurve ∧ twoG.onCurve ∧ Point.infinity.onCurve ∧ generator.canonical = true :=
  ⟨⟨by decide, .inr (by decide)⟩, ⟨by decide, .inr (by decide)⟩,
    ⟨by decide, .inl rfl⟩, by decide⟩

theorem witness_smulResult :
    (3 : Field4).toNat < 4 ∧ ((withW State.reset 0 (BitVec.ofNat 256 (orderN - 1))).readW 0).toNat = orderN - 1 ∧
      1 ≤ orderN - 1 ∧ (State.reset.readW 0).toNat = 0 ∧
      ((withW State.reset 0 (BitVec.ofNat 256 orderN)).readW 0).toNat = orderN := by decide

theorem witness_doubleAndAddIsRepeatedAddition : 2 ^ 256 - 1 < 2 ^ 256 := by decide

theorem witness_smulGivesAffineCurvePoint : 1 ≤ orderN - 1 ∧ orderN - 1 < orderN := by decide

/-- O; the last destination that fits, 991, and the first that does not. -/
theorem witness_pcompResult :
    (3 : Field4).toNat < 4 ∧ State.reset.lmem.wf = true ∧ (State.reset.readP 3).inf = true ∧
      ((withP State.reset 3 generator).readP 3).inf = false ∧ (cfgState 0 0 991).dstAddr.toNat + 33 ≤ 1024 ∧
      1024 < (cfgState 0 0 992).dstAddr.toNat + 33 := by decide

theorem witness_compressIsInjective :
    generator.onCurve ∧ generator.inf = false ∧ compress generator = compress generator :=
  ⟨⟨by decide, .inr (by decide)⟩, rfl, rfl⟩

theorem witness_pointLoads : (3 : Field4).toNat < 4 := by decide

theorem witness_coordinateReads :
    (3 : Field4).toNat < 4 ∧ ((withP State.reset 3 generator).readP 3).inf = false ∧
      (State.reset.readP 3).inf = true := by decide

/-- The longest source and the last destination that fit, and the first of each that do not, without wrap-around. -/
theorem witness_hashCommandResults :
    State.reset.lmem.wf = true ∧ (cfgState 0 1024 992).srcAddr.toNat + (cfgState 0 1024 992).srcLen.toNat ≤ 1024 ∧
      (cfgState 0 1024 992).dstAddr.toNat + 32 ≤ 1024 ∧
      1024 < (cfgState 0 1025 0).srcAddr.toNat + (cfgState 0 1025 0).srcLen.toNat ∧
      1024 < (cfgState 0xFFFFFFFF 1 0).srcAddr.toNat + (cfgState 0xFFFFFFFF 1 0).srcLen.toNat ∧
      1024 < (cfgState 0 0 993).dstAddr.toNat + 32 := by decide

/-- One byte 0x00 encodes to one character (B1): the last destination that fits is 1023; the empty source at the end of
LMEM; the first source that does not fit. -/
theorem witness_base58CommandResults :
    State.reset.lmem.wf = true ∧ base58 ((cfgState 0 1 1023).lmem.readBytes 0 1) = [0x31] ∧
      (cfgState 0 1 1023).srcLen ≠ 0 ∧ (cfgState 0 1 1023).dstAddr.toNat + 1 ≤ 1024 ∧
      1024 < (cfgState 0 1 1024).dstAddr.toNat + 1 ∧ (cfgState 1024 0 0).srcAddr.toNat ≤ 1024 ∧
      (cfgState 1024 0 0).srcLen = 0 ∧
      1024 < (cfgState 1024 1 0).srcAddr.toNat + (cfgState 1024 1 0).srcLen.toNat := by decide

theorem witness_base58DecodesBack : ([0x00] : List Byte) ≠ [] := by decide

/-- The scalars at the bounds, and the destinations 972 and 973. -/
theorem witness_wifResult :
    State.reset.lmem.wf = true ∧ (State.reset.readW 0).toNat = 0 ∧
      orderN ≤ ((withW State.reset 0 (BitVec.ofNat 256 orderN)).readW 0).toNat ∧
      1 ≤ ((withW State.reset 0 1).readW 0).toNat ∧
      ((withW State.reset 0 (BitVec.ofNat 256 (orderN - 1))).readW 0).toNat < orderN ∧
      (cfgState 0 0 972).dstAddr.toNat ≤ 972 ∧ 972 < (cfgState 0 0 973).dstAddr.toNat := by decide

/-- O; G, whose address has 34 characters, with the destinations 990 and 991. -/
theorem witness_addrResult :
    (3 : Field4).toNat < 4 ∧ State.reset.lmem.wf = true ∧ (State.reset.readP 3).inf = true ∧
      ((withP State.reset 3 generator).readP 3).inf = false ∧
      (base58check ([0x00] ++ hash160 (compress generator))).length = 34 ∧
      (cfgState 0 0 990).dstAddr.toNat + 34 ≤ 1024 ∧ 1024 < (cfgState 0 0 991).dstAddr.toNat + 34 := by
  decide +kernel

theorem witness_ldwResult :
    (cfgState 992 0 0).srcAddr.toNat ≤ 992 ∧ 992 < (cfgState 993 0 0).srcAddr.toNat := by decide

theorem witness_stwResult :
    State.reset.lmem.wf = true ∧ (cfgState 992 0 992).dstAddr.toNat ≤ 992 ∧
      (cfgState 992 0 992).srcAddr = (cfgState 992 0 992).dstAddr ∧
      992 < (cfgState 0 0 993).dstAddr.toNat := by decide

theorem witness_cmdWriteAccepts : State.reset.busy = false := by decide

/-- A write at each boundary of each clause: the window's first and last byte, the operand registers, STATUS, CTRL with
bit 0 = 1 and 0, IE, ID, RES_LEN and the first and last words of the reserved ranges. -/
theorem witness_writesWhileBusy :
    (busyState 0x20 1 []).busy = true ∧ legalAccess 0x400 .w8 = true ∧ legalAccess 0x7FF .w8 = true ∧
      legalAccess 0x004 .w32 = true ∧ legalAccess 0x014 .w32 = true ∧ legalAccess 0x018 .w32 = true ∧
      legalAccess 0x01C .w32 = true ∧ legalAccess 0x008 .w32 = true ∧ legalAccess 0x00C .w32 = true ∧
      (BusData.b32 1).toNat.testBit 0 = true ∧ (BusData.b32 0).toNat.testBit 0 = false ∧
      legalAccess 0x010 .w32 = true ∧ legalAccess 0x000 .w32 = true ∧ legalAccess 0x020 .w32 = true ∧
      legalAccess 0x3FC .w32 = true ∧ legalAccess 0x800 .w32 = true ∧ legalAccess 0xFFC .w32 = true := by decide

theorem witness_softResetFromAnyState :
    (1 : Word).getLsbD 0 = true ∧ (0xFFFFFFFE : Word).getLsbD 0 = false := by decide

/-- A byte access and a misaligned word on either side of the window, and misaligned accesses at its ends. -/
theorem witness_busErrorChangesNothing :
    (BusData.b8 0).width = .w8 ∧ (0x3FF : Offset).toNat < 0x400 ∧ 0x800 ≤ (0x800 : Offset).toNat ∧
      (BusData.b32 0).width = .w32 ∧ (0x002 : Offset).toNat % 4 ≠ 0 ∧ (0x401 : Offset).toNat % 2 ≠ 0 ∧
      (BusData.b16 0).width = .w16 ∧ (0x7FE : Offset).toNat % 4 ≠ 0 ∧ (0x7FE : Offset).toNat < 0x800 := by decide

/-- The reserved words at the ends of their ranges; RES_LEN while BUSY = 0. -/
theorem witness_controlReads :
    (0x024 : Offset).toNat % 4 = 0 ∧ 0x024 ≤ (0x024 : Offset).toNat ∧ (0x3FC : Offset).toNat % 4 = 0 ∧
      (0x3FC : Offset).toNat < 0x400 ∧ (0x800 : Offset).toNat % 4 = 0 ∧ 0x800 ≤ (0xFFC : Offset).toNat ∧
      State.reset.busy = false := by decide

theorem witness_configurationWrites : State.reset.busy = false := by decide

/-- The last byte, half word and word of LMEM. -/
theorem witness_windowReadLanes :
    State.reset.busy = false ∧ (0x7FF : Offset).toNat = 0x400 + 1023 ∧ 1023 < 1024 ∧
      (0x7FE : Offset).toNat = 0x400 + 1022 ∧ 1022 % 2 = 0 ∧ (0x7FC : Offset).toNat = 0x400 + 1020 ∧
      1020 % 4 = 0 := by decide

theorem witness_windowWriteLanes :
    State.reset.lmem.wf = true ∧ State.reset.busy = false ∧ (0x7FC : Offset).toNat = 0x400 + 1020 ∧
      1020 % (BusData.b32 0).width.bytes = 0 ∧ 1023 % (BusData.b8 0).width.bytes = 0 := by decide

/-- The window's first and last byte, and RES_LEN. -/
theorem witness_unspecifiedReadsChangeNothing :
    (busyState 0x20 1 []).busy = true ∧ legalAccess 0x400 .w8 = true ∧ legalAccess 0x7FF .w8 = true ∧
      legalAccess 0x020 .w32 = true := by decide

theorem witness_interruptLine :
    look (exec (.pgen 0) { State.reset with doneIe := true }) (·.irq) = some true ∧ State.reset.busy = false ∧
      (2 : Word).getLsbD 1 = true ∧ (1 : Word).getLsbD 0 = true ∧ (0 : Word).getLsbD 0 = false := by decide

/-- A dropped write sets OVR by a step, and a write of STATUS and a reset clear it. -/
theorem witness_ovrChangesAsR31Says :
    (busyState 0x20 1 []).busy = true ∧ (wr32 0x01C 0).operandWrite = true ∧ (wr32 0x00C 1).resets = true ∧
      (0x10 : Word).getLsbD 4 = true ∧ (busyState 0x20 1 [wr32 0x01C 0]).ovr = false ∧
      look (step (busyState 0x20 1 [wr32 0x01C 0])) (·.ovr) = some true ∧
      look (step { State.reset with ovr := true, inputs := [wr32 0x008 0x10] }) (·.ovr) = some false := by decide

/-- A successful command that writes INF, one that does not, and a failed one. -/
theorem witness_infChangesAsR30Says :
    look (exec (.pinf 0) State.reset) (fun t => (t.err, t.inf)) = some (false, true) ∧
      look (exec (.fadd 0 0 0) State.reset) (fun t => (t.err, t.inf)) = some (false, false) ∧
      look (exec (.sval 0) State.reset) (fun t => (t.err, t.inf)) = some (true, false) := by decide

/-- A pulse of the reset input to its active level, and one to the other level. -/
theorem witness_resetValues :
    (2 : Field4).toNat < 4 ∧ (HostEvent.hwReset Config.kdbRstActive).resets = true ∧
      (!Config.kdbRstActive) ≠ Config.kdbRstActive := ⟨by decide, by simp [HostEvent.resets], by simp⟩

theorem witness_registersAreNotOnTheBus :
    (wr32 0x00C 1).resets = true ∧ (wr32 0x00C 0).resets = false ∧ (rd32 0x000).resets = false := by decide

theorem witness_latencyIgnoresSecrets :
    decode 0x00000013 = .ok (.smul 0 0) ∧ State.reset.srcLen = (withW State.reset 0 1).srcLen ∧
      (.smul 0 0 : Instr) ≠ .b58enc ∧ (.smul 0 0 : Instr) ≠ .b58chk ∧ ∀ a, (.smul 0 0 : Instr) ≠ .addr a :=
  ⟨by decide, rfl, by decide, by decide, by decide⟩

end Sys2Proof.Tests
end

/-! PROOFS. Multiplication of G: `smul` and the k-fold sum stand for the multiples of one point of the group
(00_scope R12, 41_point R92). -/

namespace Sys2Proof.Machine

theorem generator_onCurve : generator.onCurve := ⟨canonical_generator, .inr (by decide)⟩

/-- O stands for the group's neutral element. -/
theorem represents_infinity : Represents Point.infinity 0 := rfl

/-- The k-fold sum stands for the group's k-th multiple of G (00_scope R12). -/
theorem represents_kFoldGenerator [Fact primeP.Prime] {G : secp.Point} (hG : Represents generator G) (k : Nat) :
    Represents (kFoldGenerator k) (k • G) := by
  induction k with
  | zero => simpa [kFoldGenerator] using represents_infinity
  | succ k ih =>
    rw [succ_nsmul]
    exact ih.add hG

/-- One round of double-and-add doubles the running point and adds G where the bit is set (41_point R92). -/
theorem Represents.doubleThenAdd [Fact primeP.Prime] {G P : secp.Point} {q : Point} (hq : Represents q P)
    (hG : Represents generator G) (b : Bool) :
    Represents (if b then pointAdd (pointDouble q) generator else pointDouble q) (2 • P + b.toNat • G) := by
  rw [two_nsmul]
  cases b with
  | false => simpa using hq.double
  | true => simpa using hq.double.add hG

/-- The loop's invariant: over the low `i` bits of `k` it shifts the running point `i` times and adds the multiple of
G that those bits write (41_point R92). -/
theorem represents_scalarMulFrom [Fact primeP.Prime] {G : secp.Point} (hG : Represents generator G) (k : Nat) :
    ∀ (i : Nat) (q : Point) (P : secp.Point), Represents q P →
      Represents (scalarMulFrom i k q) (2 ^ i • P + (k % 2 ^ i) • G)
  | 0, q, P, hq => by simpa [scalarMulFrom, Nat.mod_one] using hq
  | i + 1, q, P, hq => by
    have round : 2 ^ (i + 1) • P + (k % 2 ^ (i + 1)) • G =
        2 ^ i • (2 • P + (k.testBit i).toNat • G) + (k % 2 ^ i) • G := by
      rw [Nat.mod_pow_succ, Nat.toNat_testBit]
      module
    rw [round]
    exact represents_scalarMulFrom hG k i _ _ (hq.doubleThenAdd hG (k.testBit i))

/-- The loop from O over bits enough for `k` stands for the group's k-th multiple of G (41_point R92). -/
theorem represents_scalarMulFrom_infinity [Fact primeP.Prime] {G : secp.Point} (hG : Represents generator G)
    {i k : Nat} (hk : k < 2 ^ i) : Represents (scalarMulFrom i k Point.infinity) (k • G) := by
  have h := represents_scalarMulFrom hG k i _ _ represents_infinity
  rwa [nsmul_zero, zero_add, Nat.mod_eq_of_lt hk] at h

/-- `smul` stands for the group's k-th multiple of G for every 256-bit `k` (41_point R92). -/
theorem represents_scalarMul [Fact primeP.Prime] {G : secp.Point} (hG : Represents generator G) {k : Nat}
    (hk : k < 2 ^ 256) : Represents (scalarMul k) (k • G) :=
  represents_scalarMulFrom_infinity hG hk

/-- Settles O30: both sides stand for the same multiple of G in the group of the curve's points. -/
theorem doubleAndAddIsRepeatedAddition : Obligations.DoubleAndAddIsRepeatedAddition := by
  intro k hk
  have : Fact primeP.Prime := ⟨primeP_prime⟩
  obtain ⟨G, hG⟩ := exists_represents generator_onCurve
  exact (represents_scalarMul hG hk).left_unique (represents_kFoldGenerator hG k)

end Sys2Proof.Machine

/-! PROOFS. The completion of a command and what it leaves: an error taken, or the commit of what the command staged
(10_state R17, R18, R30, R38, R40, R46). -/

namespace Sys2Proof.Machine

/-! ### The next state of a completion -/

/-- All that the next state after `exec` can be: the error taken, or the commit of what the command staged. -/
theorem exec_next_cases {i : Instr} {s t : State} (h : exec i s = .next t) :
    (∃ e, resultOf i s = .error e ∧ t = s.raiseError e) ∨ (∃ st, resultOf i s = .ok st ∧ t = s.commit st) := by
  rw [exec_eq_finish] at h
  rcases finish_next h with ⟨e, hr, ht⟩ | ⟨st, hr, _, ht⟩
  · exact .inl ⟨e, hr, ht⟩
  · exact .inr ⟨st, hr, ht⟩

theorem exec_of_ok {i : Instr} {s : State} {st : Staged} (h : resultOf i s = .ok st) :
    exec i s = .next (s.commit st) := by
  rw [exec_eq_finish, h, finish_ok (resultOf_inLmem h)]

theorem complete_of_decode_ok (s : State) {v : Word} {i : Instr} (h : decode v = .ok i) : s.complete v = exec i s := by
  simp only [State.complete, h]

theorem complete_of_decode_error (s : State) {v : Word} {e : DecodeError} (h : decode v = .error e) :
    s.complete v = .next (s.raiseError .illegal) := by
  simp only [State.complete, h, finish_error]

/-- All that the completion of a word can answer: the error taken, E_ILLEGAL where no row fits, or the commit of what
its command staged (10_state R40, 30_encoding R72). -/
theorem complete_cases (s : State) (v : Word) :
    (∃ e, s.complete v = .next (s.raiseError e)) ∨
    (∃ i st, resultOf i s = .ok st ∧ s.complete v = .next (s.commit st)) := by
  cases hd : decode v with
  | error e => exact .inl ⟨_, complete_of_decode_error s hd⟩
  | ok i =>
    rw [complete_of_decode_ok s hd]
    rcases exec_cases i s with ⟨e, _, hx⟩ | ⟨st, hr, hx⟩
    · exact .inl ⟨e, hx⟩
    · exact .inr ⟨i, st, hr, hx⟩

/-- Every completion has a next state, in which no command is pending and OVR is as it was (10_state R31, R40). -/
theorem complete_next (s : State) (v : Word) : ∃ t, s.complete v = .next t ∧ t.pending = none ∧ t.ovr = s.ovr := by
  rcases complete_cases s v with ⟨e, h⟩ | ⟨_, st, _, h⟩
  · exact ⟨_, h, rfl, rfl⟩
  · exact ⟨_, h, rfl, rfl⟩

/-! ### What no completion changes -/

theorem sameHostSide_raiseError (s : State) (e : CmdError) : SameHostSide s (s.raiseError e) :=
  ⟨rfl, rfl, rfl, rfl, rfl, rfl, rfl, rfl, rfl⟩

theorem sameHostSide_commit (s : State) (st : Staged) : SameHostSide s (s.commit st) :=
  ⟨rfl, rfl, rfl, rfl, rfl, rfl, rfl, rfl, rfl⟩

/-- Settles O15: `exec` takes an error or commits, and either ends the command. -/
theorem everyCommandCompletes : Obligations.EveryCommandCompletes := by
  intro i s
  rcases exec_cases i s with ⟨e, _, h⟩ | ⟨st, _, h⟩
  · refine ⟨_, h, rfl, rfl, sameHostSide_raiseError s e, fun he => ?_⟩
    rw [State.raiseError_err] at he
    cases he
  · exact ⟨_, h, rfl, rfl, sameHostSide_commit s st, fun _ => rfl⟩

/-! ### What a command reads and writes -/

/-- A command's result is a function of W, P, LMEM, SRC_ADDR, SRC_LEN and DST_ADDR alone (10_state R46). -/
theorem resultOf_congr (i : Instr) {s t : State} (w : t.w = s.w) (p : t.p = s.p) (lmem : t.lmem = s.lmem)
    (srcAddr : t.srcAddr = s.srcAddr) (srcLen : t.srcLen = s.srcLen) (dstAddr : t.dstAddr = s.dstAddr) :
    resultOf i t = resultOf i s := by
  have readW : t.readW = s.readW := by
    funext r
    simp only [State.readW, w]
  have readP : t.readP = s.readP := by
    funext r
    simp only [State.readP, p]
  have scalar : t.scalarOperand = s.scalarOperand := by
    funext a
    simp only [State.scalarOperand, readW]
  have point : t.affineOperand = s.affineOperand := by
    funext a
    simp only [State.affineOperand, readP]
  have source : t.sourceOperand = s.sourceOperand := by
    funext n
    simp only [State.sourceOperand, srcAddr, lmem]
  have output : t.output = s.output := by
    funext out
    simp only [State.output, dstAddr]
  cases i <;>
    simp only [resultOf, finvResult, svalResult, paddResult, pdblResult, smulResult, pcompResult, psetResult,
      pgetxResult, pgetyResult, hashCommand, base58Command, base58Output, wifResult, addrResult, addrOutput, ldwResult,
      readW, readP, scalar, point, source, output, srcLen]

/-- Settles O19: the command's result is the same in both states, so both take the same error or commit the same
writes. -/
theorem noCommandReadsAFlag : Obligations.NoCommandReadsAFlag := by
  intro i s pending remaining cmd done err inf ovr doneIe errCode
  have hsame : resultOf i { s with
      pending := pending, remaining := remaining, cmd := cmd, done := done, err := err, inf := inf, ovr := ovr
      doneIe := doneIe, errCode := errCode } = resultOf i s := resultOf_congr i rfl rfl rfl rfl rfl rfl
  cases hr : resultOf i s with
  | error e =>
    exact ⟨_, _, exec_of_error hr, exec_of_error (hsame.trans hr), rfl, rfl, rfl, rfl, rfl, rfl, rfl,
      rfl⟩
  | ok st =>
    exact ⟨_, _, exec_of_ok hr, exec_of_ok (hsame.trans hr), rfl, rfl, rfl, rfl, rfl, rfl, rfl, rfl⟩

theorem commit_keepsW {s : State} {st : Staged} (h : st.w = none) : KeepsW s (s.commit st) := by
  intro r
  rw [commit_readW, h]

theorem commit_keepsP {s : State} {st : Staged} (h : st.p = none) : KeepsP s (s.commit st) := by
  intro r _
  simp only [State.readP, State.commit_p, h]

theorem commit_keepsMem {s : State} {st : Staged} (h : st.mem = none) : KeepsMem s (s.commit st) := by
  intro x
  rw [State.commit_lmem, h]

/-- Settles O18: a failed command writes none of them, and the commit writes what the command's shape stages. -/
theorem commandWriters : Obligations.CommandWriters := by
  intro i s t h
  rcases exec_next_cases h with ⟨e, _, rfl⟩ | ⟨st, hr, rfl⟩
  · have keepsW : KeepsW s (s.raiseError e) := fun _ => rfl
    have keepsP : KeepsP s (s.raiseError e) := fun _ _ => rfl
    have keepsMem : KeepsMem s (s.raiseError e) := fun _ => rfl
    cases i
    case fadd | fsub | fmul | finv | pgetx | pgety | ldw => exact ⟨keepsP, keepsMem, rfl, rfl⟩
    case padd | pdbl | smul | pgen | pinf | pset => exact ⟨keepsW, keepsMem, rfl⟩
    case sval => exact ⟨keepsW, keepsP, keepsMem, rfl, rfl⟩
    case pcomp | sha256 | rmd160 | hash160 | sha256d | cksum | b58enc | b58chk | wif | addr | stw =>
      exact ⟨keepsW, keepsP, rfl⟩
  · have shape := (resultOf_eq_ok i s st hr).2
    cases i
    case fadd | fsub | fmul | finv | pgetx | pgety | ldw =>
      obtain ⟨v, rfl⟩ := shape
      exact ⟨commit_keepsP rfl, commit_keepsMem rfl, rfl, rfl⟩
    case padd | pdbl | smul | pgen | pinf | pset =>
      simp only at shape
      subst shape
      exact ⟨commit_keepsW rfl, commit_keepsMem rfl, rfl⟩
    case sval =>
      simp only at shape
      subst shape
      exact ⟨commit_keepsW rfl, commit_keepsP rfl, commit_keepsMem rfl, rfl, rfl⟩
    case pcomp | sha256 | rmd160 | hash160 | sha256d | cksum | b58enc | b58chk | wif | addr | stw =>
      obtain ⟨out, ho⟩ := shape
      obtain ⟨_, rfl⟩ := output_eq_ok ho
      exact ⟨commit_keepsW rfl, commit_keepsP rfl, rfl⟩

/-! ### INF -/

/-- Where a command stages a point, its destination register reads it after the commit. -/
theorem commit_readP_same {s : State} {st : Staged} {d : Field4} {q : Point} (hd : pointFieldOk d = true)
    (h : st.p = some (d, q)) : (s.commit st).readP d = q := by
  have hlt : d.toNat < 4 := by simpa [pointFieldOk] using hd
  have hfit : ∀ r q', st.p = some (r, q') → r.toNat < 4 := by
    intro r q' h'
    rw [h] at h'
    cases h'
    exact hlt
  rw [commit_readP s st d hfit, h]
  exact if_pos rfl

end Sys2Proof.Machine

/-! PROOFS. The service of a host event: what it answers, and what it changes and leaves unchanged
(10_state R22 to R43; 20_memory R49 to R58; 70_reset_and_hazards R157, R158). -/

namespace Sys2Proof.Machine

/-! ### Where an access goes -/

theorem inWindow_eq_true {off : Offset} : inWindow off = true ↔ 0x400 ≤ off.toNat ∧ off.toNat < 0x800 := by
  simp [inWindow]

theorem inWindow_eq_false {off : Offset} : inWindow off = false ↔ off.toNat < 0x400 ∨ 0x800 ≤ off.toNat := by
  rw [Bool.eq_false_iff, Ne, inWindow_eq_true]
  omega

/-- A legal access outside the LMEM window is aligned to 4 (20_memory R50). -/
theorem legalAccess_aligned {off : Offset} {w : Width} (hl : legalAccess off w = true) (hw : inWindow off = false) :
    off.toNat % 4 = 0 := by
  simp only [legalAccess, hw, Bool.false_eq_true, if_false, Bool.and_eq_true, beq_iff_eq] at hl
  exact hl.2

/-- Of the aligned offsets from RES_LEN on, all but RES_LEN are reserved (10_state R22). -/
theorem ctlReg_resLen_or_reserved {off : Offset} (h : 0x020 ≤ off.toNat) (ha : off.toNat % 4 = 0) :
    ctlReg off = .resLen ∨ ctlReg off = .reserved := by
  rcases Nat.lt_or_ge off.toNat 0x024 with hlt | hge
  · have heq : off = 0x020 := BitVec.eq_of_toNat_eq (show off.toNat = 0x020 by omega)
    subst heq
    exact .inl rfl
  · exact .inr (ctlReg_reserved hge)

/-! ### Writes of the control registers -/

theorem serve_write_legal (s : State) {off : Offset} {d : BusData} (h : legalAccess off d.width = true) :
    s.serve (.write off d) = (s.writeEffect off d).respond .ok := busWrite_legal h

theorem serve_write_illegal (s : State) {off : Offset} {d : BusData} (h : legalAccess off d.width = false) :
    s.serve (.write off d) = s.respond .busErr := busWrite_illegal h

/-- A legal 32-bit write outside the window acts on the register at its offset (20_memory R50). -/
theorem serve_write_control (s : State) {off : Offset} (v : Word) (hl : legalAccess off .w32 = true)
    (hw : inWindow off = false) : s.serve (.write off (.b32 v)) = (s.writeReg v (ctlReg off)).respond .ok := by
  rw [serve_write_legal s hl, State.writeEffect, hw, if_neg Bool.false_ne_true, ofNat_b32]

theorem serve_write_cmd (s : State) (v : Word) :
    s.serve (.write 0x004 (.b32 v)) = (s.writeReg v .cmd).respond .ok := serve_write_control s v rfl rfl

theorem serve_write_status (s : State) (v : Word) :
    s.serve (.write 0x008 (.b32 v)) = (s.writeStatus v).respond .ok := serve_write_control s v rfl rfl

theorem serve_write_ctrl (s : State) (v : Word) :
    s.serve (.write 0x00C (.b32 v)) = (s.writeReg v .ctrl).respond .ok := serve_write_control s v rfl rfl

theorem serve_write_ie (s : State) (v : Word) :
    s.serve (.write 0x010 (.b32 v)) = { s with doneIe := v.getLsbD 0, responses := .ok :: s.responses } :=
  serve_write_control s v rfl rfl

theorem serve_write_srcAddr (s : State) (v : Word) :
    s.serve (.write 0x014 (.b32 v)) = (s.writeReg v .srcAddr).respond .ok := serve_write_control s v rfl rfl

theorem serve_write_srcLen (s : State) (v : Word) :
    s.serve (.write 0x018 (.b32 v)) = (s.writeReg v .srcLen).respond .ok := serve_write_control s v rfl rfl

theorem serve_write_dstAddr (s : State) (v : Word) :
    s.serve (.write 0x01C (.b32 v)) = (s.writeReg v .dstAddr).respond .ok := serve_write_control s v rfl rfl

section WriteReg
variable {s : State} (v : Word)

theorem writeReg_cmd_idle (h : s.busy = false) : s.writeReg v .cmd = s.accept v (s.latencyOf v) := by
  rw [State.writeReg, h, if_neg Bool.false_ne_true]

theorem writeReg_srcAddr_idle (h : s.busy = false) : s.writeReg v .srcAddr = { s with srcAddr := v } := by
  rw [State.writeReg, h, if_neg Bool.false_ne_true]

theorem writeReg_srcLen_idle (h : s.busy = false) : s.writeReg v .srcLen = { s with srcLen := v } := by
  rw [State.writeReg, h, if_neg Bool.false_ne_true]

theorem writeReg_dstAddr_idle (h : s.busy = false) : s.writeReg v .dstAddr = { s with dstAddr := v } := by
  rw [State.writeReg, h, if_neg Bool.false_ne_true]

theorem writeReg_cmd_busy (h : s.busy = true) : s.writeReg v .cmd = s.dropWrite := by
  rw [State.writeReg, h, if_pos rfl]

theorem writeReg_srcAddr_busy (h : s.busy = true) : s.writeReg v .srcAddr = s.dropWrite := by
  rw [State.writeReg, h, if_pos rfl]

theorem writeReg_srcLen_busy (h : s.busy = true) : s.writeReg v .srcLen = s.dropWrite := by
  rw [State.writeReg, h, if_pos rfl]

theorem writeReg_dstAddr_busy (h : s.busy = true) : s.writeReg v .dstAddr = s.dropWrite := by
  rw [State.writeReg, h, if_pos rfl]

variable (s) {v}

theorem writeReg_ctrl_set (h : v.getLsbD 0 = true) : s.writeReg v .ctrl = s.resetBlock := by
  rw [State.writeReg, h, if_pos rfl]

theorem writeReg_ctrl_clear (h : v.getLsbD 0 = false) : s.writeReg v .ctrl = s := by
  rw [State.writeReg, h, if_neg Bool.false_ne_true]

end WriteReg

/-- Settles O44. -/
theorem cmdWriteAccepts : Obligations.CmdWriteAccepts := by
  intro s v hb
  refine ⟨s.latencyOf v, ?_⟩
  rw [serve_write_cmd, writeReg_cmd_idle v hb]
  rfl

/-- Settles O46. -/
theorem statusWriteOneToClear : Obligations.StatusWriteOneToClear := fun s v => serve_write_status s v

/-- Settles O51. -/
theorem configurationWrites : Obligations.ConfigurationWrites := by
  intro s v
  refine ⟨serve_write_ie s v, fun hb => ⟨?_, ?_, ?_⟩⟩
  · rw [serve_write_srcAddr, writeReg_srcAddr_idle v hb]
    rfl
  · rw [serve_write_srcLen, writeReg_srcLen_idle v hb]
    rfl
  · rw [serve_write_dstAddr, writeReg_dstAddr_idle v hb]
    rfl

/-! ### Writes while a command is pending -/

/-- A window write while BUSY = 1 is dropped (10_state R41). -/
theorem writeEffect_window_busy {s : State} {off : Offset} (d : BusData) (hb : s.busy = true)
    (hw : inWindow off = true) : s.writeEffect off d = s.dropWrite := by
  rw [State.writeEffect, hw, if_pos rfl, hb, if_pos rfl]

/-- A write of ID, RES_LEN or a reserved offset does nothing (10_state R22, R24, R38). -/
theorem writeReg_readOnly (s : State) (v : Word) {r : CtlReg} (h : r = .id ∨ r = .resLen ∨ r = .reserved) :
    s.writeReg v r = s := by
  rcases h with rfl | rfl | rfl
  · rfl
  · rfl
  · rfl

/-- Settles O45: the offset says which register the write reaches, and a legal write of a register has 32 bits. -/
theorem writesWhileBusy : Obligations.WritesWhileBusy := by
  intro s off d hb hl
  have control (hw : inWindow off = false) :
      ∃ v, d = .b32 v ∧ s.serve (.write off (.b32 v)) = (s.writeReg v (ctlReg off)).respond .ok := by
    obtain ⟨v, rfl⟩ := legalAccess_control hl hw
    exact ⟨v, rfl, serve_write_control s v hl hw⟩
  refine ⟨?dropped, ?status, ?reset, ?noReset, ?ie, ?readOnly⟩
  case dropped =>
    rintro (hw | rfl | rfl | rfl | rfl)
    · rw [serve_write_legal s hl, writeEffect_window_busy d hb (inWindow_eq_true.2 hw)]
      rfl
    · obtain ⟨v, rfl, h⟩ := control rfl
      exact h.trans (congrArg (State.respond · .ok) (writeReg_cmd_busy v hb))
    · obtain ⟨v, rfl, h⟩ := control rfl
      exact h.trans (congrArg (State.respond · .ok) (writeReg_srcAddr_busy v hb))
    · obtain ⟨v, rfl, h⟩ := control rfl
      exact h.trans (congrArg (State.respond · .ok) (writeReg_srcLen_busy v hb))
    · obtain ⟨v, rfl, h⟩ := control rfl
      exact h.trans (congrArg (State.respond · .ok) (writeReg_dstAddr_busy v hb))
  case status =>
    rintro rfl
    obtain ⟨v, rfl, h⟩ := control rfl
    rw [ofNat_b32]
    exact h
  case reset =>
    rintro rfl h0
    obtain ⟨v, rfl, h⟩ := control rfl
    exact h.trans (congrArg (State.respond · .ok) (writeReg_ctrl_set s h0))
  case noReset =>
    rintro rfl h0
    obtain ⟨v, rfl, h⟩ := control rfl
    exact h.trans (congrArg (State.respond · .ok) (writeReg_ctrl_clear s h0))
  case ie =>
    rintro rfl
    obtain ⟨v, rfl, h⟩ := control rfl
    exact h
  case readOnly =>
    intro hoff
    have hw : inWindow off = false := by
      rw [inWindow_eq_false]
      rcases hoff with rfl | hoff | hoff
      · decide
      · omega
      · omega
    have hreg : ctlReg off = .id ∨ ctlReg off = .resLen ∨ ctlReg off = .reserved := by
      rcases hoff with rfl | hoff | hoff
      · exact .inl rfl
      · exact .inr (ctlReg_resLen_or_reserved hoff.1 (legalAccess_aligned hl hw))
      · exact .inr (ctlReg_resLen_or_reserved (by omega) (legalAccess_aligned hl hw))
    obtain ⟨v, rfl, h⟩ := control hw
    rw [h, writeReg_readOnly s v hreg]
    rfl

/-! ### Reads -/

/-- A legal read outside the window answers with the register at its offset (20_memory R50), but for RES_LEN while
BUSY = 1 (10_state R42). -/
theorem serve_read_control {s : State} {off : Offset} (hl : legalAccess off .w32 = true) (hw : inWindow off = false)
    (hr : s.busy = false ∨ ctlReg off ≠ .resLen) :
    s.serve (.read off .w32) = s.respond (.data (.b32 (s.readReg (ctlReg off)))) := by
  have hspec : (s.busy && unspecifiedWhenBusy off) = false := by
    rcases hr with hb | hne
    · rw [hb, Bool.false_and]
    · simp [unspecifiedWhenBusy, hw, hne]
  rw [State.serve, busRead_specified hl hspec, State.readValue, hw, if_neg Bool.false_ne_true]

/-- An aligned reserved offset reads 0 (10_state R22). -/
theorem serve_read_reserved (s : State) {off : Offset} (ha : off.toNat % 4 = 0) (h : 0x024 ≤ off.toNat)
    (hw : inWindow off = false) : s.serve (.read off .w32) = s.respond (.data (.b32 0)) := by
  have hl : legalAccess off .w32 = true := by simp [legalAccess, hw, ha]
  rw [serve_read_control hl hw (.inr (by rw [ctlReg_reserved h]; decide)), ctlReg_reserved h]
  rfl

/-- IE reads DONE_IE in bit 0 (10_state R34). -/
theorem ieWord_eq (s : State) : s.ieWord = if s.doneIe = true then 1 else 0 := by
  cases h : s.doneIe <;> simp [State.ieWord, flagBit, h]

/-- Settles O50: each offset names its register, and the ranges past RES_LEN are reserved. -/
theorem controlReads : Obligations.ControlReads := by
  intro s off v h
  rcases h with ⟨rfl, rfl⟩ | ⟨rfl, rfl⟩ | ⟨rfl, rfl⟩ | ⟨rfl, rfl⟩ | ⟨rfl, rfl⟩ | ⟨rfl, rfl⟩ | ⟨rfl, rfl⟩ | ⟨rfl, rfl⟩ |
    ⟨rfl, hb, rfl⟩ | ⟨ha, h1, h2, rfl⟩ | ⟨ha, h1, rfl⟩
  · exact serve_read_control rfl rfl (.inr (by decide))
  · exact serve_read_control rfl rfl (.inr (by decide))
  · exact serve_read_control rfl rfl (.inr (by decide))
  · exact serve_read_control rfl rfl (.inr (by decide))
  · rw [← ieWord_eq]
    exact serve_read_control rfl rfl (.inr (by decide))
  · exact serve_read_control rfl rfl (.inr (by decide))
  · exact serve_read_control rfl rfl (.inr (by decide))
  · exact serve_read_control rfl rfl (.inr (by decide))
  · exact serve_read_control rfl rfl (.inl hb)
  · exact serve_read_reserved s ha h1 (inWindow_eq_false.2 (.inl h2))
  · exact serve_read_reserved s ha (by omega) (inWindow_eq_false.2 (.inr h1))

@[simp] theorem BusData.width_ofNat (w : Width) (n : Nat) : (BusData.ofNat w n).width = w := by
  cases w
  · rfl
  · rfl
  · rfl

theorem BusData.toNat_ofNat (w : Width) (n : Nat) : (BusData.ofNat w n).toNat = n % 2 ^ (8 * w.bytes) := by
  cases w
  · exact BitVec.toNat_ofNat n 8
  · exact BitVec.toNat_ofNat n 16
  · exact BitVec.toNat_ofNat n 32

/-- A legal read of what R42 leaves unspecified draws a fresh free value (10_state R42; log 4). -/
theorem serve_read_unspecified {s : State} {off : Offset} {w : Width} (hl : legalAccess off w = true)
    (hb : s.busy = true) (hu : unspecifiedWhenBusy off = true) :
    s.serve (.read off w) = { s with
      draws := s.draws + 1
      responses := .data (BusData.ofNat w (Config.busyRead s.draws).toNat) :: s.responses } := by
  rw [State.serve, State.busRead, hl, if_pos rfl, hb, hu, Bool.and_true, if_pos rfl]
  rfl

/-- Settles O54. -/
theorem unspecifiedReadsChangeNothing : Obligations.UnspecifiedReadsChangeNothing := by
  intro s off w hb hl hoff
  have hu : unspecifiedWhenBusy off = true := by
    rcases hoff with hw | rfl
    · rw [unspecifiedWhenBusy, inWindow_eq_true.2 hw, Bool.true_or]
    · rfl
  exact ⟨_, BusData.width_ofNat w _, BusData.toNat_ofNat w _, serve_read_unspecified hl hb hu⟩

/-! ### The layout of STATUS -/

theorem getLsbD_flagBit (b : Bool) (i j : Nat) : (flagBit b i).getLsbD j = (b && decide (j < 32 ∧ j = i)) := by
  cases b with
  | false => simp [flagBit]
  | true =>
    rw [Bool.true_and, flagBit, if_pos rfl, BitVec.ofNat_eq_ofNat, BitVec.getLsbD_shiftLeft, BitVec.getLsbD_one]
    by_cases h : j = i
    · simp [h]
    · have hbit : i ≤ j → ¬ j - i = 0 := by omega
      simpa [h] using fun _ => hbit

/-- Each bit of STATUS: the flag at its place, or the bit of ERRCODE (10_state R26). -/
theorem getLsbD_statusWord (s : State) {j : Nat} (hj : j < 32) : s.statusWord.getLsbD j =
    (s.busy && j == 0 || s.done && j == 1 || s.err && j == 2 || s.inf && j == 3 || s.ovr && j == 4 ||
      decide (8 ≤ j) && s.errCode.getLsbD (j - 8)) := by
  have hcode : decide (j - 8 < 32) = true := by simpa using (by omega : j - 8 < 32)
  simp only [State.statusWord, BitVec.getLsbD_or, getLsbD_flagBit, BitVec.getLsbD_shiftLeft, BitVec.getLsbD_setWidth,
    hj, hcode, true_and, decide_true, Bool.true_and, ← decide_not, Nat.not_lt]
  rfl

/-- The bits of STATUS between the flags and ERRCODE, and those above ERRCODE, read 0 (10_state R26). -/
theorem statusWord_reserved (s : State) {j : Nat} (hj : j < 32) (h5 : 5 ≤ j) (h : j < 8 ∨ 16 ≤ j) :
    s.statusWord.getLsbD j = false := by
  have hflags : j ≠ 0 ∧ j ≠ 1 ∧ j ≠ 2 ∧ j ≠ 3 ∧ j ≠ 4 := by omega
  have hcode : (decide (8 ≤ j) && s.errCode.getLsbD (j - 8)) = false := by
    rcases h with h | h
    · rw [decide_eq_false (by omega), Bool.false_and]
    · rw [BitVec.getLsbD_of_ge _ _ (by omega), Bool.and_false]
  simp [getLsbD_statusWord s hj, hflags, hcode]

theorem statusWord_errCode (s : State) {i : Nat} (hi : i < 8) :
    s.statusWord.getLsbD (8 + i) = s.errCode.getLsbD i := by
  have hflags : 8 + i ≠ 0 ∧ 8 + i ≠ 1 ∧ 8 + i ≠ 2 ∧ 8 + i ≠ 3 ∧ 8 + i ≠ 4 := by omega
  simp only [getLsbD_statusWord s (by omega : 8 + i < 32), beq_false_of_ne, ne_eq, hflags, not_false_eq_true,
    Bool.and_false, Bool.false_or, Nat.le_add_right, decide_true, Bool.true_and, Nat.add_sub_cancel_left]

/-- Settles O47: the flags by their bits, the three fields bit by bit. -/
theorem statusWordLayout : Obligations.StatusWordLayout := by
  intro s
  refine ⟨rfl, ?busy, ?done, ?err, ?inf, ?ovr, ?reserved, ?errCode, ?high⟩
  case reserved =>
    refine BitVec.eq_of_getLsbD_eq fun i hi => ?_
    simp [BitVec.getLsbD_extractLsb', statusWord_reserved s (by omega : 5 + i < 32) (by omega) (.inl (by omega))]
  case errCode =>
    refine BitVec.eq_of_getLsbD_eq fun i hi => ?_
    simp [statusWord_errCode s hi, hi]
  case high =>
    refine BitVec.eq_of_getLsbD_eq fun i hi => ?_
    simp [BitVec.getLsbD_extractLsb', statusWord_reserved s (by omega : 16 + i < 32) (by omega) (.inr (by omega))]
  all_goals
    rw [getLsbD_statusWord s (by decide)]
    simp

end Sys2Proof.Machine

/-! PROOFS. The invariant `State.Sound`: it holds at reset, and every completion and every host event keeps it
(10_state R19, R25, R29, R38; 20_memory R48; 60_exceptions R133). -/

namespace Sys2Proof.Machine

/-! ### STATUS -/

/-- What `State.statusSound` asks, clause by clause. -/
theorem statusSound_iff (s : State) : s.statusSound = true ↔
    (∀ v, s.pending = some v → s.cmd = v ∧ s.done = false ∧ s.err = false) ∧
    (s.pending = none → s.remaining = 0) ∧
    (s.err = true → 1 ≤ s.errCode.toNat ∧ s.errCode.toNat ≤ 6) ∧ (s.err = false → s.errCode = 0) := by
  unfold State.statusSound
  cases hp : s.pending <;> cases he : s.err <;> simp [and_assoc]

/-- The codes of the command errors are 0x01 to 0x06 (60_exceptions R133). -/
theorem CmdError.code_bounds (e : CmdError) : 1 ≤ e.code.toNat ∧ e.code.toNat ≤ 6 := by
  cases e <;> decide

theorem statusSound_raiseError (s : State) (e : CmdError) : (s.raiseError e).statusSound = true := by
  simp [statusSound_iff, e.code_bounds]

theorem statusSound_commit (s : State) (st : Staged) : (s.commit st).statusSound = true := by
  simp [statusSound_iff]

theorem statusSound_accept (s : State) (v : Word) (n : Nat) : (s.accept v n).statusSound = true := by
  simp [statusSound_iff]

theorem statusSound_writeStatus {s : State} (v : Word) (h : s.statusSound = true) :
    (s.writeStatus v).statusSound = true := by
  obtain ⟨hpending, hidle, herr, hok⟩ := (statusSound_iff s).1 h
  refine (statusSound_iff _).2 ⟨fun v' hv => ?_, hidle, fun he => ?_, fun he => ?_⟩
  · obtain ⟨hcmd, hdone, herr'⟩ := hpending v' hv
    exact ⟨hcmd, by simp [hdone], by simp [herr']⟩
  · obtain ⟨he1, he2⟩ : s.err = true ∧ v.getLsbD 2 = false := by simpa using he
    rw [State.writeStatus_errCode, if_neg (Bool.eq_false_iff.1 he2)]
    exact herr he1
  · rw [State.writeStatus_errCode]
    split
    · rfl
    · next h2 =>
      rw [State.writeStatus_err, Bool.eq_false_iff.2 h2, Bool.not_false, Bool.and_true] at he
      exact hok he

/-! ### What a command stages -/

/-- A point register of a sound state is canonical, whatever field names it (10_state R19). -/
theorem State.Sound.readP {s : State} (hs : s.Sound) (r : Field4) : (s.readP r).canonical = true := by
  unfold State.readP
  by_cases hr : r.toNat < 4
  · rw [Vector.getElem?_eq_getElem hr]
    exact hs.points r.toNat hr
  · rw [Vector.getElem?_eq_none (by omega)]
    exact Point.canonical_infinity

/-- Every point a command stages is canonical (10_state R19, 41_point R88). -/
theorem canonical_of_staged {i : Instr} {s : State} {st : Staged} (hs : s.Sound) (hr : resultOf i s = .ok st)
    {d : Field4} {q : Point} (hp : st.p = some (d, q)) : q.canonical = true := by
  have of_point {d' : Field4} {q' : Point} (h : st.p = some (d', q')) (hq : q'.canonical = true) :
      q.canonical = true := by
    cases h.symm.trans hp
    exact hq
  have no_point (h : st.p = none) : q.canonical = true := by cases h.symm.trans hp
  have shape := (resultOf_eq_ok i s st hr).2
  cases i
  case padd _ a b => exact of_point (congrArg Staged.p shape) (canonical_pointAdd _ _ (hs.readP a) (hs.readP b))
  case pdbl => exact of_point (congrArg Staged.p shape) (canonical_pointDouble _)
  case smul => exact of_point (congrArg Staged.p shape) (canonical_scalarMul _)
  case pgen => exact of_point (congrArg Staged.p shape) canonical_generator
  case pinf => exact of_point (congrArg Staged.p shape) Point.canonical_infinity
  case pset => exact of_point (congrArg Staged.p shape) (canonical_affine _ _)
  case sval => exact no_point (congrArg Staged.p shape)
  case fadd | fsub | fmul | finv | pgetx | pgety | ldw =>
    obtain ⟨_, rfl⟩ := shape
    exact no_point rfl
  case pcomp | sha256 | rmd160 | hash160 | sha256d | cksum | b58enc | b58chk | wif | addr | stw =>
    obtain ⟨_, ho⟩ := shape
    obtain ⟨_, rfl⟩ := output_eq_ok ho
    exact no_point rfl

/-- RES_LEN as a command stages it is the length of an output inside LMEM (10_state R38). -/
theorem resLen_of_staged {i : Instr} {s : State} {st : Staged} (hr : resultOf i s = .ok st) {n : Word}
    (hn : st.resLen = some n) : n.toNat ≤ Config.lmemSize := by
  have shape := (resultOf_eq_ok i s st hr).2
  cases i
  case pcomp | sha256 | rmd160 | hash160 | sha256d | cksum | b58enc | b58chk | wif | addr | stw =>
    obtain ⟨out, ho⟩ := shape
    obtain ⟨hfit, rfl⟩ := output_eq_ok ho
    cases hn
    rw [BitVec.toNat_ofNat]
    exact (Nat.mod_le _ _).trans ((Nat.le_add_left _ _).trans hfit)
  case fadd | fsub | fmul | finv | pgetx | pgety | ldw =>
    obtain ⟨_, rfl⟩ := shape
    cases hn
  case padd | pdbl | smul | pgen | pinf | pset | sval => cases (congrArg Staged.resLen shape).symm.trans hn

/-! ### Completions -/

theorem State.Sound.raiseError {s : State} (hs : s.Sound) (e : CmdError) : (s.raiseError e).Sound :=
  ⟨hs.lmem, hs.points, statusSound_raiseError s e, hs.resLen⟩

/-- The P file stays canonical when a canonical point is written (10_state R19). -/
theorem canonical_setP {p : Vector Point 4} (hp : ∀ (r : Nat) (h : r < 4), (p[r]'h).canonical = true) (d : Field4)
    {q : Point} (hq : q.canonical = true) (r : Nat) (h : r < 4) : ((setP p d q)[r]'h).canonical = true := by
  simp only [setP, Vector.getElem_setIfInBounds]
  split
  · exact hq
  · exact hp r h

theorem State.Sound.commit {s : State} (hs : s.Sound) {i : Instr} {st : Staged} (hr : resultOf i s = .ok st) :
    (s.commit st).Sound where
  lmem := by
    rw [State.commit_lmem]
    split
    · exact Memory.wf_writeBytes _ _ _ hs.lmem
    · exact hs.lmem
  points := by
    rcases hp : st.p with _ | ⟨d, q⟩ <;> simp only [State.commit_p, hp]
    · exact hs.points
    · exact canonical_setP hs.points d (canonical_of_staged hs hr hp)
  status := statusSound_commit s st
  resLen := by
    rw [State.commit_resLen]
    cases hn : st.resLen with
    | none => exact hs.resLen
    | some n => exact resLen_of_staged hr hn

theorem State.Sound.complete {s t : State} (hs : s.Sound) {v : Word} (h : s.complete v = .next t) : t.Sound := by
  rcases complete_cases s v with ⟨e, hc⟩ | ⟨i, st, hr, hc⟩
  · cases hc.symm.trans h
    exact hs.raiseError e
  · cases hc.symm.trans h
    exact hs.commit hr

/-! ### Reset -/

/-- Settles O11. -/
theorem resetIsSound : Obligations.ResetIsSound :=
  { lmem := rfl
    points := fun r h => by
      simp only [State.reset_p, Vector.getElem_replicate]
      exact Point.canonical_infinity
    status := rfl
    resLen := Nat.zero_le _ }

theorem sound_resetBlock (s : State) : s.resetBlock.Sound :=
  ⟨resetIsSound.lmem, resetIsSound.points, resetIsSound.status, resetIsSound.resLen⟩

/-- Settles O12. -/
theorem resetValues : Obligations.ResetValues := by
  have hw : ∀ r, State.reset.readW r = 0 := fun r => by
    simp only [State.readW, State.reset_w, Vector.getElem_replicate]
  have hp : ∀ r : Field4, r.toNat < 4 → State.reset.readP r = Point.infinity := fun r h => by
    simp only [State.readP, State.reset_p, Vector.getElem?_replicate, h, if_true, Option.getD_some]
  refine ⟨hw, hp, fun _ => rfl, rfl, rfl, rfl, rfl, rfl, rfl, rfl, rfl, rfl, rfl, rfl, rfl, rfl, rfl, rfl, ?_⟩
  exact fun s level => ⟨fun h => if_pos h, fun h => if_neg h⟩

/-! ### Host events -/

theorem State.Sound.respond {s : State} (hs : s.Sound) (r : Response) : (s.respond r).Sound :=
  ⟨hs.lmem, hs.points, hs.status, hs.resLen⟩

theorem State.Sound.accept {s : State} (hs : s.Sound) (v : Word) (n : Nat) : (s.accept v n).Sound :=
  ⟨hs.lmem, hs.points, statusSound_accept s v n, hs.resLen⟩

theorem State.Sound.writeStatus {s : State} (hs : s.Sound) (v : Word) : (s.writeStatus v).Sound :=
  ⟨hs.lmem, hs.points, statusSound_writeStatus v hs.status, hs.resLen⟩

theorem State.Sound.writeEffect {s : State} (hs : s.Sound) (off : Offset) (d : BusData) :
    (s.writeEffect off d).Sound := by
  rcases writeEffect_cases s off d with h | ⟨_, h⟩ | ⟨_, _, h⟩ | ⟨_, v, h⟩ | ⟨v, h⟩ | h | ⟨_, h⟩ | ⟨_, _, h⟩ |
    ⟨_, _, h⟩ | ⟨_, _, h⟩ <;> rw [h]
  · exact hs
  · exact ⟨hs.lmem, hs.points, hs.status, hs.resLen⟩
  · exact ⟨Memory.wf_writeBytes _ _ _ hs.lmem, hs.points, hs.status, hs.resLen⟩
  · exact hs.accept v _
  · exact hs.writeStatus v
  · exact sound_resetBlock s
  all_goals exact ⟨hs.lmem, hs.points, hs.status, hs.resLen⟩

/-- Every host event keeps the invariant. -/
theorem State.Sound.serve {s : State} (hs : s.Sound) (e : HostEvent) : (s.serve e).Sound := by
  cases e with
  | read off w =>
    obtain ⟨r, n, h⟩ := busRead_cases s off w
    rw [State.serve, h]
    exact ⟨hs.lmem, hs.points, hs.status, hs.resLen⟩
  | write off d =>
    cases hl : legalAccess off d.width
    · rw [serve_write_illegal s hl]
      exact hs.respond _
    · rw [serve_write_legal s hl]
      exact (hs.writeEffect off d).respond _
  | hwReset level =>
    rw [State.serve, State.resetInput]
    split
    · exact sound_resetBlock s
    · exact hs

/-! ### Steps -/

/-- The event taken off the queue, and counted off the progress of the pending command: no part of the invariant. -/
theorem State.Sound.dequeue {s : State} (hs : s.Sound) {v : Word} (hp : s.pending = some v) (n : Nat)
    (es : List HostEvent) : ({ s with remaining := n, inputs := es } : State).Sound := by
  refine ⟨hs.lmem, hs.points, ?_, hs.resLen⟩
  obtain ⟨hpending, _, herr, hok⟩ := (statusSound_iff s).1 hs.status
  refine (statusSound_iff _).2 ⟨hpending, fun hn => ?_, herr, hok⟩
  cases hp.symm.trans hn

/-- Settles O10: a step is a completion, the service of an event off the queue, or idling, and each keeps the
invariant. -/
theorem stepKeepsSound : Obligations.StepKeepsSound := by
  intro s t hs h
  rcases move_cases h with ⟨v, _, _, hc⟩ | ⟨v, n, e, es, hp, _, _, rfl⟩ | ⟨e, es, _, _, rfl⟩ | ⟨_, _, rfl⟩
  · exact hs.complete hc
  · exact (hs.dequeue hp n es).serve e
  · have hq : ({ s with inputs := es } : State).Sound := ⟨hs.lmem, hs.points, hs.status, hs.resLen⟩
    exact hq.serve e
  · exact hs

end Sys2Proof.Machine

/-! PROOFS. Steps: what is pending completes, and what an event leaves unchanged, while a command is pending above all
(10_state R17, R18, R30, R31, R39 to R44, R46; 30_encoding R71). -/

namespace Sys2Proof.Machine

/-! ### A reset -/

theorem resets_write {off : Offset} {d : BusData} : (HostEvent.write off d).resets = true ↔
    legalAccess off d.width = true ∧ inWindow off = false ∧ ctlReg off = .ctrl ∧ d.toNat.testBit 0 = true := by
  simp [HostEvent.resets, and_assoc]

theorem writeEffect_control (s : State) {off : Offset} (d : BusData) (hw : inWindow off = false) :
    s.writeEffect off d = s.writeReg (BitVec.ofNat 32 d.toNat) (ctlReg off) := by
  rw [State.writeEffect, hw, if_neg Bool.false_ne_true]

theorem writeEffect_window_idle {s : State} {off : Offset} (d : BusData) (hb : s.busy = false)
    (hw : inWindow off = true) :
    s.writeEffect off d = { s with lmem := windowWrite s.lmem (windowAddr off) d } := by
  rw [State.writeEffect, hw, if_pos rfl, hb, if_neg Bool.false_ne_true]

theorem getLsbD_zero_ofNat (d : BusData) : (BitVec.ofNat 32 d.toNat).getLsbD 0 = d.toNat.testBit 0 := by
  rw [BitVec.getLsbD_ofNat, decide_eq_true (by decide), Bool.true_and]

/-- An event that resets leaves the reset state of the block, and answers the same whatever the state
(70_reset_and_hazards R157, R158). -/
theorem serve_of_resets {e : HostEvent} (h : e.resets = true) :
    ∃ answer : List Response → List Response,
      ∀ s : State, s.serve e = { s.resetBlock with responses := answer s.responses } := by
  cases e with
  | read off w => cases h
  | write off d =>
    obtain ⟨hl, hw, hr, h0⟩ := resets_write.1 h
    refine ⟨(.ok :: ·), fun s => ?_⟩
    rw [serve_write_legal s hl, writeEffect_control s d hw, hr,
      writeReg_ctrl_set s ((getLsbD_zero_ofNat d).trans h0)]
    rfl
  | hwReset level => exact ⟨id, fun s => serve_hwReset h⟩

/-! ### Every other event -/

/-- What no event but a reset changes: W, P, INF, RES_LEN and the events that wait, and, while a command is pending, its
word, its progress and its operands (10_state R17, R18, R30, R38, R39, R41). -/
structure BusFrame (s t : State) : Prop where
  w : t.w = s.w
  p : t.p = s.p
  inf : t.inf = s.inf
  resLen : t.resLen = s.resLen
  inputs : t.inputs = s.inputs
  whileBusy : s.busy = true → t.pending = s.pending ∧ t.remaining = s.remaining ∧ t.cmd = s.cmd ∧ t.lmem = s.lmem ∧
    t.srcAddr = s.srcAddr ∧ t.srcLen = s.srcLen ∧ t.dstAddr = s.dstAddr

theorem BusFrame.refl (s : State) : BusFrame s s :=
  ⟨rfl, rfl, rfl, rfl, rfl, fun _ => ⟨rfl, rfl, rfl, rfl, rfl, rfl, rfl⟩⟩

theorem BusFrame.respond {s t : State} (h : BusFrame s t) (r : Response) : BusFrame s (t.respond r) :=
  ⟨h.w, h.p, h.inf, h.resLen, h.inputs, h.whileBusy⟩

theorem busFrame_dropWrite (s : State) : BusFrame s s.dropWrite :=
  ⟨rfl, rfl, rfl, rfl, rfl, fun _ => ⟨rfl, rfl, rfl, rfl, rfl, rfl, rfl⟩⟩

theorem busFrame_writeStatus (s : State) (v : Word) : BusFrame s (s.writeStatus v) :=
  ⟨rfl, rfl, rfl, rfl, rfl, fun _ => ⟨rfl, rfl, rfl, rfl, rfl, rfl, rfl⟩⟩

/-- While no command is pending the operands may change. -/
theorem busFrame_of_idle {s t : State} (hb : s.busy = false) (w : t.w = s.w) (p : t.p = s.p) (inf : t.inf = s.inf)
    (resLen : t.resLen = s.resLen) (inputs : t.inputs = s.inputs) : BusFrame s t :=
  ⟨w, p, inf, resLen, inputs, fun h => by cases hb.symm.trans h⟩

/-- A write of any register but a reset by CTRL keeps the frame. -/
theorem busFrame_writeReg (s : State) (v : Word) (r : CtlReg) (h : r = .ctrl → v.getLsbD 0 = false) :
    BusFrame s (s.writeReg v r) := by
  cases r
  case id | resLen | reserved => exact .refl s
  case status => exact busFrame_writeStatus s v
  case ie => exact ⟨rfl, rfl, rfl, rfl, rfl, fun _ => ⟨rfl, rfl, rfl, rfl, rfl, rfl, rfl⟩⟩
  case ctrl =>
    rw [writeReg_ctrl_clear s (h rfl)]
    exact .refl s
  case cmd | srcAddr | srcLen | dstAddr =>
    simp only [State.writeReg]
    split
    · exact busFrame_dropWrite s
    · next hb => exact busFrame_of_idle (Bool.eq_false_iff.2 hb) rfl rfl rfl rfl rfl

/-- A legal write outside the window that does not reset is none of CTRL with bit 0 = 1. -/
theorem ctrl_clear_of_not_resets {off : Offset} {d : BusData} (h : (HostEvent.write off d).resets = false)
    (hl : legalAccess off d.width = true) (hw : inWindow off = false) (hr : ctlReg off = .ctrl) :
    (BitVec.ofNat 32 d.toNat).getLsbD 0 = false := by
  rw [getLsbD_zero_ofNat, Bool.eq_false_iff]
  intro h0
  cases h.symm.trans (resets_write.2 ⟨hl, hw, hr, h0⟩)

/-- Every event but a reset keeps the frame. -/
theorem busFrame_serve (s : State) {e : HostEvent} (h : e.resets = false) : BusFrame s (s.serve e) := by
  cases e with
  | read off w =>
    obtain ⟨r, n, hread⟩ := busRead_cases s off w
    rw [State.serve, hread]
    exact ⟨rfl, rfl, rfl, rfl, rfl, fun _ => ⟨rfl, rfl, rfl, rfl, rfl, rfl, rfl⟩⟩
  | write off d =>
    cases hl : legalAccess off d.width
    · rw [serve_write_illegal s hl]
      exact (BusFrame.refl s).respond _
    · rw [serve_write_legal s hl]
      refine BusFrame.respond ?_ _
      cases hw : inWindow off
      · rw [writeEffect_control s d hw]
        exact busFrame_writeReg s _ _ (ctrl_clear_of_not_resets h hl hw)
      · cases hb : s.busy
        · rw [writeEffect_window_idle d hb hw]
          exact busFrame_of_idle hb rfl rfl rfl rfl rfl
        · rw [writeEffect_window_busy d hb hw]
          exact busFrame_dropWrite s
  | hwReset level =>
    rw [serve_hwReset_inactive h]
    exact .refl s

theorem busy_of_pending {s : State} {v : Word} (h : s.pending = some v) : s.busy = true := by
  rw [State.busy, h, Option.isSome_some]

/-! ### Steps -/

/-- A due completion is the next step. -/
theorem step_due {s : State} {v : Word} (hp : s.pending = some v) (hd : s.due) : step s = s.complete v := move_due hp hd

/-- Where the completion is not due, an event waits and is counted off. -/
theorem not_due {s : State} (h : ¬ s.due) : ∃ n e es, s.remaining = n + 1 ∧ s.inputs = e :: es := by
  obtain ⟨hr, hi⟩ := not_or.1 h
  obtain ⟨n, hn⟩ := Nat.exists_eq_succ_of_ne_zero hr
  obtain ⟨e, es, he⟩ := List.exists_cons_of_ne_nil hi
  exact ⟨n, e, es, hn, he⟩

/-- Settles O6. -/
theorem stepRunsDecodedCommand : Obligations.StepRunsDecodedCommand := by
  intro s v i hp hd hdec _
  rw [step_due hp hd, complete_of_decode_ok s hdec]

/-- Settles O9: a completion has a next state, and so have the service of an event and idling. -/
theorem stepNeverStops : Obligations.StepNeverStops := by
  intro s
  cases hp : s.pending with
  | some v =>
    by_cases hd : s.due
    · obtain ⟨t, ht, _⟩ := complete_next s v
      exact ⟨t, (step_due hp hd).trans ht⟩
    · obtain ⟨n, e, es, hr, hi⟩ := not_due hd
      exact ⟨_, move_serve_busy hp hr hi⟩
  | none =>
    cases hi : s.inputs with
    | nil => exact ⟨s, move_idle hp hi⟩
    | cons e es => exact ⟨_, move_serve_idle hp hi⟩

/-- Settles O14: the service of an event that is no reset keeps the frame. -/
theorem pendingInputsAreFrozen : Obligations.PendingInputsAreFrozen := by
  intro s t v n e es hp hr hi he h
  cases (move_serve_busy hp hr hi).symm.trans h
  obtain ⟨w, p, inf, resLen, inputs, whileBusy⟩ := busFrame_serve { s with remaining := n, inputs := es } he
  obtain ⟨pending, remaining, cmd, lmem, srcAddr, srcLen, dstAddr⟩ := whileBusy (busy_of_pending hp)
  exact ⟨w, p, lmem, srcAddr, srcLen, dstAddr, resLen, inf, cmd, pending.trans hp, remaining, inputs⟩

theorem run_one {s t : State} (h : step s = .next t) : Host.Core.run Sys2Proof.core 1 s = .next t := run_of_next 0 h

/-- After an event the pending command is discarded, by a reset, or still pending with the progress it had. -/
theorem pending_serve {s : State} {v : Word} (hp : s.pending = some v) (e : HostEvent) :
    (s.serve e).pending = none ∨ ((s.serve e).pending = some v ∧ (s.serve e).remaining = s.remaining) := by
  cases he : e.resets
  · obtain ⟨pending, remaining, _⟩ := (busFrame_serve s he).whileBusy (busy_of_pending hp)
    exact .inr ⟨pending.trans hp, remaining⟩
  · obtain ⟨answer, h⟩ := serve_of_resets he
    rw [h]
    exact .inl rfl

/-- Settles O13, by induction on the progress left: each step completes, discards the command, or takes one off. -/
theorem pendingCommandCompletes : Obligations.PendingCommandCompletes := by
  intro s v hp
  induction hn : s.remaining generalizing s with
  | zero =>
    obtain ⟨t, ht, hdone, _⟩ := complete_next s v
    exact ⟨1, t, le_refl 1, run_one ((step_due hp (.inl hn)).trans ht), hdone⟩
  | succ n ih =>
    cases hi : s.inputs with
    | nil =>
      obtain ⟨t, ht, hdone, _⟩ := complete_next s v
      exact ⟨1, t, by omega, run_one ((step_due hp (.inr hi)).trans ht), hdone⟩
    | cons e es =>
      have hstep := move_serve_busy hp hn hi
      rcases pending_serve (s := { s with remaining := n, inputs := es }) hp e with hdone | ⟨hp', hn'⟩
      · exact ⟨1, _, by omega, run_one hstep, hdone⟩
      · obtain ⟨k, t, hk, hrun, hdone⟩ := ih _ hp' hn'
        exact ⟨k + 1, t, by omega, (run_of_next k hstep).trans hrun, hdone⟩

/-! ### The W and P registers and the bus -/

/-- `s` with other register files. -/
def State.withFiles (s : State) (w : Vector Wide 16) (p : Vector Point 4) : State := { s with w := w, p := p }

section WithFiles
variable (s : State) (w : Vector Wide 16) (p : Vector Point 4)

/-- A read answers the same whatever the register files hold (10_state R43). -/
theorem busRead_withFiles (off : Offset) (wd : Width) :
    (s.withFiles w p).busRead off wd = (s.busRead off wd).withFiles w p := by
  simp only [State.busRead, apply_ite (fun t : State => t.withFiles w p)]
  rfl

/-- A register write does the same whatever the register files hold, but for how long an accepted command will take. -/
theorem writeReg_withFiles (v : Word) (r : CtlReg) (h : r = .ctrl → v.getLsbD 0 = false) :
    ∃ n : Nat, (s.withFiles w p).writeReg v r = { (s.writeReg v r).withFiles w p with remaining := n } := by
  have hbusy : (s.withFiles w p).busy = s.busy := rfl
  cases r
  case id | resLen | reserved | status | ie => exact ⟨s.remaining, rfl⟩
  case ctrl =>
    rw [writeReg_ctrl_clear _ (h rfl), writeReg_ctrl_clear _ (h rfl)]
    exact ⟨s.remaining, rfl⟩
  case cmd =>
    cases hb : s.busy
    · rw [writeReg_cmd_idle v (hbusy.trans hb), writeReg_cmd_idle v hb]
      exact ⟨(s.withFiles w p).latencyOf v, rfl⟩
    · rw [writeReg_cmd_busy v (hbusy.trans hb), writeReg_cmd_busy v hb]
      exact ⟨s.remaining, rfl⟩
  case srcAddr | srcLen | dstAddr =>
    refine ⟨s.remaining, ?_⟩
    simp only [State.writeReg, hbusy]
    cases s.busy
    · rfl
    · rfl

end WithFiles

/-- Settles O58: a reset leaves the same state from both, and any other event acts on neither file nor through one. -/
theorem registersAreNotOnTheBus : Obligations.RegistersAreNotOnTheBus := by
  intro s w p e
  refine ⟨fun he => ?_, fun he => ⟨(busFrame_serve s he).w, (busFrame_serve s he).p, ?_⟩⟩
  · obtain ⟨answer, h⟩ := serve_of_resets he
    rw [h, h]
    rfl
  · show ∃ n : Nat, (s.withFiles w p).serve e = { (s.serve e).withFiles w p with remaining := n }
    cases e with
    | read off wd => exact ⟨_, busRead_withFiles s w p off wd⟩
    | write off d =>
      cases hl : legalAccess off d.width
      · rw [serve_write_illegal _ hl, serve_write_illegal _ hl]
        exact ⟨s.remaining, rfl⟩
      · rw [serve_write_legal _ hl, serve_write_legal _ hl]
        cases hw : inWindow off
        · rw [writeEffect_control _ d hw, writeEffect_control _ d hw]
          obtain ⟨n, hn⟩ := writeReg_withFiles s w p _ (ctlReg off) (ctrl_clear_of_not_resets he hl hw)
          exact ⟨n, congrArg (State.respond · .ok) hn⟩
        · refine ⟨s.remaining, ?_⟩
          cases hb : s.busy
          · rw [writeEffect_window_idle d hb hw, writeEffect_window_idle (s := s.withFiles w p) d hb hw]
            rfl
          · rw [writeEffect_window_busy d hb hw, writeEffect_window_busy (s := s.withFiles w p) d hb hw]
            rfl
    | hwReset level =>
      rw [serve_hwReset_inactive he, serve_hwReset_inactive he]
      exact ⟨s.remaining, rfl⟩

end Sys2Proof.Machine

/-! PROOFS. OVR and the interrupt line (10_state R31, R41, R44; 60_exceptions R146). -/

namespace Sys2Proof.Machine

/-! ### OVR -/

/-- OVR after a write of a control register: a dropped write sets it, a W1C of bit 4 and a soft reset clear it
(10_state R31, R32, R41; 70_reset_and_hazards R158). -/
theorem writeReg_ovr (s : State) (v : Word) (r : CtlReg) : (s.writeReg v r).ovr =
    match r with
    | .cmd | .srcAddr | .srcLen | .dstAddr => s.busy || s.ovr
    | .status => s.ovr && !v.getLsbD 4
    | .ctrl => s.ovr && !v.getLsbD 0
    | .id | .ie | .resLen | .reserved => s.ovr := by
  cases r
  case id | ie | resLen | reserved | status => rfl
  case cmd | srcAddr | srcLen | dstAddr => cases hb : s.busy <;> simp [State.writeReg, hb]
  case ctrl =>
    cases h0 : v.getLsbD 0
    · rw [writeReg_ctrl_clear s h0, Bool.not_false, Bool.and_true]
    · rw [writeReg_ctrl_set s h0, Bool.not_true, Bool.and_false]
      rfl

theorem writeEffect_window_ovr (s : State) {off : Offset} (d : BusData) (hw : inWindow off = true) :
    (s.writeEffect off d).ovr = (s.busy || s.ovr) := by
  cases hb : s.busy
  · rw [writeEffect_window_idle d hb hw, Bool.false_or]
  · rw [writeEffect_window_busy d hb hw, Bool.true_or, State.dropWrite_ovr]

/-- The writes that R41 names are a legal one of the window, and a legal one of CMD, SRC_ADDR, SRC_LEN or DST_ADDR. -/
theorem operandWrite_iff {off : Offset} {d : BusData} : (HostEvent.write off d).operandWrite = true ↔
    legalAccess off d.width = true ∧ (inWindow off = true ∨ ctlReg off = .cmd ∨ ctlReg off = .srcAddr ∨
      ctlReg off = .srcLen ∨ ctlReg off = .dstAddr) := by
  simp [HostEvent.operandWrite, or_assoc]

/-- A write that R41 names sets OVR while BUSY = 1, and leaves it else. -/
theorem operandWrite_ovr (s : State) {e : HostEvent} (h : e.operandWrite = true) :
    (s.serve e).ovr = (s.busy || s.ovr) := by
  cases e with
  | read off w => cases h
  | hwReset level => cases h
  | write off d =>
    obtain ⟨hl, hoff⟩ := operandWrite_iff.1 h
    rw [serve_write_legal s hl, State.respond_ovr]
    cases hw : inWindow off
    · rw [writeEffect_control s d hw, writeReg_ovr]
      rcases hoff with hoff | hr | hr | hr | hr
      · cases hw.symm.trans hoff
      all_goals rw [hr]
    · exact writeEffect_window_ovr s d hw

theorem resets_ovr (s : State) {e : HostEvent} (h : e.resets = true) : (s.serve e).ovr = false := by
  obtain ⟨answer, hs⟩ := serve_of_resets h
  rw [hs]
  rfl

/-- STATUS stands at offset 0x008 alone (10_state R22). -/
theorem ctlReg_eq_status {off : Offset} (h : ctlReg off = .status) : off = 0x008 := by
  unfold ctlReg at h
  split_ifs at h
  assumption

/-- An event that is no write of R41's and no reset leaves OVR, but for a write of STATUS with bit 4 = 1. -/
theorem serve_ovr_of_neither (s : State) {e : HostEvent} (ho : e.operandWrite = false) (hr : e.resets = false) :
    (s.serve e).ovr = s.ovr ∨
      ((s.serve e).ovr = false ∧ ∃ v : Word, e = .write 0x008 (.b32 v) ∧ v.getLsbD 4 = true) := by
  cases e with
  | read off w =>
    obtain ⟨r, n, h⟩ := busRead_cases s off w
    rw [State.serve, h]
    exact .inl rfl
  | hwReset level =>
    rw [serve_hwReset_inactive hr]
    exact .inl rfl
  | write off d =>
    cases hl : legalAccess off d.width
    · rw [serve_write_illegal s hl]
      exact .inl rfl
    have hoff := not_and.1 (mt operandWrite_iff.2 (Bool.eq_false_iff.1 ho)) hl
    cases hw : inWindow off
    · obtain ⟨v, rfl⟩ := legalAccess_control hl hw
      rw [serve_write_control s v hl hw, State.respond_ovr, writeReg_ovr]
      cases hreg : ctlReg off
      case id | ie | resLen | reserved => exact .inl rfl
      case cmd | srcAddr | srcLen | dstAddr => exact absurd (by simp [hreg]) hoff
      case ctrl =>
        have h0 := ctrl_clear_of_not_resets hr hl hw hreg
        rw [ofNat_b32] at h0
        exact .inl (by rw [h0, Bool.not_false, Bool.and_true])
      case status =>
        cases h4 : v.getLsbD 4
        · exact .inl (by rw [Bool.not_false, Bool.and_true])
        · refine .inr ⟨by rw [Bool.not_true, Bool.and_false], v, ?_, h4⟩
          rw [ctlReg_eq_status hreg]
    · exact absurd (.inl hw) hoff

/-- The service of an event sets OVR only where it drops a write. -/
theorem serve_sets_ovr {s : State} {e : HostEvent} (h0 : s.ovr = false) (h1 : (s.serve e).ovr = true) :
    s.busy = true ∧ e.operandWrite = true := by
  cases ho : e.operandWrite
  · cases hr : e.resets
    · rcases serve_ovr_of_neither s ho hr with h | ⟨h, _⟩
      · cases h0.symm.trans (h.symm.trans h1)
      · cases h.symm.trans h1
    · cases (resets_ovr s hr).symm.trans h1
  · rw [operandWrite_ovr s ho, h0, Bool.or_false] at h1
    exact ⟨h1, rfl⟩

/-- The service of an event clears OVR only where it resets or acknowledges OVR. -/
theorem serve_clears_ovr {s : State} {e : HostEvent} (h0 : s.ovr = true) (h1 : (s.serve e).ovr = false) :
    e.resets = true ∨ ∃ v : Word, e = .write 0x008 (.b32 v) ∧ v.getLsbD 4 = true := by
  cases ho : e.operandWrite
  · cases hr : e.resets
    · rcases serve_ovr_of_neither s ho hr with h | ⟨_, h⟩
      · cases h0.symm.trans (h.symm.trans h1)
      · exact .inr h
    · exact .inl rfl
  · rw [operandWrite_ovr s ho, h0, Bool.or_true] at h1
    cases h1

/-- A step changes OVR only by the event it serves: completions and idling leave it. -/
theorem step_ovr {s t : State} (h : step s = .next t) : t.ovr = s.ovr ∨
    ∃ (e : HostEvent) (es : List HostEvent) (u : State),
      s.inputs = e :: es ∧ u.busy = s.busy ∧ u.ovr = s.ovr ∧ t = u.serve e := by
  rcases move_cases h with ⟨v, _, _, hc⟩ | ⟨v, n, e, es, _, _, hi, ht⟩ | ⟨e, es, _, hi, ht⟩ | ⟨_, _, rfl⟩
  · obtain ⟨t', ht', _, hovr⟩ := complete_next s v
    cases ht'.symm.trans hc
    exact .inl hovr
  · exact .inr ⟨e, es, { s with remaining := n, inputs := es }, hi, rfl, rfl, ht⟩
  · exact .inr ⟨e, es, { s with inputs := es }, hi, rfl, rfl, ht⟩
  · exact .inl rfl

/-- Settles O56. -/
theorem ovrChangesAsR31Says : Obligations.OvrChangesAsR31Says := by
  refine ⟨fun s e => ⟨fun hb ho => ?_, resets_ovr s⟩, fun s v h4 => ?_, fun s t h => ⟨fun h0 h1 => ?_, fun h0 h1 => ?_⟩⟩
  · rw [operandWrite_ovr s ho, hb, Bool.true_or]
  · rw [serve_write_status, State.respond_ovr, State.writeStatus_ovr, h4, Bool.not_true, Bool.and_false]
  · rcases step_ovr h with hsame | ⟨e, es, u, hi, hbusy, hovr, rfl⟩
    · cases h0.symm.trans (hsame.symm.trans h1)
    · obtain ⟨hb, ho⟩ := serve_sets_ovr (hovr.trans h0) h1
      exact ⟨hbusy.symm.trans hb, e, es, hi, ho⟩
  · rcases step_ovr h with hsame | ⟨e, es, u, hi, _, hovr, rfl⟩
    · cases h0.symm.trans (hsame.symm.trans h1)
    · exact ⟨e, es, hi, serve_clears_ovr (hovr.trans h0) h1⟩

/-! ### The interrupt line -/

theorem irq_of_not_done {s : State} (h : s.done = false) : s.irq = false := by
  rw [State.irq, h, Bool.false_and]

/-- Every completion leaves the interrupt line at DONE_IE (10_state R40, R44). -/
theorem exec_irq {i : Instr} {s t : State} (h : exec i s = .next t) : t.irq = s.doneIe := by
  rcases exec_next_cases h with ⟨e, _, rfl⟩ | ⟨st, _, rfl⟩
  · rfl
  · rfl

/-- Settles O55. -/
theorem interruptLine : Obligations.InterruptLine := by
  intro s t i v
  refine ⟨rfl, exec_irq, fun hb => ?accept, fun h1 => ?ack, fun h0 => ?softReset, ?hwReset, fun h0 => ?ie⟩
  case accept =>
    rw [serve_write_cmd, writeReg_cmd_idle v hb]
    exact irq_of_not_done rfl
  case ack =>
    rw [serve_write_status]
    exact irq_of_not_done (by simp [State.respond_done, State.writeStatus_done, h1])
  case softReset =>
    rw [serve_write_ctrl, writeReg_ctrl_set s h0]
    exact irq_of_not_done rfl
  case hwReset =>
    rw [serve_hwReset (by simp [HostEvent.resets])]
    exact irq_of_not_done rfl
  case ie =>
    rw [serve_write_ie, h0]
    exact Bool.and_false _

end Sys2Proof.Machine

/-! PROOFS. G has order n, so that SMUL's result is never O, and INF follows the point commands' destination
(10_state R30; 41_point R84, R92, R93; log 13). -/

namespace Sys2Proof.Machine

/-! ### The order of G -/

/-- n·G = O, by double-and-add evaluated in the kernel (41_point R84). -/
theorem scalarMul_orderN : scalarMul orderN = Point.infinity := by decide +kernel

/-- A multiple of G is the neutral element exactly where double-and-add gives O (41_point R92). -/
theorem nsmul_generator_eq_zero_iff [Fact primeP.Prime] {G : secp.Point} (hG : Represents generator G) {k : Nat}
    (hk : k < 2 ^ 256) : k • G = 0 ↔ scalarMul k = Point.infinity := by
  have h := represents_scalarMul hG hk
  refine ⟨fun h0 => ?_, fun hinf => ?_⟩
  · rw [h0] at h
    exact h
  · rw [hinf] at h
    exact h.right_unique represents_infinity

/-- The point of the group that G stands for has order n (41_point R84). -/
theorem addOrderOf_generator [Fact primeP.Prime] {G : secp.Point} (hG : Represents generator G) :
    addOrderOf G = orderN := by
  have : Fact orderN.Prime := ⟨orderN_prime⟩
  refine addOrderOf_eq_prime ((nsmul_generator_eq_zero_iff hG orderN_lt).2 scalarMul_orderN) fun h0 => ?_
  rw [h0] at hG
  cases congrArg Point.inf (show generator = Point.infinity from hG)

/-- k·G is not O for a valid scalar k (41_point R92). -/
theorem scalarMul_inf {k : Nat} (h0 : 1 ≤ k) (h1 : k < orderN) : (scalarMul k).inf = false := by
  have : Fact primeP.Prime := ⟨primeP_prime⟩
  obtain ⟨G, hG⟩ := exists_represents generator_onCurve
  by_contra hinf
  have hO := canonical_inf (canonical_scalarMul k) (Bool.eq_true_of_not_eq_false hinf)
  have hdvd := addOrderOf_dvd_of_nsmul_eq_zero ((nsmul_generator_eq_zero_iff hG (h1.trans orderN_lt)).2 hO)
  rw [addOrderOf_generator hG] at hdvd
  exact absurd (Nat.le_of_dvd h0 hdvd) (Nat.not_le.2 h1)

/-! ### INF -/

/-- A successful SMUL had a valid scalar. -/
theorem smul_scalar_valid {d a : Field4} {s : State} {st : Staged} (h : resultOf (.smul d a) s = .ok st) :
    1 ≤ (s.readW a).toNat ∧ (s.readW a).toNat < orderN := by
  obtain ⟨_, _, h⟩ := bind_eq_ok.1 (show smulResult d a s = .ok st from h)
  obtain ⟨k, hk, _⟩ := bind_eq_ok.1 h
  rcases scalarOperand_cases s a with ⟨_, he⟩ | ⟨h0, h1, _⟩
  · cases he.symm.trans hk
  · exact ⟨h0, h1⟩

/-- What a command stages for INF: the inf bit of the point it stages, and nothing where it stages none
(10_state R30). -/
theorem staged_inf {i : Instr} {s : State} {st : Staged} (h : resultOf i s = .ok st) :
    st.inf = st.p.map (fun dq => dq.2.inf) := by
  have shape := (resultOf_eq_ok i s st h).2
  cases i
  case smul d a =>
    obtain ⟨h0, h1⟩ := smul_scalar_valid h
    simp only at shape
    rw [shape]
    exact congrArg some (scalarMul_inf h0 h1).symm
  case padd | pdbl | pgen | pinf | pset | sval =>
    simp only at shape
    rw [shape]
    rfl
  case fadd | fsub | fmul | finv | pgetx | pgety | ldw =>
    obtain ⟨_, rfl⟩ := shape
    rfl
  case pcomp | sha256 | rmd160 | hash160 | sha256d | cksum | b58enc | b58chk | wif | addr | stw =>
    obtain ⟨_, ho⟩ := shape
    obtain ⟨_, rfl⟩ := output_eq_ok ho
    rfl

/-- Where a command stages a point, INF is the inf bit its destination has after the commit. -/
theorem commit_inf_of_point {i : Instr} {s : State} {st : Staged} (h : resultOf i s = .ok st) {d : Field4} {q : Point}
    (hd : pointFieldOk d = true) (hp : st.p = some (d, q)) :
    (s.commit st).inf = ((s.commit st).readP d).inf := by
  rw [commit_readP_same hd hp, State.commit_inf, staged_inf h, hp]
  rfl

/-- Where a command stages no point, INF is as it was. -/
theorem commit_inf_of_no_point {i : Instr} {s : State} {st : Staged} (h : resultOf i s = .ok st) (hp : st.p = none) :
    (s.commit st).inf = s.inf := by
  rw [State.commit_inf, staged_inf h, hp]
  rfl

/-- Settles O57: a failed command leaves INF, a commit gives it the staged point's inf bit, and of the events only a
reset changes it. -/
theorem infChangesAsR30Says : Obligations.InfChangesAsR30Says := by
  refine ⟨fun i s t h => ?_, fun s e => ?_⟩
  · rcases exec_next_cases h with ⟨e, _, rfl⟩ | ⟨st, hr, rfl⟩
    · rw [if_pos (State.raiseError_err s e)]
      rfl
    · rw [if_neg (by rw [State.commit_err]; exact Bool.false_ne_true)]
      obtain ⟨wf, shape⟩ := resultOf_eq_ok i s st hr
      cases i <;> simp only [Instr.wellFormed, Bool.and_eq_true] at wf
      case padd => exact commit_inf_of_point hr wf.1.1 (congrArg Staged.p shape)
      case pdbl => exact commit_inf_of_point hr wf.1 (congrArg Staged.p shape)
      case smul | pgen | pinf | pset => exact commit_inf_of_point hr wf (congrArg Staged.p shape)
      case sval => exact commit_inf_of_no_point hr (congrArg Staged.p shape)
      case fadd | fsub | fmul | finv | pgetx | pgety | ldw =>
        obtain ⟨_, rfl⟩ := shape
        exact commit_inf_of_no_point hr rfl
      case pcomp | sha256 | rmd160 | hash160 | sha256d | cksum | b58enc | b58chk | wif | addr | stw =>
        obtain ⟨_, ho⟩ := shape
        obtain ⟨_, rfl⟩ := output_eq_ok ho
        exact commit_inf_of_no_point hr rfl
  · cases he : e.resets
    · exact (busFrame_serve s he).inf
    · obtain ⟨answer, hs⟩ := serve_of_resets he
      rw [hs]
      rfl

end Sys2Proof.Machine

/-! PROOFS. The memory map: the order of service, illegal accesses, the lanes of the LMEM window and the aperture
(20_memory R49 to R61). -/

namespace Sys2Proof.Machine

/-- Settles O8. -/
theorem stepServesEventsInOrder : Obligations.StepServesEventsInOrder :=
  fun _ _ _ hi => ⟨fun hp => move_serve_idle hp hi, fun _ _ hp hr => move_serve_busy hp hr hi⟩

/-! ### Which accesses are legal -/

/-- In the LMEM window the naturally aligned accesses are legal (20_memory R51). -/
theorem legalAccess_window {off : Offset} {w : Width} (hw : inWindow off = true) :
    legalAccess off w = true ↔ off.toNat % w.bytes = 0 := by
  rw [legalAccess, hw, if_pos rfl, beq_iff_eq]

/-- In the control region the aligned 32-bit accesses are legal (20_memory R50). -/
theorem legalAccess_outside {off : Offset} {w : Width} (hw : inWindow off = false) :
    legalAccess off w = true ↔ w = .w32 ∧ off.toNat % 4 = 0 := by
  rw [legalAccess, hw, if_neg Bool.false_ne_true, Bool.and_eq_true, beq_iff_eq, beq_iff_eq]

theorem serve_read_illegal (s : State) {off : Offset} {w : Width} (h : legalAccess off w = false) :
    s.serve (.read off w) = s.respond .busErr := busRead_illegal h

/-- Settles O49: the accesses named are illegal, and an illegal access only answers. -/
theorem busErrorChangesNothing : Obligations.BusErrorChangesNothing := by
  rintro s off _ d rfl h
  have illegal : legalAccess off d.width = false := by
    rw [Bool.eq_false_iff]
    intro hl
    rcases h with ⟨hoff, hbad⟩ | ⟨h1, h2, hbad⟩
    · obtain ⟨hwidth, halign⟩ := (legalAccess_outside (inWindow_eq_false.2 hoff)).1 hl
      exact hbad.elim (· hwidth) (· halign)
    · have halign := (legalAccess_window (inWindow_eq_true.2 ⟨h1, h2⟩)).1 hl
      rcases hbad with ⟨hwidth, hodd⟩ | ⟨hwidth, hodd⟩
      · rw [hwidth] at halign
        exact hodd halign
      · rw [hwidth] at halign
        exact hodd halign
  exact ⟨serve_read_illegal s illegal, serve_write_illegal s illegal⟩

/-! ### The LMEM window -/

section Window
variable {s : State} {off : Offset} {a : Nat} {w : Width}

/-- Offset 0x400 + a is in the window and stands for LMEM address a (20_memory R51). -/
theorem inWindow_of_offset (hoff : off.toNat = 0x400 + a) (ha : a < 1024) : inWindow off = true :=
  inWindow_eq_true.2 (by omega)

theorem windowAddr_of_offset (hoff : off.toNat = 0x400 + a) : windowAddr off = a := by
  unfold windowAddr
  omega

/-- The window begins at a multiple of every width, so alignment of the offset is alignment of the address. -/
theorem legalAccess_of_offset (hoff : off.toNat = 0x400 + a) (ha : a < 1024) (halign : a % w.bytes = 0) :
    legalAccess off w = true := by
  have hbase : w.bytes ∣ 0x400 := by
    cases w with
    | w8 => exact ⟨1024, rfl⟩
    | w16 => exact ⟨512, rfl⟩
    | w32 => exact ⟨256, rfl⟩
  rw [legalAccess_window (inWindow_of_offset hoff ha), hoff]
  exact Nat.mod_eq_zero_of_dvd (hbase.add (Nat.dvd_of_mod_eq_zero halign))

/-- An aligned access that begins in LMEM ends in LMEM. -/
theorem aligned_access_fits (ha : a < 1024) (halign : a % w.bytes = 0) : a + w.bytes ≤ 1024 := by
  cases w with
  | w8 => exact ha
  | w16 =>
    have : a % 2 = 0 := halign
    exact (by omega : a + 2 ≤ 1024)
  | w32 =>
    have : a % 4 = 0 := halign
    exact (by omega : a + 4 ≤ 1024)

/-- A legal window read while BUSY = 0 answers with the bytes of LMEM (20_memory R51, R53). -/
theorem serve_read_window (hb : s.busy = false) (hoff : off.toNat = 0x400 + a) (ha : a < 1024)
    (halign : a % w.bytes = 0) : s.serve (.read off w) = s.respond (.data (windowRead s.lmem a w)) := by
  have hspec : (s.busy && unspecifiedWhenBusy off) = false := by rw [hb, Bool.false_and]
  rw [State.serve, busRead_specified (legalAccess_of_offset hoff ha halign) hspec, State.readValue,
    inWindow_of_offset hoff ha, if_pos rfl, windowAddr_of_offset hoff]

/-- A legal window write while BUSY = 0 stores its data in LMEM (20_memory R51, R53). -/
theorem serve_write_window {d : BusData} (hb : s.busy = false) (hoff : off.toNat = 0x400 + a) (ha : a < 1024)
    (halign : a % d.width.bytes = 0) :
    s.serve (.write off d) = { s with lmem := windowWrite s.lmem a d, responses := .ok :: s.responses } := by
  rw [serve_write_legal s (legalAccess_of_offset hoff ha halign),
    writeEffect_window_idle d hb (inWindow_of_offset hoff ha), windowAddr_of_offset hoff]
  rfl

end Window

/-- A window read loses no bit: the bytes read fit the width of the access. -/
theorem toNat_windowRead (m : Memory) (a : Nat) (w : Width) :
    (windowRead m a w).toNat = leInt (m.readBytes a w.bytes) := by
  have hlt : leInt (m.readBytes a w.bytes) < 2 ^ (8 * w.bytes) := by
    have h := leInt_lt (m.readBytes a w.bytes)
    rwa [Memory.length_readBytes, ← (by decide : 2 ^ 8 = 256), ← Nat.pow_mul] at h
  rw [windowRead, BusData.toNat_ofNat, Nat.mod_eq_of_lt hlt]

theorem leInt_readBytes_succ (m : Memory) (a n : Nat) :
    leInt (m.readBytes a (n + 1)) = (m.read a).toNat + 256 * leInt (m.readBytes (a + 1) n) := rfl

theorem leInt_readBytes_zero (m : Memory) (a : Nat) : leInt (m.readBytes a 0) = 0 := rfl

/-- Settles O52: the answer is the little-endian integer of the bytes read, lane after lane. -/
theorem windowReadLanes : Obligations.WindowReadLanes := by
  intro s off a hb hoff ha
  refine ⟨?byte, fun halign => ⟨_, serve_read_window hb hoff ha halign, ?half⟩,
    fun halign => ⟨_, serve_read_window hb hoff ha halign, ?word⟩⟩
  case byte =>
    have hbyte : windowRead s.lmem a .w8 = .b8 (s.lmem.read a) :=
      congrArg BusData.b8 (BitVec.eq_of_toNat_eq (toNat_windowRead s.lmem a .w8))
    rw [serve_read_window (w := .w8) hb hoff ha (Nat.mod_one a), hbyte]
    rfl
  case half =>
    refine (toNat_windowRead s.lmem a .w16).trans ?_
    simp only [Width.bytes, leInt_readBytes_succ, leInt_readBytes_zero, Nat.add_assoc, Nat.reduceAdd]
    omega
  case word =>
    refine (toNat_windowRead s.lmem a .w32).trans ?_
    simp only [Width.bytes, leInt_readBytes_succ, leInt_readBytes_zero, Nat.add_assoc, Nat.reduceAdd]
    omega

/-- Byte i of a little-endian encoding is bits [8i+7:8i] of the integer (00_scope R10). -/
theorem toNat_getElem_leBytes : ∀ (k v i : Nat) (h : i < (leBytes k v).length),
    (leBytes k v)[i].toNat = v / 2 ^ (8 * i) % 256
  | k + 1, v, 0, _ => by simp [leBytes]
  | k + 1, v, i + 1, h => by
    have h' : i < (leBytes k (v / 256)).length := by simpa [leBytes] using h
    have hpow : 2 ^ (8 * (i + 1)) = 256 * 2 ^ (8 * i) := by rw [Nat.mul_succ, Nat.pow_add, Nat.mul_comm]
    simp only [leBytes, List.getElem_cons_succ]
    rw [toNat_getElem_leBytes k (v / 256) i h', Nat.div_div_eq_div_mul, hpow]

/-- Settles O53: the bytes stored are the little-endian encoding of the data, and they fit LMEM. -/
theorem windowWriteLanes : Obligations.WindowWriteLanes := by
  intro s off a d hwf hb hoff ha halign
  have hlen : (leBytes d.width.bytes d.toNat).length = d.width.bytes := length_leBytes _ _
  refine ⟨windowWrite s.lmem a d, serve_write_window hb hoff ha halign, fun i hi => ?_, fun x hx => ?_⟩
  · have hfits : a + (leBytes d.width.bytes d.toNat).length ≤ 1024 := by
      rw [hlen]
      exact aligned_access_fits ha halign
    rw [windowWrite, Memory.read_writeBytes_inside _ _ _ _ (hlen.symm ▸ hi) hwf hfits, toNat_getElem_leBytes]
  · exact Memory.read_writeBytes_outside _ _ _ _ (hlen.symm ▸ hx)

/-! ### The aperture -/

/-- Settles O60: an address in the aperture is the base plus its offset, and the offsets are those below 4096. -/
theorem apertureAtKdbBase : Obligations.ApertureAtKdbBase := by
  refine ⟨Nat.mul_mod_right 4096 Config.kdbPage, fun addr off => ?_⟩
  have hlt : off.toNat < 4096 := off.isLt
  rw [apertureOffset, Option.ite_none_right_eq_some, Option.some.injEq]
  constructor
  · rintro ⟨⟨hge, hend⟩, rfl⟩
    have hsub : addr - kdbBase < 2 ^ 12 := Nat.sub_lt_left_of_lt_add hge hend
    rw [BitVec.toNat_ofNat, Nat.mod_eq_of_lt hsub]
    omega
  · rintro rfl
    refine ⟨⟨Nat.le_add_right _ _, Nat.add_lt_add_left hlt _⟩, ?_⟩
    rw [Nat.add_sub_cancel_left, BitVec.ofNat_toNat, BitVec.setWidth_eq]

end Sys2Proof.Machine

/-! PROOFS. The opcode map row by row: which words a row fits, and that it builds from their fields exactly the command
whose word each is (30_encoding R67 to R72). -/

namespace Sys2Proof

/-! ### The operand fields a row admits -/

/-- The operand fields have no bit under the row's mask: an unused field (mask 0xF) is 0, a P-kind field (mask 0xC) is
below 4, and a W-kind field (mask 0x0) is any (30_encoding R68, R70). -/
def Row.admits (r : Row) (d a b : Field4) : Prop :=
  d &&& rdField r.mask = 0 ∧ a &&& raField r.mask = 0 ∧ b &&& rbField r.mask = 0

/-- Every row's `match` has 0 in RD, RA and RB. -/
theorem row_pat_operands : ∀ r ∈ opcodeMap, rdField r.pat = 0 ∧ raField r.pat = 0 ∧ rbField r.pat = 0 := by decide

/-- A row of the map fits a word with its opcode, RSV = 0, and operand fields it admits. -/
theorem row_fits_iff_admits {r : Row} (hr : r ∈ opcodeMap) (v : Word) : r.fits v = true ↔
    opcField v = opcField r.pat ∧ rsvField v = 0 ∧ r.admits (rdField v) (raField v) (rbField v) := by
  obtain ⟨hd, ha, hb⟩ := row_pat_operands r hr
  rw [row_fits_iff hr, hd, ha, hb, Row.admits]
  tauto

/-- Only 0 has no bit under the mask of an unused field. -/
@[simp] theorem and_unusedMask_eq_zero (x : Field4) : x &&& 15#4 = 0#4 ↔ x = 0#4 := by decide +revert

/-- The fields with no bit under the mask of a P-kind field name P0 to P3 (30_encoding R68). -/
@[simp] theorem and_pointMask_eq_zero (x : Field4) : x &&& 12#4 = 0#4 ↔ pointFieldOk x = true := by decide +revert

/-- A W-kind field has no bit under its mask to clear. -/
@[simp] theorem and_clearWordMask (x : Field4) : x &&& 15#4 = x := BitVec.and_allOnes

/-- A field that names P0 to P3 has no bit under the mask of a P-kind field to clear. -/
theorem and_clearPointMask {x : Field4} (h : pointFieldOk x = true) : x &&& 3#4 = x := by decide +revert

/-! ### The fields of a numeral -/

@[simp] theorem opcField_ofNat (n : Nat) : opcField (BitVec.ofNat 32 n) = BitVec.ofNat 8 (n % 2 ^ 32) := rfl
@[simp] theorem rdField_ofNat (n : Nat) : rdField (BitVec.ofNat 32 n) = BitVec.ofNat 4 ((n % 2 ^ 32) >>> 8) := rfl
@[simp] theorem raField_ofNat (n : Nat) : raField (BitVec.ofNat 32 n) = BitVec.ofNat 4 ((n % 2 ^ 32) >>> 12) := rfl
@[simp] theorem rbField_ofNat (n : Nat) : rbField (BitVec.ofNat 32 n) = BitVec.ofNat 4 ((n % 2 ^ 32) >>> 16) := rfl

/-! ### What a row builds -/

/-- From operand fields it admits, the row builds a well-formed command whose word holds its opcode and these fields. -/
def Row.EncodesFields (r : Row) : Prop := ∀ d a b : Field4, r.admits d a b →
  (r.build d a b).wellFormed = true ∧ encode (r.build d a b) = assemble (opcField r.pat) d a b

/-- A well-formed command that the row builds does not change where the bits under the row's mask are cleared. -/
def Row.IgnoresMasked (r : Row) : Prop := ∀ d a b : Field4, (r.build d a b).wellFormed = true →
  r.build (d &&& ~~~rdField r.mask) (a &&& ~~~raField r.mask) (b &&& ~~~rbField r.mask) = r.build d a b

/-- Row by row: the fields that the row's mask makes 0 are those its command has no operand for. -/
theorem opcodeMap_encodesFields : ∀ r ∈ opcodeMap, r.EncodesFields := by
  simp +contextual [opcodeMap, fieldRows, pointRows, hashRows, base58Rows, transferRows, Row.EncodesFields, Row.admits,
    Instr.wellFormed, encode]

/-- Row by row: a masked bit is in a field that the row does not read, or is 0 because the command is well-formed. -/
theorem opcodeMap_ignoresMasked : ∀ r ∈ opcodeMap, r.IgnoresMasked := by
  simp +contextual [opcodeMap, fieldRows, pointRows, hashRows, base58Rows, transferRows, Row.IgnoresMasked,
    Instr.wellFormed, and_clearPointMask]

/-- Fields with the bits under the row's mask cleared are admitted. -/
theorem Row.admits_cleared (r : Row) (d a b : Field4) :
    r.admits (d &&& ~~~rdField r.mask) (a &&& ~~~raField r.mask) (b &&& ~~~rbField r.mask) := by
  simp [Row.admits, BitVec.and_assoc]

/-- What row number `n` of the map builds is built by a row of the map. -/
theorem exists_row_of_getElem (n : Nat) (d a b : Field4) (hn : n < opcodeMap.length := by decide) :
    ∃ r ∈ opcodeMap, ∃ d' a' b', r.build d' a' b' = opcodeMap[n].build d a b :=
  ⟨_, List.getElem_mem hn, d, a, b, rfl⟩

/-- Every command is built by a row of the map: one row for each constructor, in the map's order (30_encoding R70). -/
theorem exists_row_build : ∀ i : Instr, ∃ r ∈ opcodeMap, ∃ d a b, r.build d a b = i
  | .fadd d a b => exists_row_of_getElem 0 d a b
  | .fsub d a b => exists_row_of_getElem 1 d a b
  | .fmul d a b => exists_row_of_getElem 2 d a b
  | .finv d a => exists_row_of_getElem 3 d a 0
  | .sval a => exists_row_of_getElem 4 0 a 0
  | .padd d a b => exists_row_of_getElem 5 d a b
  | .pdbl d a => exists_row_of_getElem 6 d a 0
  | .smul d a => exists_row_of_getElem 7 d a 0
  | .pcomp a => exists_row_of_getElem 8 0 a 0
  | .pgen d => exists_row_of_getElem 9 d 0 0
  | .pinf d => exists_row_of_getElem 10 d 0 0
  | .pset d a b => exists_row_of_getElem 11 d a b
  | .pgetx d a => exists_row_of_getElem 12 d a 0
  | .pgety d a => exists_row_of_getElem 13 d a 0
  | .sha256 => exists_row_of_getElem 14 0 0 0
  | .rmd160 => exists_row_of_getElem 15 0 0 0
  | .hash160 => exists_row_of_getElem 16 0 0 0
  | .sha256d => exists_row_of_getElem 17 0 0 0
  | .cksum => exists_row_of_getElem 18 0 0 0
  | .b58enc => exists_row_of_getElem 19 0 0 0
  | .b58chk => exists_row_of_getElem 20 0 0 0
  | .wif a => exists_row_of_getElem 21 0 a 0
  | .addr a => exists_row_of_getElem 22 0 a 0
  | .ldw d => exists_row_of_getElem 23 d 0 0
  | .stw a => exists_row_of_getElem 24 0 a 0

/-- A well-formed command is built by a row of the map from operand fields that the row admits. -/
theorem exists_row_admits {i : Instr} (hi : i.wellFormed = true) :
    ∃ r ∈ opcodeMap, ∃ d a b, r.admits d a b ∧ r.build d a b = i := by
  obtain ⟨r, hr, d, a, b, rfl⟩ := exists_row_build i
  exact ⟨r, hr, _, _, _, r.admits_cleared d a b, opcodeMap_ignoresMasked r hr d a b hi⟩

/-! ### Decoding and encoding -/

/-- Settles O1: the row that builds the command fits its word, and reads back the fields it holds. -/
theorem decodeEncodeRoundTrip : Obligations.DecodeEncodeRoundTrip := by
  intro i hi
  obtain ⟨r, hr, d, a, b, hadm, rfl⟩ := exists_row_admits hi
  obtain ⟨_, hword⟩ := opcodeMap_encodesFields r hr d a b hadm
  refine decode_eq_ok.2 ⟨r, hr, (row_fits_iff_admits hr _).2 ?_, ?_⟩
  · simpa [hword] using hadm
  · simp [hword]

/-- Settles O2: the row that fits the word admits its fields, and the word has no other bit than OPC and these. -/
theorem encodeDecodeRoundTrip : Obligations.EncodeDecodeRoundTrip := by
  intro v i hdec
  obtain ⟨r, hr, hfits, rfl⟩ := decode_eq_ok.1 hdec
  obtain ⟨hopc, hrsv, hadm⟩ := (row_fits_iff_admits hr v).1 hfits
  obtain ⟨hwf, hword⟩ := opcodeMap_encodesFields r hr _ _ _ hadm
  refine ⟨hwf, hword.trans (word_ext ?_ ?_ ?_ ?_ ?_)⟩ <;> simp [hopc, hrsv]

/-- Settles O4: two rows that fit one word would have its opcode, and the rows' opcodes differ. -/
theorem noWordFitsTwoRows : Obligations.NoWordFitsTwoRows := by
  intro v
  refine row_opc_nodup.imp_of_mem ?_
  rintro r r' hr hr' hne ⟨hf, hf'⟩
  obtain ⟨hopc, _⟩ := (row_fits_iff_admits hr v).1 hf
  obtain ⟨hopc', _⟩ := (row_fits_iff_admits hr' v).1 hf'
  exact hne (hopc.symm.trans hopc')

/-! ### The illegal words -/

/-- The opcodes of the rows with the property `q`, in the map's order. -/
def opcodesWith (q : Row → Bool) : List (BitVec 8) := (opcodeMap.filter q).map fun r => opcField r.pat

/-- A row is determined by its opcode (30_encoding R71). -/
theorem row_eq_of_opc {r r' : Row} (hr : r ∈ opcodeMap) (hr' : r' ∈ opcodeMap) (h : opcField r.pat = opcField r'.pat) :
    r = r' :=
  List.inj_on_of_nodup_map (List.pairwise_map.2 row_opc_nodup) hr hr' h

theorem opc_mem_opcodesWith {r : Row} (hr : r ∈ opcodeMap) {q : Row → Bool} :
    opcField r.pat ∈ opcodesWith q ↔ q r = true := by
  simp only [opcodesWith, List.mem_map, List.mem_filter]
  constructor
  · rintro ⟨r', ⟨hr', hq⟩, hopc⟩
    rwa [← row_eq_of_opc hr' hr hopc]
  · exact fun hq => ⟨r, ⟨hr, hq⟩, rfl⟩

/-- The masks of the operand fields are those of a W-kind, a P-kind and an unused field. -/
theorem row_mask_kinds : ∀ r ∈ opcodeMap, ∀ m ∈ [rdField r.mask, raField r.mask, rbField r.mask],
    m = 0x0 ∨ m = 0xC ∨ m = 0xF := by decide

/-- A field has a bit under its mask where it is unused and not 0, or of P kind and 4 or more. -/
theorem and_mask_ne_zero {m : Field4} (hm : m = 0x0 ∨ m = 0xC ∨ m = 0xF) (x : Field4) :
    x &&& m ≠ 0 ↔ (m = 0xF ∧ x ≠ 0) ∨ (m = 0xC ∧ 4 ≤ x.toNat) := by
  rcases hm with rfl | rfl | rfl
  · simp
  · simp [pointFieldOk]
  · simp

/-- A row does not fit a word of its opcode where RSV or an operand field has a bit under the row's mask. -/
theorem row_not_fits_iff {r : Row} (hr : r ∈ opcodeMap) {v : Word} (hopc : opcField v = opcField r.pat) :
    r.fits v = false ↔ rsvField v ≠ 0 ∨ rdField v &&& rdField r.mask ≠ 0 ∨ raField v &&& raField r.mask ≠ 0 ∨
      rbField v &&& rbField r.mask ≠ 0 := by
  rw [← Bool.not_eq_true, row_fits_iff_admits hr, Row.admits]
  tauto

/-- R72's kinds of illegal word, with the opcodes of each kind read off the masks of the map. -/
theorem decode_error_iff (v : Word) : (∃ e, decode v = .error e) ↔
    opcField v ∉ opcodesWith (fun _ => true) ∨ rsvField v ≠ 0 ∨
      (opcField v ∈ opcodesWith (fun r => rdField r.mask == 0xF) ∧ rdField v ≠ 0) ∨
      (opcField v ∈ opcodesWith (fun r => raField r.mask == 0xF) ∧ raField v ≠ 0) ∨
      (opcField v ∈ opcodesWith (fun r => rbField r.mask == 0xF) ∧ rbField v ≠ 0) ∨
      (opcField v ∈ opcodesWith (fun r => rdField r.mask == 0xC) ∧ 4 ≤ (rdField v).toNat) ∨
      (opcField v ∈ opcodesWith (fun r => raField r.mask == 0xC) ∧ 4 ≤ (raField v).toNat) ∨
      (opcField v ∈ opcodesWith (fun r => rbField r.mask == 0xC) ∧ 4 ≤ (rbField v).toNat) := by
  rw [decode_eq_error]
  by_cases hopc : ∃ r ∈ opcodeMap, opcField v = opcField r.pat
  · obtain ⟨r, hr, hopc⟩ := hopc
    have hall : (∀ x ∈ opcodeMap, x.fits v = false) ↔ r.fits v = false := by
      refine ⟨fun h => h r hr, fun h x hx => Bool.eq_false_iff.2 fun hfits => ?_⟩
      obtain ⟨hopc', _⟩ := (row_fits_iff_admits hx v).1 hfits
      rw [row_eq_of_opc hr hx (hopc.symm.trans hopc'), hfits] at h
      cases h
    have hkinds := row_mask_kinds r hr
    simp only [List.forall_mem_cons] at hkinds
    obtain ⟨hd, ha, hb, _⟩ := hkinds
    rw [hall, row_not_fits_iff hr hopc, and_mask_ne_zero hd, and_mask_ne_zero ha, and_mask_ne_zero hb, hopc]
    simp only [opc_mem_opcodesWith hr, beq_iff_eq, not_true_eq_false, false_or, or_assoc, or_left_comm]
  · refine iff_of_true (fun r hr => Bool.eq_false_iff.2 fun hfits => hopc ⟨r, hr, ?_⟩) (.inl fun hmem => hopc ?_)
    · exact ((row_fits_iff_admits hr v).1 hfits).1
    · obtain ⟨r, hr, h⟩ := List.mem_map.1 hmem
      exact ⟨r, (List.mem_filter.1 hr).1, h.symm⟩

/-- Settles O3: its opcode lists are those of the map's masks. -/
theorem illegalWordsByField : Obligations.IllegalWordsByField := by
  intro v
  rw [← List.mem_singleton (a := opcField v) (b := 0x11)]
  exact decode_error_iff v

/-! ### R77's examples -/

theorem decode_of_encode {v : Word} {i : Instr} (hw : i.wellFormed = true) (h : encode i = v) : decode v = .ok i := by
  rw [← h, decodeEncodeRoundTrip i hw]

theorem legalWord_eq_false {v : Word} : Machine.legalWord v = false ↔ ∃ e, decode v = .error e := by
  rw [Machine.legalWord]
  cases decode v with
  | error e => exact iff_of_true rfl ⟨e, rfl⟩
  | ok i => exact iff_of_false (by simp [Except.isOk, Except.toBool]) (by simp)

/-- Settles O5: each word is the encoding of its command, and the last four are of R72's kinds. -/
theorem sampleWordsDecode : Obligations.SampleWordsDecode := by
  have illegal := fun v => legalWord_eq_false.trans (illegalWordsByField v)
  refine ⟨decode_of_encode rfl rfl, decode_of_encode rfl rfl, decode_of_encode rfl rfl, decode_of_encode rfl rfl,
    decode_of_encode rfl rfl, decode_of_encode rfl rfl, decode_of_encode rfl rfl, decode_of_encode rfl rfl,
    decode_of_encode rfl rfl, decode_of_encode rfl rfl, decode_of_encode rfl rfl, decode_of_encode rfl rfl,
    decode_of_encode rfl rfl, decode_of_encode rfl rfl, decode_of_encode rfl rfl, decode_of_encode rfl rfl,
    decode_of_encode rfl rfl, (illegal _).2 (.inl ?zeroOpcode), (illegal _).2 ?pointField,
    (illegal _).2 (.inr (.inl ?reserved)), (illegal _).2 (.inr (.inr (.inl ?unusedField)))⟩
  case zeroOpcode | reserved | unusedField => decide
  case pointField => exact .inr (.inr (.inr (.inr (.inr (.inl (by decide))))))

end Sys2Proof

/-! PROOFS. How an illegal word, and a command term that no word stands for, complete (30_encoding R72,
60_exceptions R134). -/

namespace Sys2Proof.Machine

/-- Settles O7. -/
theorem illegalWordCompletes : Obligations.IllegalWordCompletes := by
  intro s v hp hd hv
  obtain ⟨e, he⟩ := legalWord_eq_false.1 hv
  rw [step_due hp hd, complete_of_decode_error s he, raiseError_eq_failed]
  rfl

/-- Pseudocode that begins with the check of a P-kind field ends with E_ILLEGAL where the field is 4 or more, or where
the rest ends so. -/
theorem checkPointField_bind_illegal {α : Type} {r : Field4} {f : Unit → Except CmdError α}
    (h : pointFieldOk r = true → f () = .error .illegal) : (checkPointField r >>= f) = .error .illegal := by
  cases hr : pointFieldOk r
  · rw [checkPointField_eq_error.2 ⟨hr, rfl⟩, except_error_bind]
  · rw [checkPointField_eq_ok.2 hr, except_ok_bind, h hr]

/-- A command term that is not well-formed has a check of a P-kind field, which fails before all else. -/
theorem resultOf_of_not_wellFormed {i : Instr} (s : State) (h : ¬ i.wellFormed = true) :
    resultOf i s = .error .illegal := by
  cases i
  case padd =>
    refine checkPointField_bind_illegal fun hd => checkPointField_bind_illegal fun ha =>
      checkPointField_bind_illegal fun hb => absurd ?_ h
    simp [Instr.wellFormed, hd, ha, hb]
  case pdbl =>
    refine checkPointField_bind_illegal fun hd => checkPointField_bind_illegal fun ha => absurd ?_ h
    simp [Instr.wellFormed, hd, ha]
  case smul | pcomp | pgen | pinf | pset | pgetx | pgety => exact checkPointField_bind_illegal fun hr => absurd hr h
  case addr =>
    have hout : addrOutput _ s = .error .illegal := checkPointField_bind_illegal fun hr => absurd hr h
    exact congrArg (· >>= s.output) hout
  all_goals exact absurd rfl h

/-- Settles O20. -/
theorem illFormedCommandIsIllegal : Obligations.IllFormedCommandIsIllegal := by
  intro i s h
  exact exec_of_error (resultOf_of_not_wellFormed s (Bool.eq_false_iff.1 h))

end Sys2Proof.Machine

/-! PROOFS. The field unit as the arithmetic of the prime field: a register stands for its residue in `ZMod primeP`,
each operation for the field's own, and a result is the one register below p that stands for its residue
(40_field R78 to R83). -/

namespace Sys2Proof.Machine

/-! ### The operations on residues -/

/-- Narrowing `mod p` to a register gives a register below p. -/
theorem toNat_ofNat_modP_lt (z : Int) : (BitVec.ofNat 256 (modP z)).toNat < primeP := by
  rw [toNat_ofNat_of_lt (modP_lt z)]
  exact modP_lt z

/-- Narrowing `mod p` to a register keeps the residue. -/
theorem toNat_ofNat_modP_cast (z : Int) : ((BitVec.ofNat 256 (modP z)).toNat : ZMod primeP) = z := by
  rw [toNat_ofNat_of_lt (modP_lt z), modP_cast]

theorem fieldAdd_lt (a b : Wide) : (fieldAdd a b).toNat < primeP := toNat_ofNat_modP_lt _

theorem fieldSub_lt (a b : Wide) : (fieldSub a b).toNat < primeP := toNat_ofNat_modP_lt _

theorem fieldMul_lt (a b : Wide) : (fieldMul a b).toNat < primeP := toNat_ofNat_modP_lt _

theorem fieldInv_lt (a : Wide) : (fieldInv a).toNat < primeP := by
  rw [fieldInv, toNat_ofNat_of_lt (invModP_lt _)]
  exact invModP_lt _

theorem fieldAdd_cast (a b : Wide) : ((fieldAdd a b).toNat : ZMod primeP) = a.toNat + b.toNat := by
  rw [fieldAdd, toNat_ofNat_modP_cast, Int.cast_add, Int.cast_natCast, Int.cast_natCast]

theorem fieldSub_cast (a b : Wide) : ((fieldSub a b).toNat : ZMod primeP) = a.toNat - b.toNat := by
  rw [fieldSub, toNat_ofNat_modP_cast, Int.cast_sub, Int.cast_natCast, Int.cast_natCast]

theorem fieldMul_cast (a b : Wide) : ((fieldMul a b).toNat : ZMod primeP) = a.toNat * b.toNat := by
  rw [fieldMul, toNat_ofNat_modP_cast, Int.cast_mul, Int.cast_natCast, Int.cast_natCast]

theorem fieldInv_cast [Fact primeP.Prime] (a : Wide) :
    ((fieldInv a).toNat : ZMod primeP) = (a.toNat : ZMod primeP)⁻¹ := by
  rw [fieldInv, toNat_ofNat_of_lt (invModP_lt _), invModP_cast, Int.cast_natCast]

/-- The register p - (v mod p) stands for the negative of `v`'s residue (40_field R83). -/
theorem negated_cast (v : Nat) :
    ((BitVec.ofNat 256 (primeP - v % primeP)).toNat : ZMod primeP) = -(v : ZMod primeP) := by
  have hle : v % primeP ≤ primeP := (Nat.mod_lt v (by decide)).le
  have hfits : primeP - v % primeP < 2 ^ 256 := (Nat.sub_le _ _).trans_lt primeP_lt
  rw [BitVec.toNat_ofNat, Nat.mod_eq_of_lt hfits, Nat.cast_sub hle, ZMod.natCast_self, ZMod.natCast_mod, zero_sub]

/-! ### Inverses -/

theorem cast_ne_zero_iff (r : Nat) : (r : ZMod primeP) ≠ 0 ↔ r % primeP ≠ 0 := by
  rw [Ne, ZMod.natCast_eq_zero_iff, Nat.dvd_iff_mod_eq_zero]

/-- `v` is an inverse of `r` modulo p where it stands for one of `r`'s residue. -/
theorem mod_mul_mod_eq_one_iff (r v : Nat) : r % primeP * v % primeP = 1 ↔ (r : ZMod primeP) * v = 1 := by
  have one_mod : 1 = 1 % primeP := by decide
  rw [one_mod, ← ZMod.natCast_eq_natCast_iff', Nat.cast_mul, ZMod.natCast_mod, Nat.cast_one]

/-- The result of `FINV` stands for the inverse of a residue that is not 0 (40_field R82). -/
theorem mul_fieldInv_cast [Fact primeP.Prime] {a : Wide} (h : a.toNat % primeP ≠ 0) :
    (a.toNat : ZMod primeP) * (fieldInv a).toNat = 1 := by
  rw [fieldInv_cast, mul_inv_cancel₀ ((cast_ne_zero_iff _).2 h)]

theorem fieldInv_pos [Fact primeP.Prime] {a : Wide} (h : a.toNat % primeP ≠ 0) : 1 ≤ (fieldInv a).toNat := by
  refine Nat.one_le_iff_ne_zero.2 fun h0 => ?_
  have hmul := mul_fieldInv_cast h
  rw [h0, Nat.cast_zero, mul_zero] at hmul
  exact zero_ne_one hmul

/-- A residue of the prime field has at most one inverse below p. -/
theorem inverse_unique [Fact primeP.Prime] {r u v : Nat} (hu : u < primeP) (hv : v < primeP)
    (hru : (r : ZMod primeP) * u = 1) (hrv : (r : ZMod primeP) * v = 1) : u = v := by
  have huv : (u : ZMod primeP) = v := (eq_inv_of_mul_eq_one_right hru).trans (eq_inv_of_mul_eq_one_right hrv).symm
  rwa [ZMod.natCast_eq_natCast_iff', Nat.mod_eq_of_lt hu, Nat.mod_eq_of_lt hv] at huv

/-! ### The commands -/

theorem finvResult_of_ne_zero {d a : Field4} {s : State} (h : (s.readW a).toNat % primeP ≠ 0) :
    finvResult d a s = .ok { w := some (d, fieldInv (s.readW a)) } := by
  rw [finvResult, modP_natCast, bne_iff_ne.2 h, require_true, except_ok_bind, except_pure]

theorem finvResult_of_zero {d a : Field4} {s : State} (h : (s.readW a).toNat % primeP = 0) :
    finvResult d a s = .error .noInv := by
  rw [finvResult, modP_natCast, h, bne_self_eq_false, require_false, except_error_bind]

/-- Settles O21: each command stages the unit's result, whose value is exact. -/
theorem fieldArithmeticResults : Obligations.FieldArithmeticResults := by
  intro d a b s
  refine ⟨?fadd, ?fsub, ?fmul⟩
  case fadd =>
    obtain ⟨t, ht, hw⟩ := exec_of_w (i := .fadd d a b) (s := s) rfl
    exact ⟨t, _, ht, hw, toNat_fieldAdd _ _⟩
  case fsub =>
    obtain ⟨t, ht, hw⟩ := exec_of_w (i := .fsub d a b) (s := s) rfl
    exact ⟨t, _, ht, hw, toNat_fieldSub _ _⟩
  case fmul =>
    obtain ⟨t, ht, hw⟩ := exec_of_w (i := .fmul d a b) (s := s) rfl
    exact ⟨t, _, ht, hw, toNat_fieldMul _ _⟩

/-- Settles O22: a residue that is not 0 has one inverse in the prime field, and one register below p stands for it. -/
theorem finvGivesTheInverse : Obligations.FinvGivesTheInverse := by
  intro d a s
  have : Fact primeP.Prime := ⟨primeP_prime⟩
  constructor
  · intro h
    obtain ⟨t, ht, hw⟩ := exec_of_w (i := .finv d a) (finvResult_of_ne_zero h)
    have hinv := mul_fieldInv_cast h
    refine ⟨t, _, ht, hw, fieldInv_pos h, fieldInv_lt _, (mod_mul_mod_eq_one_iff _ _).2 hinv, fun u _ hu hru => ?_⟩
    exact inverse_unique hu (fieldInv_lt _) ((mod_mul_mod_eq_one_iff _ _).1 hru) hinv
  · exact fun h => exec_of_error (i := .finv d a) (finvResult_of_zero h)

/-- Settles O23: both sides of each law lie below p, and stand for equal elements of the prime field. -/
theorem fieldLaws : Obligations.FieldLaws := by
  intro a b c
  have : Fact primeP.Prime := ⟨primeP_prime⟩
  refine ⟨eq_of_cast_eq (fieldAdd_lt _ _) (fieldAdd_lt _ _) ?addComm,
    eq_of_cast_eq (fieldMul_lt _ _) (fieldMul_lt _ _) ?mulComm,
    eq_of_cast_eq (fieldAdd_lt _ _) (fieldAdd_lt _ _) ?addAssoc,
    eq_of_cast_eq (fieldMul_lt _ _) (fieldMul_lt _ _) ?mulAssoc,
    eq_of_cast_eq (fieldMul_lt _ _) (fieldAdd_lt _ _) ?distrib,
    eq_of_cast_eq (fieldSub_lt _ _) (fieldAdd_lt _ _) ?subAsAdd,
    fun h => eq_of_cast_eq (fieldMul_lt _ _) (by decide) ?inverse⟩
  case addComm | addAssoc => simp only [fieldAdd_cast]; ring
  case mulComm | mulAssoc => simp only [fieldMul_cast]; ring
  case distrib => simp only [fieldMul_cast, fieldAdd_cast]; ring
  case subAsAdd => rw [fieldSub_cast, fieldAdd_cast, negated_cast, sub_eq_add_neg]
  case inverse =>
    rw [fieldMul_cast, mul_fieldInv_cast h]
    exact Nat.cast_one.symm

end Sys2Proof.Machine

/-! PROOFS. The point unit's cases: each branch of `padd` and `pdbl` by its name, and the chord and the tangent by the
equation of their slope and the exact coordinates of their third point (41_point R86, R87). -/

namespace Sys2Proof.Machine

/-! ### Addition -/

theorem pointAdd_of_inf_left {q : Point} (h : q.inf = true) (r : Point) : pointAdd q r = r := by
  rw [pointAdd, if_pos h]

theorem pointAdd_of_inf_right {q r : Point} (hq : q.inf = false) (hr : r.inf = true) : pointAdd q r = q := by
  rw [pointAdd, hq, if_neg Bool.false_ne_true, if_pos hr]

/-- Affine points of one abscissa: the double where they are one point with y not 0, else O (41_point R86). -/
theorem pointAdd_of_x_eq {q r : Point} (hq : q.inf = false) (hr : r.inf = false) (hx : q.x = r.x) :
    pointAdd q r = if q.y = r.y ∧ q.y ≠ 0 then pointDouble q else Point.infinity := by
  rw [pointAdd, hq, hr, if_neg Bool.false_ne_true, if_neg Bool.false_ne_true, if_pos hx]

/-- The slope of the chord through two points of different abscissas, as the unit computes it (41_point R86). -/
def chordSlope (q r : Point) : Nat :=
  modP (((r.y.toNat : Int) - q.y.toNat) * invModP ((r.x.toNat : Int) - q.x.toNat))

theorem pointAdd_of_x_ne {q r : Point} (hq : q.inf = false) (hr : r.inf = false) (hx : q.x ≠ r.x) :
    pointAdd q r = thirdPoint (chordSlope q r) q.x.toNat q.y.toNat r.x.toNat := by
  rw [pointAdd, hq, hr, if_neg Bool.false_ne_true, if_neg Bool.false_ne_true, if_neg hx]
  rfl

/-! ### Doubling -/

theorem pointDouble_eq_infinity {q : Point} (h : q.inf = true ∨ q.y = 0) : pointDouble q = Point.infinity := by
  rw [pointDouble]
  split
  · rfl
  · next hi => rw [if_pos (h.resolve_left hi)]

/-- The slope of the tangent at a point with y not 0, as the unit computes it (41_point R87). -/
def tangentSlope (q : Point) : Nat :=
  modP (3 * (q.x.toNat : Int) * q.x.toNat * invModP (2 * (q.y.toNat : Int)))

theorem pointDouble_of_y_ne_zero {q : Point} (hi : q.inf = false) (hy : q.y ≠ 0) :
    pointDouble q = thirdPoint (tangentSlope q) q.x.toNat q.y.toNat q.x.toNat := by
  rw [pointDouble, hi, if_neg Bool.false_ne_true, if_neg hy]
  rfl

/-! ### The third point -/

theorem toNat_thirdPoint_x (lam x1 y1 x2 : Int) :
    ((thirdPoint lam x1 y1 x2).x.toNat : Int) = (lam * lam - x1 - x2) % primeP := by
  rw [thirdPoint, toNat_affine_x, modP_eq, modP_eq, Int.emod_emod_of_dvd _ (dvd_refl _)]

theorem toNat_thirdPoint_y (lam x1 y1 x2 : Int) :
    ((thirdPoint lam x1 y1 x2).y.toNat : Int) =
      (lam * (x1 - (thirdPoint lam x1 y1 x2).x.toNat) - y1) % primeP := by
  rw [toNat_thirdPoint_x, ← modP_eq (lam * lam - x1 - x2), thirdPoint, toNat_affine_y, modP_eq]

/-! ### The slopes -/

/-- `u · FINV(v)` is the quotient of `u` by a `v` that is not 0 in the field (40_field R82; 00_scope R12). -/
theorem modP_mul_invModP_mul [Fact primeP.Prime] (u : Int) {v : Int} (hv : (v : ZMod primeP) ≠ 0) :
    (modP (u * invModP v) * v : Int) % primeP = u % primeP := by
  rw [← ZMod.intCast_eq_intCast_iff', Int.cast_mul, Int.cast_natCast, modP_cast, Int.cast_mul, Int.cast_natCast,
    invModP_cast, inv_mul_cancel_right₀ hv]

/-- The chord's slope solves `lam (x2 - x1) = y2 - y1` in the field (41_point R86). -/
theorem chordSlope_mul [Fact primeP.Prime] {q r : Point} (hq : q.x.toNat < primeP) (hr : r.x.toNat < primeP)
    (hx : q.x ≠ r.x) :
    (chordSlope q r * ((r.x.toNat : Int) - q.x.toNat)) % primeP = ((r.y.toNat : Int) - q.y.toNat) % primeP := by
  refine modP_mul_invModP_mul _ fun h0 => hx (eq_of_cast_eq hq hr ?_)
  push_cast at h0
  exact (sub_eq_zero.1 h0).symm

/-- The tangent's slope solves `lam (2 y) = 3 x^2` in the field (41_point R87). -/
theorem tangentSlope_mul [Fact primeP.Prime] {q : Point} (hy : q.y.toNat < primeP) (h0 : q.y ≠ 0) :
    tangentSlope q * (2 * q.y.toNat) % primeP = 3 * q.x.toNat * q.x.toNat % primeP := by
  have hne : ((2 * (q.y.toNat : Int) : Int) : ZMod primeP) ≠ 0 := by
    push_cast
    refine mul_ne_zero two_ne_zero_modP fun e => h0 (eq_of_cast_eq hy (by decide) ?_)
    rw [e]
    exact Nat.cast_zero.symm
  exact_mod_cast modP_mul_invModP_mul (3 * (q.x.toNat : Int) * q.x.toNat) hne

end Sys2Proof.Machine

/-! PROOFS. The group law of the curve, and multiples of G, on point records (41_point R88, R92). -/

namespace Sys2Proof.Machine

/-- `-Q` is the group's negative (00_scope R12). -/
theorem Represents.neg [Fact primeP.Prime] {q : Point} {P : secp.Point} (h : Represents q P) :
    Represents q.neg (-P) := by
  cases P with
  | zero =>
    rw [show q = Point.infinity from h]
    rfl
  | some x y hn =>
    obtain ⟨hi, hc, rfl, rfl⟩ := h
    have hlt : (primeP - q.y.toNat) % primeP < primeP := Nat.mod_lt _ (by decide)
    have hneg : q.neg = { x := q.x, y := BitVec.ofNat 256 ((primeP - q.y.toNat) % primeP), inf := false } := by
      rw [Point.neg, hi, if_neg Bool.false_ne_true]
    rw [hneg, WeierstrassCurve.Affine.Point.neg_some]
    refine ⟨rfl, ?_, rfl, ?_⟩
    · simpa [Point.canonical, toNat_ofNat_of_lt hlt, hlt] using (canonical_lt hc hi).1
    · rw [toNat_ofNat_of_lt hlt, ZMod.natCast_mod, Nat.cast_sub (canonical_lt hc hi).2.le, ZMod.natCast_self, zero_sub,
        secp_negY]

/-- Settles O28: records on the curve stand for points of Mathlib's group, `padd`, `pdbl` and the negative for the
group's, and one record for each point. -/
theorem pointAdditionIsTheGroupLaw : Obligations.PointAdditionIsTheGroupLaw := by
  have : Fact primeP.Prime := ⟨primeP_prime⟩
  refine ⟨fun q r u hq hr hu => ?_, fun q r hq hr => ⟨canonical_pointAdd q r hq hr, canonical_pointDouble q⟩⟩
  obtain ⟨P, hP⟩ := exists_represents hq
  obtain ⟨R, hR⟩ := exists_represents hr
  obtain ⟨U, hU⟩ := exists_represents hu
  refine ⟨(hP.add hR).onCurve, hP.double.onCurve, hP.neg.onCurve, ?comm, ?assoc, ?neutral, ?inverse, ?double⟩
  case comm => exact (hP.add hR).left_unique (add_comm R P ▸ hR.add hP)
  case assoc => exact ((hP.add hR).add hU).left_unique (add_assoc P R U ▸ hP.add (hR.add hU))
  case neutral => exact (add_zero P ▸ hP.add represents_infinity).left_unique hP
  case inverse => exact (add_neg_cancel P ▸ hP.add hP.neg).left_unique represents_infinity
  case double => exact (hP.add hP).left_unique hP.double

/-- Settles O31: k·G is not O below the order of G, and stands for a point of the curve. -/
theorem smulGivesAffineCurvePoint : Obligations.SmulGivesAffineCurvePoint := by
  intro k h0 h1
  have : Fact primeP.Prime := ⟨primeP_prime⟩
  obtain ⟨G, hG⟩ := exists_represents generator_onCurve
  exact ⟨scalarMul_inf h0 h1, (represents_scalarMul hG (h1.trans orderN_lt)).onCurve⟩

end Sys2Proof.Machine

/-! PROOFS. Compression loses nothing on the curve: the parity byte tells the two ordinates of an abscissa apart, for
their sum p is odd (41_point R94, R101). -/

namespace Sys2Proof.Machine

/-- The 32 big-endian bytes of a register decode to its value (00_scope R10). -/
theorem beInt_beBytes_toNat (v : Wide) : beInt (beBytes 32 v.toNat) = v.toNat := by
  rw [beInt_beBytes, show 256 ^ 32 = 2 ^ 256 by decide, Nat.mod_eq_of_lt v.isLt]

theorem beBytes_toNat_injective {a b : Wide} (h : beBytes 32 a.toNat = beBytes 32 b.toNat) : a = b := by
  have hint := congrArg beInt h
  rw [beInt_beBytes_toNat, beInt_beBytes_toNat] at hint
  exact BitVec.eq_of_toNat_eq hint

/-- An encoding tells the abscissa, and the parity of the ordinate (41_point R94). -/
theorem x_eq_and_parity_eq_of_compress_eq {q r : Point} (h : compress q = compress r) :
    q.x = r.x ∧ q.y.toNat % 2 = r.y.toNat % 2 := by
  obtain ⟨hsign, hbytes⟩ := List.cons.inj h
  refine ⟨beBytes_toNat_injective hbytes, ?_⟩
  have hnat := congrArg BitVec.toNat hsign
  simp only [BitVec.toNat_ofNat] at hnat
  omega

theorem Point.eq_of_fields_eq {q r : Point} (hx : q.x = r.x) (hy : q.y = r.y) (hi : q.inf = r.inf) : q = r := by
  cases q
  cases r
  simp_all

/-- The equation of an affine point of the curve, in the prime field (41_point R85). -/
theorem Point.onCurve.equation {q : Point} (h : q.onCurve) (hi : q.inf = false) :
    (q.y.toNat : ZMod primeP) ^ 2 = (q.x.toNat : ZMod primeP) ^ 3 + 7 :=
  (equation_cast _ _).1 (h.2.resolve_left (by rw [hi]; exact Bool.false_ne_true))

/-- Two values below p of one square are equal, or add up to p. -/
theorem eq_or_add_eq_primeP_of_sq_eq [Fact primeP.Prime] {a b : Nat} (ha : a < primeP) (hb : b < primeP)
    (h : (a : ZMod primeP) ^ 2 = (b : ZMod primeP) ^ 2) : a = b ∨ a + b = primeP := by
  rcases sq_eq_sq_iff_eq_or_eq_neg.1 h with heq | hneg
  · rw [ZMod.natCast_eq_natCast_iff', Nat.mod_eq_of_lt ha, Nat.mod_eq_of_lt hb] at heq
    exact .inl heq
  · have hdvd : primeP ∣ a + b := by
      rw [← ZMod.natCast_eq_zero_iff, Nat.cast_add, hneg, neg_add_cancel]
    obtain ⟨c, hc⟩ := hdvd
    have hc2 : c < 2 := by
      by_contra hge
      have := Nat.mul_le_mul_left primeP (Nat.not_lt.1 hge)
      omega
    interval_cases c <;> omega

/-- Settles O33: equal abscissas have ordinates that are equal or add up to p, which is odd. -/
theorem compressIsInjective : Obligations.CompressIsInjective := by
  intro q r hq hr qi ri h
  have : Fact primeP.Prime := ⟨primeP_prime⟩
  obtain ⟨hx, hparity⟩ := x_eq_and_parity_eq_of_compress_eq h
  have hsq : (q.y.toNat : ZMod primeP) ^ 2 = (r.y.toNat : ZMod primeP) ^ 2 := by
    rw [hq.equation qi, hr.equation ri, hx]
  have hy : q.y.toNat = r.y.toNat := by
    rcases eq_or_add_eq_primeP_of_sq_eq (canonical_lt hq.1 qi).2 (canonical_lt hr.1 ri).2 hsq with heq | hsum
    · exact heq
    · have hodd : primeP % 2 = 1 := by decide
      omega
  exact Point.eq_of_fields_eq hx (BitVec.eq_of_toNat_eq hy) (qi.trans ri.symm)

end Sys2Proof.Machine

/-! PROOFS. The commands of the point family: what each stages once its checks have passed, and the error it takes
otherwise (41_point R89 to R100). The names `pdblResult`, `smulResult` and `pcompResult` are those of the model's
pseudocode, so the theorems that settle the statements of these names end in `_spec`. -/

namespace Sys2Proof.Machine

/-! ### The checks at the head of a command -/

/-- A command that stages a point once its destination field is checked completes with it, and INF takes its inf bit
(10_state R30). -/
theorem exec_of_checked_point {i : Instr} {s : State} {d : Field4} {q : Point} (hd : d.toNat < 4)
    (h : resultOf i s = (checkPointField d >>= fun _ => .ok (stagePoint d q))) :
    ∃ t, exec i s = .next t ∧ SucceedsWithP s t d q q.inf := by
  rw [checkPointField_of_lt hd, except_ok_bind] at h
  exact exec_of_p hd h

/-- A command of an affine operand goes on with the point its register holds (60_exceptions R137). -/
theorem affineCommand_of_affine {s : State} {a : Field4} (ha : a.toNat < 4) (hi : (s.readP a).inf = false)
    (f : Point → Result) : (checkPointField a >>= fun _ => s.affineOperand a >>= f) = f (s.readP a) := by
  rw [checkPointField_of_lt ha, except_ok_bind, affineOperand_of_affine hi, except_ok_bind]

/-- A command of an affine operand ends with E_INFINITY where its register holds O (60_exceptions R137). -/
theorem affineCommand_of_inf {s : State} {a : Field4} (ha : a.toNat < 4) (hi : (s.readP a).inf = true)
    (f : Point → Result) : (checkPointField a >>= fun _ => s.affineOperand a >>= f) = .error .infinity := by
  rw [checkPointField_of_lt ha, except_ok_bind, affineOperand_of_inf hi, except_error_bind]

/-! ### What each command stages -/

theorem resultOf_sval {s : State} {a : Field4} (h0 : 1 ≤ (s.readW a).toNat) (h1 : (s.readW a).toNat < orderN) :
    resultOf (.sval a) s = .ok {} := by
  show svalResult a s = _
  rw [svalResult, scalarOperand_of_valid h0 h1, except_ok_bind, except_pure]

theorem resultOf_sval_of_invalid {s : State} {a : Field4}
    (h : (s.readW a).toNat = 0 ∨ orderN ≤ (s.readW a).toNat) : resultOf (.sval a) s = .error .scalar := by
  show svalResult a s = _
  rw [svalResult, scalarOperand_of_invalid h, except_error_bind]

theorem resultOf_padd {d a b : Field4} (hd : d.toNat < 4) (ha : a.toNat < 4) (hb : b.toNat < 4) (s : State) :
    resultOf (.padd d a b) s = .ok (stagePoint d (pointAdd (s.readP a) (s.readP b))) := by
  show paddResult d a b s = _
  rw [paddResult, checkPointField_of_lt hd, checkPointField_of_lt ha, checkPointField_of_lt hb]
  rfl

theorem resultOf_pdbl {d a : Field4} (hd : d.toNat < 4) (ha : a.toNat < 4) (s : State) :
    resultOf (.pdbl d a) s = .ok (stagePoint d (pointDouble (s.readP a))) := by
  show pdblResult d a s = _
  rw [pdblResult, checkPointField_of_lt hd, checkPointField_of_lt ha]
  rfl

theorem resultOf_smul {s : State} {d a : Field4} (hd : d.toNat < 4) (h0 : 1 ≤ (s.readW a).toNat)
    (h1 : (s.readW a).toNat < orderN) :
    resultOf (.smul d a) s = .ok { p := some (d, scalarMul (s.readW a).toNat), inf := some false } := by
  show smulResult d a s = _
  rw [smulResult, checkPointField_of_lt hd, except_ok_bind, scalarOperand_of_valid h0 h1, except_ok_bind, except_pure]

theorem resultOf_smul_of_invalid {s : State} {d a : Field4} (hd : d.toNat < 4)
    (h : (s.readW a).toNat = 0 ∨ orderN ≤ (s.readW a).toNat) : resultOf (.smul d a) s = .error .scalar := by
  show smulResult d a s = _
  rw [smulResult, checkPointField_of_lt hd, except_ok_bind, scalarOperand_of_invalid h, except_error_bind]

/-! ### Addition and doubling -/

/-- PADD completes with `padd` of its operands, and INF takes its inf bit (41_point R90). -/
theorem exec_padd {d a b : Field4} {s : State} {q : Point} (hd : d.toNat < 4) (ha : a.toNat < 4) (hb : b.toNat < 4)
    (hq : pointAdd (s.readP a) (s.readP b) = q) :
    ∃ t, exec (.padd d a b) s = .next t ∧ SucceedsWithP s t d q q.inf :=
  exec_of_p hd (hq ▸ resultOf_padd hd ha hb s)

/-- PDBL completes with `pdbl` of its operand, and INF takes its inf bit (41_point R91). -/
theorem exec_pdbl {d a : Field4} {s : State} {q : Point} (hd : d.toNat < 4) (ha : a.toNat < 4)
    (hq : pointDouble (s.readP a) = q) :
    ∃ t, exec (.pdbl d a) s = .next t ∧ SucceedsWithP s t d q q.inf :=
  exec_of_p hd (hq ▸ resultOf_pdbl hd ha s)

/-- The destination reads the point a command completed with. -/
theorem SucceedsWithP.readP_same {s t : State} {d : Field4} {q : Point} {b : Bool} (h : SucceedsWithP s t d q b)
    (hd : d.toNat < 4) : t.readP d = q := by
  obtain ⟨_, _, hp, _⟩ := h
  rw [hp d hd, if_pos rfl]

/-- Settles O25: each branch of `padd` but the chord. -/
theorem paddSpecialCases : Obligations.PaddSpecialCases := by
  intro d a b s hd ha hb
  refine ⟨fun ai => ?left, fun ai bi => ?right, fun ai bi hx => ⟨fun hy h0 => ?same, fun hy => ?opposite⟩⟩
  case left => exact exec_padd hd ha hb (pointAdd_of_inf_left ai _)
  case right => exact ai ▸ exec_padd hd ha hb (pointAdd_of_inf_right ai bi)
  case same =>
    obtain ⟨u, hu, hpu⟩ := exec_pdbl (s := s) hd ha rfl
    have hsum := pointAdd_of_x_eq ai bi hx
    rw [if_pos ⟨hy, h0⟩, ← hpu.readP_same hd] at hsum
    obtain ⟨t, ht, hpt⟩ := exec_padd hd ha hb hsum
    exact ⟨t, u, ht, hu, hpt⟩
  case opposite =>
    have hsum := pointAdd_of_x_eq ai bi hx
    rw [if_neg fun h => hy.elim (absurd h.1) h.2] at hsum
    exact exec_padd hd ha hb hsum

/-- Settles O26: the chord, by the equation of its slope and the coordinates of its third point. -/
theorem paddChord : Obligations.PaddChord := by
  intro d a b s hd ha hb ai bi ac bc hx
  have : Fact primeP.Prime := ⟨primeP_prime⟩
  obtain ⟨t, ht, hp⟩ := exec_padd hd ha hb (pointAdd_of_x_ne ai bi hx)
  exact ⟨t, _, chordSlope (s.readP a) (s.readP b), ht, hp, rfl, modP_lt _,
    chordSlope_mul (canonical_lt ac ai).1 (canonical_lt bc bi).1 hx, toNat_thirdPoint_x _ _ _ _,
    toNat_thirdPoint_y _ _ _ _⟩

/-- Settles O27: O, or the tangent by the equation of its slope and the coordinates of its third point. -/
theorem pdblResult_spec : Obligations.PdblResult := by
  intro d a s hd ha
  have : Fact primeP.Prime := ⟨primeP_prime⟩
  refine ⟨fun h => exec_pdbl hd ha (pointDouble_eq_infinity h), fun ai hy ac => ?_⟩
  obtain ⟨t, ht, hp⟩ := exec_pdbl hd ha (pointDouble_of_y_ne_zero ai hy)
  refine ⟨t, _, tangentSlope (s.readP a), ht, hp, rfl, modP_lt _, tangentSlope_mul (canonical_lt ac ai).2 hy, ?_,
    toNat_thirdPoint_y _ _ _ _⟩
  rw [toNat_thirdPoint_x, two_mul, sub_sub]

/-! ### Scalars -/

/-- Settles O24: a valid scalar stages nothing, any other raises E_SCALAR. -/
theorem svalChecksTheScalar : Obligations.SvalChecksTheScalar := by
  intro a s
  refine ⟨fun h0 h1 => ?_, fun h => exec_of_error (resultOf_sval_of_invalid h)⟩
  exact ⟨_, exec_of_ok (resultOf_sval h0 h1), succeeds_commit s _, commit_keepsW rfl, commit_keepsP rfl,
    commit_keepsMem rfl, rfl, rfl⟩

/-- Settles O29: a valid scalar stages k·G and INF = 0, any other raises E_SCALAR. -/
theorem smulResult_spec : Obligations.SmulResult := by
  intro d a s hd
  exact ⟨fun h0 h1 => exec_of_p hd (resultOf_smul hd h0 h1), fun h => exec_of_error (resultOf_smul_of_invalid hd h)⟩

/-! ### Compression -/

/-- Settles O32: O is refused before the destination is checked, and the 33 bytes are the parity byte and BE_32(x). -/
theorem pcompResult_spec : Obligations.PcompResult := by
  intro a s ha hwf
  have affine := fun hi => exec_of_output (resultOf_pcomp (s := s) ha hi) hwf
  simp only [length_compress] at affine
  refine ⟨fun hi => exec_of_error (i := .pcomp a) (affineCommand_of_inf ha hi _), fun hi => (affine hi).1,
    fun hi hr => ?_⟩
  obtain ⟨t, ht, hout⟩ := (affine hi).2 hr
  have sign : (BitVec.ofNat 8 (2 + (s.readP a).y.toNat % 2)).toNat = 2 + (s.readP a).y.toNat % 2 := by
    rw [BitVec.toNat_ofNat]
    omega
  exact ⟨t, _, _, ht, hout, sign, length_beBytes _ _, beInt_beBytes_toNat _⟩

/-! ### Loads and reads -/

/-- Settles O34: each stages its point once the destination field is checked. -/
theorem pointLoads : Obligations.PointLoads := by
  intro d a b s hd
  refine ⟨exec_of_checked_point (q := generator) hd rfl, exec_of_checked_point (q := Point.infinity) hd rfl, ?pset⟩
  obtain ⟨t, ht, hp⟩ :=
    exec_of_checked_point (i := .pset d a b) (q := affine (s.readW a).toNat (s.readW b).toNat) hd rfl
  refine ⟨t, _, ht, hp, affine_inf _ _, ?x, ?y⟩
  case x => rw [toNat_affine_x, modP_natCast]
  case y => rw [toNat_affine_y, modP_natCast]

/-- Settles O35: an affine point's coordinate is staged, and O raises E_INFINITY. -/
theorem coordinateReads : Obligations.CoordinateReads := by
  intro d a s ha
  refine ⟨fun hi => ⟨?x, ?y⟩, fun hi => ⟨?xOfO, ?yOfO⟩⟩
  case x => exact exec_of_w (i := .pgetx d a) (affineCommand_of_affine ha hi _)
  case y => exact exec_of_w (i := .pgety d a) (affineCommand_of_affine ha hi _)
  case xOfO => exact exec_of_error (i := .pgetx d a) (affineCommand_of_inf ha hi _)
  case yOfO => exact exec_of_error (i := .pgety d a) (affineCommand_of_inf ha hi _)

end Sys2Proof.Machine

/-! PROOFS. The hash family: the shape of `pad`, and `hashcmd` for any function whose digests have one length
(42_hash R102, R103, R108, R117 to R121). -/

namespace Sys2Proof.Machine

/-! ### Padding -/

/-- The number of zero bytes is the residue itself: the integer the model truncates to a natural is not negative. -/
theorem padZeros_cast (len : Nat) : (padZeros len : Int) = (55 - (len : Int)) % 64 :=
  Int.toNat_of_nonneg (Int.emod_nonneg _ (by decide))

/-- The message, 0x80, the zeros and 8 bytes fill whole blocks, and no more blocks than needed. -/
theorem length_padWith {lenBytes : Nat → List Byte} (h8 : ∀ v, (lenBytes v).length = 8) (m : List Byte) :
    (padWith lenBytes m).length = 64 * ((m.length + 8) / 64 + 1) := by
  have parts : (padWith lenBytes m).length = m.length + 1 + padZeros m.length + 8 := by
    simp only [padWith, List.length_append, List.length_singleton, List.length_replicate, h8]
  have zeros := padZeros_cast m.length
  omega

/-- Settles O37: `padZeros` is the z of the rule, for both encodings of the bit length. -/
theorem paddingShape : Obligations.PaddingShape := by
  intro m
  exact ⟨padZeros m.length, padZeros_cast _, rfl, rfl, length_padWith (length_beBytes 8) m,
    length_padWith (length_leBytes 8) m⟩

/-! ### The commands -/

theorem hashCommand_of_outside {s : State} (fn : List Byte → List Byte)
    (h : 1024 < s.srcAddr.toNat + s.srcLen.toNat) : hashCommand fn s = .error .range := by
  rw [hashCommand, sourceOperand_of_outside h, except_error_bind]

/-- `hashcmd(fn, L)` for any `fn` whose digests have L bytes: E_RANGE where the source or the destination leaves LMEM,
else the digest of the source bytes is the command's output (42_hash R102). -/
theorem exec_of_hashCommand {i : Instr} {fn : List Byte → List Byte} {len : Nat} {s : State}
    (hi : resultOf i s = hashCommand fn s) (hlen : ∀ m, (fn m).length = len) (hwf : s.lmem.wf = true) :
    (1024 < s.srcAddr.toNat + s.srcLen.toNat → exec i s = .next (failed s 0x05)) ∧
    (1024 < s.dstAddr.toNat + len → exec i s = .next (failed s 0x05)) ∧
    (s.srcAddr.toNat + s.srcLen.toNat ≤ 1024 → s.dstAddr.toNat + len ≤ 1024 →
      ∃ t out, exec i s = .next t ∧ SucceedsWithOutput s t out ∧ out.length = len ∧
        out = fn (s.lmem.readBytes s.srcAddr.toNat s.srcLen.toNat)) := by
  have outside : 1024 < s.srcAddr.toNat + s.srcLen.toNat → exec i s = .next (failed s 0x05) := fun hs =>
    exec_of_error (hi.trans (hashCommand_of_outside fn hs))
  have inside := fun hs => exec_of_output (hi.trans (resultOf_hashCommand fn hs)) hwf
  simp only [hlen] at inside
  refine ⟨outside, fun hd => ?_, fun hs hd => ?_⟩
  · rcases Nat.lt_or_ge 1024 (s.srcAddr.toNat + s.srcLen.toNat) with hs | hs
    · exact outside hs
    · exact (inside hs).1 hd
  · obtain ⟨t, ht, hout⟩ := (inside hs).2 hd
    exact ⟨t, _, ht, hout, hlen _, rfl⟩

/-- Settles O36: each command is `hashcmd` of its function, whose digests have the length the rule gives. -/
theorem hashCommandResults : Obligations.HashCommandResults := by
  rintro i fn len (⟨rfl, rfl, rfl⟩ | ⟨rfl, rfl, rfl⟩ | ⟨rfl, rfl, rfl⟩ | ⟨rfl, rfl, rfl⟩ | ⟨rfl, rfl, rfl⟩) s hwf
  · exact exec_of_hashCommand rfl length_sha256 hwf
  · exact exec_of_hashCommand rfl length_ripemd160 hwf
  · exact exec_of_hashCommand rfl length_hash160 hwf
  · exact exec_of_hashCommand rfl length_sha256d hwf
  · exact exec_of_hashCommand rfl length_checksum hwf

end Sys2Proof.Machine

/-! PROOFS. The Base58 text of an integer: it reads back as the integer, so that a standard decode gives the encoded
bytes back (43_base58 R122, R123, R124, R129). -/

namespace Sys2Proof.Machine

/-! ### The text of an integer and its value -/

/-- The base-58 characters of `v`, the most significant first, none for 0. -/
def text58 (v : Nat) : List Byte := ((Nat.digits 58 v).map alphaByte).reverse

/-- The value of a character: its place in the alphabet. -/
def charDigit (c : Byte) : Nat := ((List.range 58).map alphaByte).idxOf c

/-- The integer a text writes in base 58. -/
def textValue (cs : List Byte) : Nat := cs.foldl (fun acc c => 58 * acc + charDigit c) 0

/-- The bytes of `v`, the most significant first, none for 0. -/
def bytes256 (v : Nat) : List Byte := ((Nat.digits 256 v).map (fun d => BitVec.ofNat 8 d)).reverse

theorem base58_eq_text58 (data : List Byte) :
    base58 data = List.replicate (leadingZeros data) (alphaByte 0) ++ text58 (beInt data) := base58_eq data

theorem base58Decode_eq (cs : List Byte) : base58Decode cs =
    List.replicate (cs.takeWhile (fun c => c == alphaByte 0)).length 0x00 ++ bytes256 (textValue cs) := rfl

theorem length_text58 (v : Nat) : (text58 v).length = (Nat.digits 58 v).length := by simp [text58]

theorem head?_text58 (v : Nat) : (text58 v).head? = (Nat.digits 58 v).getLast?.map alphaByte := by simp [text58]

/-- The characters of the alphabet are all different. -/
theorem charDigit_alphaByte : ∀ {d : Nat}, d < 58 → charDigit (alphaByte d) = d := by decide

theorem textValue_ones_append (cs : List Byte) : ∀ z : Nat,
    textValue (List.replicate z (alphaByte 0) ++ cs) = textValue cs
  | 0 => rfl
  | z + 1 => textValue_ones_append cs z

theorem textValue_text58 (v : Nat) : textValue (text58 v) = v := by
  have digit : ∀ d ∈ Nat.digits 58 v, (charDigit ∘ alphaByte) d = d := fun d hd =>
    charDigit_alphaByte (Nat.digits_lt_base (by decide) hd)
  calc textValue (text58 v)
      = ((Nat.digits 58 v).map (charDigit ∘ alphaByte)).foldr (fun d acc => 58 * acc + d) 0 := by
        rw [textValue, text58, List.foldl_reverse, List.foldr_map, List.foldr_map]
        rfl
    _ = Nat.ofDigits 58 (Nat.digits 58 v) := by
        rw [List.map_congr_left digit, List.map_id', Nat.ofDigits_eq_foldr]
        simp only [Nat.add_comm, Nat.cast_id]
    _ = v := Nat.ofDigits_digits 58 v

/-- The text of an integer has no leading '1'. -/
theorem text58_head_ne_one {v : Nat} {c : Byte} (h : (text58 v).head? = some c) : c ≠ alphaByte 0 := by
  rintro rfl
  rw [head?_text58, Option.map_eq_some_iff] at h
  obtain ⟨d, hlast, hchar⟩ := h
  have hd : d = 0 := by
    rw [← charDigit_alphaByte (Nat.digits_lt_base (by decide) (List.mem_of_getLast? hlast)), hchar]
    decide
  have hv : v ≠ 0 := by
    rintro rfl
    simp at hlast
  rw [List.getLast?_eq_some_getLast (Nat.digits_ne_nil_iff_ne_zero.2 hv), Option.some_inj] at hlast
  exact Nat.getLast_digit_ne_zero 58 hv (hlast.trans hd)

/-- A decode counts the ones that stand for the leading zero bytes, and no others. -/
theorem takeWhile_ones_text58 (z v : Nat) :
    (List.replicate z (alphaByte 0) ++ text58 v).takeWhile (fun c => c == alphaByte 0) =
      List.replicate z (alphaByte 0) := by
  have ones : ∀ c ∈ List.replicate z (alphaByte 0), (c == alphaByte 0) = true := fun c hc =>
    beq_iff_eq.2 (List.eq_of_mem_replicate hc)
  rw [List.takeWhile_append_of_pos ones]
  cases htext : text58 v with
  | nil => simp
  | cons c cs => simp [text58_head_ne_one (v := v) (c := c) (by rw [htext]; rfl)]

theorem base58Decode_ones_text58 (z v : Nat) :
    base58Decode (List.replicate z (alphaByte 0) ++ text58 v) = List.replicate z 0x00 ++ bytes256 v := by
  rw [base58Decode_eq, takeWhile_ones_text58, List.length_replicate, textValue_ones_append, textValue_text58]

/-! ### The bytes of an integer -/

theorem leInt_eq_ofDigits : ∀ bs : List Byte, leInt bs = Nat.ofDigits 256 (bs.map BitVec.toNat)
  | [] => rfl
  | b :: bs => by rw [leInt, leInt_eq_ofDigits bs, List.map_cons, Nat.ofDigits_cons]

/-- A sequence that begins with a byte other than 0 is the bytes of its integer. -/
theorem bytes256_beInt_of_ne_zero {b : Byte} (bs : List Byte) (hb : b ≠ 0) : bytes256 (beInt (b :: bs)) = b :: bs := by
  have digits : Nat.digits 256 (beInt (b :: bs)) = (b :: bs).reverse.map BitVec.toNat := by
    rw [beInt, leInt_eq_ofDigits]
    refine Nat.digits_ofDigits 256 (by decide) _ (fun d hd => ?_) (fun _ => ?_)
    · obtain ⟨c, _, rfl⟩ := List.mem_map.1 hd
      exact c.isLt
    · simpa using fun h => hb (BitVec.eq_of_toNat_eq h)
  rw [bytes256, digits, List.map_map, List.map_congr_left (g := id) (fun c _ => by simp), List.map_id,
    List.reverse_reverse]

/-- A sequence is its leading zero bytes and the bytes of its integer. -/
theorem zeros_append_bytes256 : ∀ data : List Byte,
    List.replicate (leadingZeros data) 0x00 ++ bytes256 (beInt data) = data
  | [] => rfl
  | b :: bs => by
    by_cases hb : b = 0#8
    · subst hb
      have hint : beInt (0#8 :: bs) = beInt bs := by simp [beInt_cons]
      rw [hint, leadingZeros_zero, List.replicate_succ, List.cons_append, zeros_append_bytes256 bs]
      rfl
    · rw [leadingZeros_of_ne bs hb, bytes256_beInt_of_ne_zero bs hb]
      rfl

/-! ### Decoding -/

theorem base58Decode_base58 (data : List Byte) : base58Decode (base58 data) = data := by
  rw [base58_eq_text58, base58Decode_ones_text58, zeros_append_bytes256]

/-- Settles O39: Base58Check is Base58 of the payload and its checksum. -/
theorem base58DecodesBack : Obligations.Base58DecodesBack := fun data _ =>
  ⟨base58Decode_base58 data, base58Decode_base58 (data ++ checksum data)⟩

end Sys2Proof.Machine

/-! PROOFS. The Base58 family: the length and the first character of a text, and the commands that store one
(43_base58 R123 to R128). The names `wifResult` and `addrResult` are those of the model's pseudocode, so the theorems
that settle the statements of these names end in `_spec`. -/

namespace Sys2Proof.Machine

/-! ### Lengths and first characters -/

theorem length_base58_text58 (data : List Byte) :
    (base58 data).length = leadingZeros data + (text58 (beInt data)).length := by
  rw [length_base58, length_text58]

/-- A text of k + 1 characters begins with the character of the leading digit. -/
theorem text58_of_bounds {v k : Nat} (h1 : 58 ^ k ≤ v) (h2 : v < 58 ^ (k + 1)) :
    (text58 v).length = k + 1 ∧ (text58 v).head? = some (alphaByte (v / 58 ^ k)) := by
  have hlen : (Nat.digits 58 v).length = k + 1 := length_digits58_of_bounds h1 h2
  have hlead : (Nat.digits 58 v)[k] = v / 58 ^ k := by
    rw [← List.getD_eq_getElem _ 0, Nat.getD_digits _ _ (by decide), Nat.mod_eq_of_lt]
    exact Nat.div_lt_of_lt_mul (by rwa [← pow_succ])
  refine ⟨(length_text58 v).trans hlen, ?_⟩
  rw [head?_text58, List.getLast?_eq_getElem?, hlen, Nat.add_sub_cancel,
    List.getElem?_eq_getElem (by omega), hlead, Option.map_some]

/-- A sequence that begins with a zero byte is written with '1' first. -/
theorem head?_base58_zero (bs : List Byte) : (base58 (0#8 :: bs)).head? = some 0x31 := by
  rw [base58_eq_text58, leadingZeros_zero, List.replicate_succ]
  rfl

theorem leadingZeros_append (xs ys : List Byte) : leadingZeros (xs ++ ys) =
    if leadingZeros xs = xs.length then xs.length + leadingZeros ys else leadingZeros xs := by
  unfold leadingZeros
  rw [List.takeWhile_append]
  split <;> simp

theorem eq_replicate_of_leadingZeros {bs : List Byte} (h : leadingZeros bs = bs.length) :
    bs = List.replicate bs.length 0#8 := by
  refine List.eq_replicate_iff.2 ⟨rfl, fun b hb => ?_⟩
  have hall := List.takeWhile_eq_self_iff.1 ((List.takeWhile_sublist _).eq_of_length h)
  exact beq_iff_eq.1 (hall b hb)

/-! ### B58ENC and B58CHK -/

theorem base58Command_of_outside {s : State} (enc : List Byte → List Byte)
    (h : 1024 < s.srcAddr.toNat + s.srcLen.toNat) : base58Command enc s = .error .range := by
  rw [base58Command, base58Output, sourceOperand_of_outside h]
  rfl

theorem base58Command_of_empty {s : State} (enc : List Byte → List Byte) (h : s.srcAddr.toNat ≤ 1024)
    (h0 : s.srcLen = 0) : base58Command enc s = .error .len := by
  rw [base58Command, base58Output, h0, sourceOperand_of_inside h]
  rfl

/-- B58ENC and B58CHK for any encoder: the errors in their order, else the encoded source is the command's output. -/
theorem exec_of_base58Command {i : Instr} {enc : List Byte → List Byte} {s : State} {out : List Byte}
    (hi : resultOf i s = base58Command enc s) (hwf : s.lmem.wf = true)
    (hout : out = enc (s.lmem.readBytes s.srcAddr.toNat s.srcLen.toNat)) :
    (1024 < s.srcAddr.toNat + s.srcLen.toNat → exec i s = .next (failed s 0x05)) ∧
    (s.srcAddr.toNat ≤ 1024 → s.srcLen = 0 → exec i s = .next (failed s 0x06)) ∧
    (s.srcLen ≠ 0 → 1024 < s.dstAddr.toNat + out.length → exec i s = .next (failed s 0x05)) ∧
    (s.srcAddr.toNat + s.srcLen.toNat ≤ 1024 → s.srcLen ≠ 0 → s.dstAddr.toNat + out.length ≤ 1024 →
      ∃ t, exec i s = .next t ∧ SucceedsWithOutput s t out) := by
  have outside : 1024 < s.srcAddr.toNat + s.srcLen.toNat → exec i s = .next (failed s 0x05) := fun hs =>
    exec_of_error (hi.trans (base58Command_of_outside enc hs))
  have inside := fun hs h0 => exec_of_output ((hi.trans (resultOf_base58Command enc hs h0)).trans (by rw [← hout])) hwf
  refine ⟨outside, fun hs h0 => exec_of_error (hi.trans (base58Command_of_empty enc hs h0)), fun h0 hd => ?_,
    fun hs h0 => (inside hs h0).2⟩
  rcases Nat.lt_or_ge 1024 (s.srcAddr.toNat + s.srcLen.toNat) with hs | hs
  · exact outside hs
  · exact (inside hs h0).1 hd

/-- Settles O38: each command is the shared one with its encoder. -/
theorem base58CommandResults : Obligations.Base58CommandResults := by
  rintro i enc (⟨rfl, rfl⟩ | ⟨rfl, rfl⟩) s m out hwf rfl hout
  · exact exec_of_base58Command (i := .b58enc) rfl hwf hout
  · exact exec_of_base58Command (i := .b58chk) rfl hwf hout

/-! ### WIF -/

/-- The integer a valid scalar's WIF writes lies between 18 and 20 times 58^51 (43_base58 R127). -/
theorem beInt_wif_bounds {k : Nat} (hk : k < orderN) :
    18 * 58 ^ 51 ≤ beInt (wifPayload k ++ checksum (wifPayload k)) ∧
      beInt (wifPayload k ++ checksum (wifPayload k)) < 20 * 58 ^ 51 := by
  have hscalar : beInt (beBytes 32 k) = k := by
    rw [beInt_beBytes, Nat.mod_eq_of_lt (hk.trans (by decide))]
  have hpayload : beInt (wifPayload k) = 0x80 * 256 ^ 33 + (k * 256 + 1) := by
    rw [wifPayload, List.cons_append, beInt_cons, beInt_append, hscalar]
    simp [wifVersion, compressedFlag, beInt, leInt]
  have hsum := beInt_lt (checksum (wifPayload k))
  rw [beInt_append, hpayload]
  rw [length_checksum] at hsum ⊢
  simp only [orderN] at hk
  omega

/-- An integer between 18 and 20 times 58^51 has 52 digits, and its leading one is that of 'K' or 'L'. -/
theorem text58_of_wif_bounds {v : Nat} (h1 : 18 * 58 ^ 51 ≤ v) (h2 : v < 20 * 58 ^ 51) :
    (text58 v).length = 52 ∧ ((text58 v).head? = some 0x4B ∨ (text58 v).head? = some 0x4C) := by
  obtain ⟨hlen, hhead⟩ := text58_of_bounds (v := v) (k := 51) (by omega) (by omega)
  refine ⟨hlen, ?_⟩
  rw [hhead]
  rcases (by omega : v / 58 ^ 51 = 18 ∨ v / 58 ^ 51 = 19) with h | h
  · exact .inl (by rw [h]; rfl)
  · exact .inr (by rw [h]; rfl)

/-- The WIF of a valid scalar has 52 characters and begins with 'K' or 'L' (43_base58 R127). -/
theorem wif_text {k : Nat} (hk : k < orderN) :
    (base58check (wifPayload k)).length = 52 ∧
      ((base58check (wifPayload k)).head? = some 0x4B ∨ (base58check (wifPayload k)).head? = some 0x4C) := by
  have hzeros : leadingZeros (wifPayload k ++ checksum (wifPayload k)) = 0 :=
    leadingZeros_of_ne (b := wifVersion) _ (by decide)
  obtain ⟨hlow, hhigh⟩ := beInt_wif_bounds hk
  rw [base58check, base58_eq_text58, hzeros, List.replicate_zero, List.nil_append]
  exact text58_of_wif_bounds hlow hhigh

theorem resultOf_wif_of_invalid {s : State} {a : Field4}
    (h : (s.readW a).toNat = 0 ∨ orderN ≤ (s.readW a).toNat) : resultOf (.wif a) s = .error .scalar := by
  show wifResult a s = _
  rw [wifResult, scalarOperand_of_invalid h, except_error_bind]

/-- Settles O40: a valid scalar's 52 characters are the output, any other scalar raises E_SCALAR. -/
theorem wifResult_spec : Obligations.WifResult := by
  intro a s hwf
  refine ⟨fun h => exec_of_error (resultOf_wif_of_invalid h), fun h0 h1 => ?_⟩
  obtain ⟨hlen, hhead⟩ := wif_text h1
  have output := exec_of_output (resultOf_wif h0 h1) hwf
  rw [hlen] at output
  refine ⟨fun hd => output.1 (by omega), fun hd => ?_⟩
  obtain ⟨t, ht, hout⟩ := output.2 (by omega)
  exact ⟨t, _, ht, hout, hlen, hhead, rfl⟩

/-! ### ADDR -/

/-- The checksum of 21 zero bytes does not begin with a zero byte (95_test_vectors H12: 94a00911). -/
theorem leadingZeros_checksum_zeros : leadingZeros (checksum (List.replicate 21 0#8)) = 0 := by decide +kernel

/-- Of the 25 bytes of an address at most 21 are leading zeros. -/
theorem leadingZeros_addr_le {payload : List Byte} (h : payload.length = 21) :
    leadingZeros (payload ++ checksum payload) ≤ 21 := by
  rw [leadingZeros_append]
  split
  · next hz =>
    have hzero := eq_replicate_of_leadingZeros hz
    rw [h] at hzero
    rw [h, hzero, leadingZeros_checksum_zeros]
  · exact h ▸ leadingZeros_le payload

/-- The text of an integer of m bytes with a first byte other than 0: more than m characters, and at most m + 9. -/
theorem length_text58_of_bytes {v m : Nat} (h4 : 4 ≤ m) (h24 : m ≤ 24) (h1 : 256 ^ (m - 1) ≤ v) (h2 : v < 256 ^ m) :
    m < (text58 v).length ∧ (text58 v).length ≤ m + 9 := by
  have powers : ∀ m ≤ 24, 4 ≤ m → 58 ^ m ≤ 256 ^ (m - 1) ∧ 256 ^ m ≤ 58 ^ (m + 9) := by decide
  obtain ⟨hlow, hhigh⟩ := powers m h24 h4
  rw [length_text58]
  exact ⟨(Nat.lt_digits_length_iff (by decide) v).2 (hlow.trans h1),
    (Nat.digits_length_le_iff (by decide) v).2 (h2.trans_le hhigh)⟩

/-- The Base58Check of a version byte 0 and 20 bytes has 26 to 34 characters (43_base58 R128). -/
theorem length_base58check_version_zero {h : List Byte} (h20 : h.length = 20) :
    26 ≤ (base58check (0#8 :: h)).length ∧ (base58check (0#8 :: h)).length ≤ 34 := by
  have h21 : (0#8 :: h).length = 21 := by rw [List.length_cons, h20]
  have hle := leadingZeros_addr_le h21
  have hpos : 1 ≤ leadingZeros (0#8 :: h ++ checksum (0#8 :: h)) := by
    rw [List.cons_append, leadingZeros_zero]
    omega
  have h25 : (0#8 :: h ++ checksum (0#8 :: h)).length = 25 := by rw [List.length_append, h21, length_checksum]
  rw [base58check, length_base58_text58]
  generalize 0#8 :: h ++ checksum (0#8 :: h) = data at hle hpos h25
  have hlow := le_beInt_leadingZeros data (by omega)
  have hhigh := beInt_lt_leadingZeros data
  have := length_text58_of_bytes (by omega) (by omega) hlow hhigh
  omega

theorem resultOf_addr_of_inf {s : State} {a : Field4} (ha : a.toNat < 4) (hi : (s.readP a).inf = true) :
    resultOf (.addr a) s = .error .infinity := by
  show addrResult a s = _
  rw [addrResult, addrOutput, checkPointField_of_lt ha, except_ok_bind, affineOperand_of_inf hi]
  rfl

/-- Settles O41: O is refused, and an affine point's address, which begins with a zero byte, is the output. -/
theorem addrResult_spec : Obligations.AddrResult := by
  rintro a s out ha hwf rfl
  have affine := fun hi => exec_of_output (resultOf_addr (s := s) ha hi) hwf
  obtain ⟨hlow, hhigh⟩ := length_base58check_version_zero (length_hash160 (compress (s.readP a)))
  exact ⟨hlow, hhigh, head?_base58_zero _, fun hi => exec_of_error (resultOf_addr_of_inf ha hi),
    fun hi => (affine hi).1, fun hi => (affine hi).2⟩

end Sys2Proof.Machine

/-! PROOFS. The transfer family: the value LDW loads, and that it loads back the 32 bytes a command stored at its source
address, as STW does (44_transfer R130, R131). The name `ldwResult` is that of the model's pseudocode, so the theorem
that settles the statement of this name ends in `_spec`. -/

namespace Sys2Proof.Machine

/-! ### LDW -/

theorem resultOf_ldw {s : State} (d : Field4) (h : s.srcAddr.toNat ≤ 992) : resultOf (.ldw d) s =
    .ok { w := some (d, BitVec.ofNat 256 (beInt (s.lmem.readBytes s.srcAddr.toNat 32))) } := by
  show ldwResult d s = _
  rw [ldwResult, sourceOperand_of_inside (by omega), except_ok_bind, except_pure]

theorem resultOf_ldw_of_outside {s : State} (d : Field4) (h : 992 < s.srcAddr.toNat) :
    resultOf (.ldw d) s = .error .range := by
  show ldwResult d s = _
  rw [ldwResult, sourceOperand_of_outside (by omega), except_error_bind]

/-- A register holds the integer of 32 bytes without loss (00_scope R10). -/
theorem toNat_ofNat_beInt {bs : List Byte} (h : bs.length = 32) : (BitVec.ofNat 256 (beInt bs)).toNat = beInt bs := by
  have hlt := beInt_lt bs
  rw [h, show 256 ^ 32 = 2 ^ 256 by decide] at hlt
  rw [BitVec.toNat_ofNat, Nat.mod_eq_of_lt hlt]

/-- Settles O42: the source range is checked for 32 bytes, and their integer is staged. -/
theorem ldwResult_spec : Obligations.LdwResult := by
  intro d s
  refine ⟨fun hs => ?_, fun hs => exec_of_error (resultOf_ldw_of_outside d hs)⟩
  obtain ⟨t, ht, hw⟩ := exec_of_w (resultOf_ldw d hs)
  exact ⟨t, _, ht, hw, toNat_ofNat_beInt (Memory.length_readBytes _ _ _)⟩

/-! ### STW, and LDW after it -/

theorem StoresAt.readBytes {s t : State} {a : Nat} {bs : List Byte} (h : StoresAt s t a bs) :
    t.lmem.readBytes a bs.length = bs := by
  refine List.ext_getElem (Memory.length_readBytes _ _ _) fun i hread hi => ?_
  rw [Memory.getElem_readBytes, h.1 i hi]

/-- After any command that stored 32 bytes, LDW at their address loads their integer. -/
theorem ldw_after_output {s t : State} {bs : List Byte} (h : SucceedsWithOutput s t bs) (h32 : bs.length = 32)
    (hd : s.dstAddr.toNat ≤ 992) (haddr : s.srcAddr = s.dstAddr) (d : Field4) :
    ∃ u, exec (.ldw d) t = .next u ∧ (u.readW d).toNat = beInt bs := by
  obtain ⟨⟨_, _, _, _, _, _, _, _, hsrc, _⟩, _, _, hstores, _⟩ := h
  have hsrc : t.srcAddr = s.dstAddr := hsrc.trans haddr
  obtain ⟨u, v, hu, ⟨_, hwrites, _⟩, hv⟩ := (ldwResult_spec d t).1 (hsrc ▸ hd)
  have hload : u.readW d = v := by rw [hwrites d, if_pos rfl]
  have hbytes := hstores.readBytes
  rw [h32] at hbytes
  exact ⟨u, hu, by rw [hload, hv, hsrc, hbytes]⟩

/-- Settles O43: the encoding of the register is the command's output, and LDW decodes what was stored. -/
theorem stwResult : Obligations.StwResult := by
  intro a s hwf
  have output := exec_of_output (i := .stw a) (s := s) rfl hwf
  simp only [length_beBytes] at output
  refine ⟨fun hd => ?_, fun hd => output.1 (by omega)⟩
  obtain ⟨t, ht, hout⟩ := output.2 (by omega)
  refine ⟨t, _, ht, hout, length_beBytes _ _, beInt_beBytes_toNat _, fun haddr d => ?_⟩
  obtain ⟨u, hu, hload⟩ := ldw_after_output hout (length_beBytes _ _) hd haddr d
  exact ⟨u, hu, BitVec.eq_of_toNat_eq (hload.trans (beInt_beBytes_toNat _))⟩

end Sys2Proof.Machine

/-! PROOFS. Command errors: the state one leaves, and which of them each command's pseudocode can end with, read off the
checks it is built of (60_exceptions R132, R133, R142, R144). -/

namespace Sys2Proof.Machine

/-! ### The state a command error leaves -/

/-- Only an error leaves ERR set, since a commit clears it (10_state R40). -/
theorem exec_next_err {i : Instr} {s t : State} (h : exec i s = .next t) (herr : t.err = true) :
    ∃ e, resultOf i s = .error e ∧ t = s.raiseError e := by
  rcases exec_next_cases h with failure | ⟨st, _, rfl⟩
  · exact failure
  · rw [State.commit_err] at herr
    cases herr

/-- Settles O16. -/
theorem failedCommandChangesOnlyStatus : Obligations.FailedCommandChangesOnlyStatus := by
  intro i s t h herr
  obtain ⟨e, _, rfl⟩ := exec_next_err h herr
  obtain ⟨lo, hi⟩ := e.code_bounds
  exact ⟨e.code, lo, hi, raiseError_eq_failed s e⟩

/-! ### The errors a piece of pseudocode can raise -/

/-- Where this piece of pseudocode ends with an error, it is one of `es`. -/
def RaisesOnly {α : Type} (es : List CmdError) (x : Except CmdError α) : Prop := ∀ e, x = .error e → e ∈ es

theorem RaisesOnly.mono {α : Type} {es es' : List CmdError} {x : Except CmdError α} (h : RaisesOnly es x)
    (hsub : es ⊆ es') : RaisesOnly es' x := fun e he => hsub (h e he)

theorem raisesOnly_ok {α : Type} (a : α) : RaisesOnly [] (.ok a) := nofun

theorem RaisesOnly.of_eq_ok {α : Type} {x : Except CmdError α} {a : α} (es : List CmdError) (h : x = .ok a) :
    RaisesOnly es x := by
  subst h
  exact nofun

theorem RaisesOnly.of_eq_error {α : Type} {x : Except CmdError α} {e : CmdError} (h : x = .error e) :
    RaisesOnly [e] x := by
  subst h
  rintro _ ⟨⟩
  exact List.mem_singleton_self e

/-- A sequence raises what its parts raise. -/
theorem RaisesOnly.bind {α β : Type} {es es' : List CmdError} {x : Except CmdError α} {f : α → Except CmdError β}
    (hx : RaisesOnly es x) (hf : ∀ a, RaisesOnly es' (f a)) : RaisesOnly (es ++ es') (x >>= f) := by
  intro e h
  rcases bind_eq_error.1 h with h | ⟨a, _, h⟩
  · exact List.mem_append_left _ (hx e h)
  · exact List.mem_append_right _ (hf a e h)

theorem require_raisesOnly (c : Bool) (e : CmdError) : RaisesOnly [e] (require c e) := by
  cases c
  · exact .of_eq_error rfl
  · exact .of_eq_ok _ rfl

/-- E_ILLEGAL is the decoder's: a legal field passes its check (60_exceptions R134). -/
theorem checkPointField_raisesOnly {r : Field4} (h : pointFieldOk r = true) : RaisesOnly [] (checkPointField r) :=
  .of_eq_ok _ (checkPointField_eq_ok.2 h)

theorem scalarOperand_raisesOnly (s : State) (a : Field4) : RaisesOnly [.scalar] (s.scalarOperand a) := by
  rcases scalarOperand_cases s a with ⟨_, h⟩ | ⟨_, _, h⟩
  · exact .of_eq_error h
  · exact .of_eq_ok _ h

theorem affineOperand_raisesOnly (s : State) (a : Field4) : RaisesOnly [.infinity] (s.affineOperand a) := by
  rcases affineOperand_cases s a with ⟨_, h⟩ | ⟨_, h⟩
  · exact .of_eq_error h
  · exact .of_eq_ok _ h

theorem sourceOperand_raisesOnly (s : State) (n : Nat) : RaisesOnly [.range] (s.sourceOperand n) := by
  rcases sourceOperand_cases s n with ⟨_, h⟩ | ⟨_, h⟩
  · exact .of_eq_error h
  · exact .of_eq_ok _ h

theorem output_raisesOnly (s : State) (out : List Byte) : RaisesOnly [.range] (s.output out) := by
  rcases output_cases s out with ⟨_, h⟩ | ⟨_, h⟩
  · exact .of_eq_error h
  · exact .of_eq_ok _ h

/-! ### The errors of each command -/

/-- Source and destination are checked for the same error. -/
theorem hashCommand_raisesOnly (fn : List Byte → List Byte) (s : State) : RaisesOnly [.range] (hashCommand fn s) :=
  ((sourceOperand_raisesOnly s _).bind fun _ => output_raisesOnly s _).mono (by simp)

theorem base58Command_raisesOnly (enc : List Byte → List Byte) (s : State) :
    RaisesOnly [.range, .len] (base58Command enc s) := by
  have source : RaisesOnly [.range, .len] (base58Output enc s) :=
    (sourceOperand_raisesOnly s _).bind fun _ => (require_raisesOnly _ .len).bind fun _ => raisesOnly_ok _
  exact (source.bind fun _ => output_raisesOnly s _).mono (by simp)

/-- The error column of R142's table without E_ILLEGAL. -/
def commandErrors : Instr → List CmdError
  | .fadd _ _ _ | .fsub _ _ _ | .fmul _ _ _ => []
  | .finv _ _ => [.noInv]
  | .sval _ | .smul _ _ => [.scalar]
  | .padd _ _ _ | .pdbl _ _ | .pgen _ | .pinf _ | .pset _ _ _ => []
  | .pcomp _ => [.infinity, .range]
  | .pgetx _ _ | .pgety _ _ => [.infinity]
  | .sha256 | .rmd160 | .hash160 | .sha256d | .cksum => [.range]
  | .b58enc | .b58chk => [.range, .len]
  | .wif _ => [.scalar, .range]
  | .addr _ => [.infinity, .range]
  | .ldw _ | .stw _ => [.range]

/-- A well-formed command raises the errors of the checks its pseudocode makes, in their order (60_exceptions R142). -/
theorem resultOf_raisesOnly {i : Instr} (s : State) (h : i.wellFormed = true) :
    RaisesOnly (commandErrors i) (resultOf i s) := by
  cases i
  case fadd | fsub | fmul => exact raisesOnly_ok _
  case finv => exact (require_raisesOnly _ _).bind fun _ => raisesOnly_ok _
  case sval => exact (scalarOperand_raisesOnly s _).bind fun _ => raisesOnly_ok _
  case padd =>
    simp only [Instr.wellFormed, Bool.and_eq_true] at h
    obtain ⟨⟨hd, ha⟩, hb⟩ := h
    exact (checkPointField_raisesOnly hd).bind fun _ => (checkPointField_raisesOnly ha).bind fun _ =>
      (checkPointField_raisesOnly hb).bind fun _ => raisesOnly_ok _
  case pdbl =>
    simp only [Instr.wellFormed, Bool.and_eq_true] at h
    obtain ⟨hd, ha⟩ := h
    exact (checkPointField_raisesOnly hd).bind fun _ => (checkPointField_raisesOnly ha).bind fun _ => raisesOnly_ok _
  case smul =>
    exact (checkPointField_raisesOnly h).bind fun _ => (scalarOperand_raisesOnly s _).bind fun _ => raisesOnly_ok _
  case pcomp =>
    exact (checkPointField_raisesOnly h).bind fun _ => (affineOperand_raisesOnly s _).bind fun _ =>
      output_raisesOnly s _
  case pgen | pinf | pset => exact (checkPointField_raisesOnly h).bind fun _ => raisesOnly_ok _
  case pgetx | pgety =>
    exact (checkPointField_raisesOnly h).bind fun _ => (affineOperand_raisesOnly s _).bind fun _ => raisesOnly_ok _
  case sha256 | rmd160 | hash160 | sha256d | cksum => exact hashCommand_raisesOnly _ s
  case b58enc | b58chk => exact base58Command_raisesOnly _ s
  case wif => exact (scalarOperand_raisesOnly s _).bind fun _ => output_raisesOnly s _
  case addr a =>
    have address : RaisesOnly [.infinity] (addrOutput a s) :=
      (checkPointField_raisesOnly h).bind fun _ => (affineOperand_raisesOnly s _).bind fun _ => raisesOnly_ok _
    exact address.bind fun _ => output_raisesOnly s _
  case ldw => exact (sourceOperand_raisesOnly s _).bind fun _ => raisesOnly_ok _
  case stw => exact output_raisesOnly s _

/-- Settles O17: the code in ERRCODE is that of an error which the command's own checks raise. -/
theorem commandErrorTable : Obligations.CommandErrorTable := by
  intro i s t hwf h herr
  obtain ⟨e, he, rfl⟩ := exec_next_err h herr
  have hcode : e.code ∈ (commandErrors i).map CmdError.code := List.mem_map_of_mem (resultOf_raisesOnly s hwf e he)
  cases i <;> exact hcode

end Sys2Proof.Machine

/-! PROOFS. The soft reset, and what the latency of a command depends on (10_state R33; 70_reset_and_hazards R158,
R171). -/

namespace Sys2Proof.Machine

/-- Settles O48: CTRL's bit 0 alone decides between a reset and no effect, and BUSY plays no part. -/
theorem softResetFromAnyState : Obligations.SoftResetFromAnyState := by
  refine fun s v => ⟨fun hset => ?set, fun hclear => ?clear⟩
  case set =>
    rw [serve_write_ctrl, writeReg_ctrl_set s hset]
    rfl
  case clear =>
    rw [serve_write_ctrl, writeReg_ctrl_clear s hclear]
    rfl

/-! ### The arguments of the latency -/

theorem latencyOf_legal (s : State) {v : Word} {i : Instr} (h : decode v = .ok i) :
    s.latencyOf v = Config.latency (opcField v).toNat (latencySrcLen i s) (outputLength i s) := by
  simp only [State.latencyOf, h]

/-- The hash and Base58 families hand SRC_LEN to the latency, and every other command 0 (70_reset_and_hazards R171). -/
theorem latencySrcLen_congr (i : Instr) {s t : State} (h : s.srcLen = t.srcLen) :
    latencySrcLen i s = latencySrcLen i t := by
  cases i
  case fadd | fsub | fmul | finv | sval | padd | pdbl | smul | pcomp | pgen | pinf | pset | pgetx | pgety | ldw | stw =>
    rfl
  case sha256 | rmd160 | hash160 | sha256d | cksum | b58enc | b58chk | wif | addr => exact congrArg BitVec.toNat h

/-- All but B58ENC, B58CHK and ADDR output a number of bytes that the command fixes, whatever the operands
(70_reset_and_hazards R171; log 3). -/
theorem outputLength_fixed {i : Instr} (henc : i ≠ .b58enc) (hchk : i ≠ .b58chk) (haddr : ∀ a, i ≠ .addr a)
    (s t : State) : outputLength i s = outputLength i t := by
  cases i
  case b58enc => exact absurd rfl henc
  case b58chk => exact absurd rfl hchk
  case addr a => exact absurd rfl (haddr a)
  case fadd | fsub | fmul | finv | sval | padd | pdbl | smul | pcomp | pgen | pinf | pset | pgetx | pgety => rfl
  case sha256 | rmd160 | hash160 | sha256d | cksum | wif | ldw | stw => rfl

/-- Settles O59: the latency sees the state through SRC_LEN and the output length alone. -/
theorem latencyIgnoresSecrets : Obligations.LatencyIgnoresSecrets := by
  intro s t v i hv hlen henc hchk haddr
  rw [latencyOf_legal s hv, latencyOf_legal t hv, latencySrcLen_congr i hlen, outputLength_fixed henc hchk haddr s t]

end Sys2Proof.Machine
